-- ==== Sys2Proof/Word.lean ====
section
/-! DEFINITION. The widths of the core's data: words, register numbers, register masks (R9, R10, R21, R26). -/

namespace Sys2Proof

/-- A register, a memory word or an instruction word: 32 bits, bit 0 the least significant (R9). -/
abbrev Word := BitVec 32

/-- A register number, 0 to 31 (R21, R84). -/
abbrev Reg := Fin 32

/-- A set of registers as a 32-bit mask, bit `r` for register `r` (R11 `mask`, R26). -/
abbrev RegMask := BitVec 32

end Sys2Proof
end

