-- ==== Sys2Proof/Syntax.lean ====
section
/-! DEFINITION. The closed set of 16 decoded instructions and the fixed table of their names (R20, R78, R84, R90). -/

namespace Sys2Proof

/-- The 16 names of the instruction set, in the source's order (R78, R90). -/
inductive Mnemonic
  | beq | bne | blt | sw | add | sub | and | or
  | addi | andi | ori | sll | sra | lw | jal | brk
deriving DecidableEq, Repr

namespace Mnemonic

/-- All 16, in the order of R78. -/
def all : List Mnemonic :=
  [.beq, .bne, .blt, .sw, .add, .sub, .and, .or, .addi, .andi, .ori, .sll, .sra, .lw, .jal, .brk]

/-- The name in lower case, as the assembler text writes it (R86, R90). -/
def name : Mnemonic → String
  | .beq => "beq"
  | .bne => "bne"
  | .blt => "blt"
  | .sw => "sw"
  | .add => "add"
  | .sub => "sub"
  | .and => "and"
  | .or => "or"
  | .addi => "addi"
  | .andi => "andi"
  | .ori => "ori"
  | .sll => "sll"
  | .sra => "sra"
  | .lw => "lw"
  | .jal => "jal"
  | .brk => "break"

end Mnemonic

/-- A decoded instruction (R84): the variant's fields, `imm` already sign-extended to 32 bits by the decoder. -/
inductive Instr
  /-- Branch if equal (R170). -/
  | beq (rs1 rs2 : Reg) (imm : Word)
  /-- Branch if not equal (R171). -/
  | bne (rs1 rs2 : Reg) (imm : Word)
  /-- Branch if less than, signed (R172). -/
  | blt (rs1 rs2 : Reg) (imm : Word)
  /-- Store word: base `rs1`, value `rs2` (R140). -/
  | sw (rs1 rs2 : Reg) (imm : Word)
  /-- Add registers (R150). -/
  | add (rd rs1 rs2 : Reg)
  /-- Subtract registers (R151). -/
  | sub (rd rs1 rs2 : Reg)
  /-- Bitwise AND of registers (R160). -/
  | and (rd rs1 rs2 : Reg)
  /-- Bitwise OR of registers (R161). -/
  | or (rd rs1 rs2 : Reg)
  /-- Add immediate (R152). -/
  | addi (rd rs1 : Reg) (imm : Word)
  /-- Bitwise AND with immediate (R162). -/
  | andi (rd rs1 : Reg) (imm : Word)
  /-- Bitwise OR with immediate (R163). -/
  | ori (rd rs1 : Reg) (imm : Word)
  /-- Shift left logical by immediate (R164). -/
  | sll (rd rs1 : Reg) (imm : Word)
  /-- Shift right arithmetic by immediate (R165). -/
  | sra (rd rs1 : Reg) (imm : Word)
  /-- Load word (R141). -/
  | lw (rd rs1 : Reg) (imm : Word)
  /-- Jump and link (R173). -/
  | jal (rd : Reg) (imm : Word)
  /-- End of the run, the table's `break` (R174). -/
  | brk
deriving DecidableEq, Repr

/-- The tag of a decoded instruction (R20). -/
def Instr.mnemonic : Instr → Mnemonic
  | .beq .. => .beq
  | .bne .. => .bne
  | .blt .. => .blt
  | .sw .. => .sw
  | .add .. => .add
  | .sub .. => .sub
  | .and .. => .and
  | .or .. => .or
  | .addi .. => .addi
  | .andi .. => .andi
  | .ori .. => .ori
  | .sll .. => .sll
  | .sra .. => .sra
  | .lw .. => .lw
  | .jal .. => .jal
  | .brk => .brk

end Sys2Proof
end

