-- ==== Sys2Proof/Config.lean ====
section
/-! DEFINITION. The parameters of the core (R5): the fixed ones with their values, and the type of those that a core is
instantiated with, the configuration record `ENC` of the encoding (R85), `JAL_BASE_OFFSET` and `SHAMT_BITS`. Their defaults
stand in Decode.lean. Values that the source does not give: log entries 5 and 10. -/

namespace Sys2Proof

/-- The bit range `[hi:lo]` of an instruction word that holds one field (R9, R72). -/
structure Field where
  hi : Nat
  lo : Nat
deriving DecidableEq, Repr

/-- How many bits a field has. -/
def Field.width (f : Field) : Nat := f.hi + 1 - f.lo

/-- `ENC.opcode` (R85): an opcode value for each of the 16 names. -/
structure Opcodes where
  beq : Nat
  bne : Nat
  blt : Nat
  sw : Nat
  add : Nat
  sub : Nat
  and : Nat
  or : Nat
  addi : Nat
  andi : Nat
  ori : Nat
  sll : Nat
  sra : Nat
  lw : Nat
  jal : Nat
  brk : Nat
deriving DecidableEq, Repr

/-- The value a name has in a table of opcodes. -/
def Opcodes.of (t : Opcodes) : Mnemonic → Nat
  | .beq => t.beq
  | .bne => t.bne
  | .blt => t.blt
  | .sw => t.sw
  | .add => t.add
  | .sub => t.sub
  | .and => t.and
  | .or => t.or
  | .addi => t.addi
  | .andi => t.andi
  | .ori => t.ori
  | .sll => t.sll
  | .sra => t.sra
  | .lw => t.lw
  | .jal => t.jal
  | .brk => t.brk

/-- The configuration record `ENC` (R85): everything of the encoding that is not from the source. -/
structure Enc where
  opc : Field
  rd : Field
  rs1 : Field
  rs2 : Field
  immSHi : Field
  immSLo : Field
  opcodes : Opcodes
deriving DecidableEq, Repr

/-- `ENC.opcode(mnemonic)` (R85). -/
def Enc.opcode (e : Enc) (m : Mnemonic) : Nat := e.opcodes.of m

/-- The parameters a core is instantiated with beside the image and the registers (R5): the spec keeps them open (decisions
D1, D7 and D8; U5, U10, U11). A running core never changes them. -/
structure Params where
  /-- `ENC` (R85). -/
  enc : Enc
  /-- `JAL_BASE_OFFSET` (R173). -/
  jalBaseOffset : Word
  /-- `SHAMT_BITS` (R164, R165). -/
  shamtBits : Nat
deriving DecidableEq, Repr

namespace Config

/-- The contiguous 12-bit immediate field `w[31:20]`, fixed by the source and not in `ENC` (R74, R85). -/
def immIField : Field := ⟨31, 20⟩

/-- The 20-bit immediate field `w[31:12]`, fixed by the source and not in `ENC` (R76, R85). -/
def immJField : Field := ⟨31, 12⟩

/-- `IQ_DEPTH` (R5, R32). -/
def iqDepth : Nat := 4

/-- `FETCH_WIDTH` (R5, R109). -/
def fetchWidth : Nat := 2

/-- `MEM_BASE`, the default of a launch (R5, R50). UNVERIFIED (decision D12), log entry 10. -/
def memBase : Nat := 256

/-- What a word no entry of the memory list names reads as. Every word of an image has a value, so this only says how
its zero words are held. DESIGN CHOICE, log entry 5. -/
def unlistedWord : Word := 0

end Config

/-- No two fields of a list share a bit. -/
def Field.apart (f g : Field) : Bool := f.hi < g.lo || g.hi < f.lo

/-- The fields of a list lie inside the word and do not overlap. -/
def Field.allApart : List Field → Bool
  | [] => true
  | f :: fs => f.lo ≤ f.hi && f.hi ≤ 31 && fs.all f.apart && Field.allApart fs

/-- What R85 asks of any `ENC`: distinct opcode values that fit the opcode field, value 0 assigned (R81), and the fields
of each of the five shapes apart from each other, with 5-bit register fields and a 12-bit split immediate. -/
def Enc.valid (e : Enc) : Bool :=
  (Mnemonic.all.map e.opcode).Nodup
    && Mnemonic.all.all (fun m => e.opcode m < 2 ^ e.opc.width)
    && Mnemonic.all.any (fun m => e.opcode m == 0)
    && e.rd.width == 5 && e.rs1.width == 5 && e.rs2.width == 5
    && e.immSHi.width + e.immSLo.width == 12
    && Field.allApart [e.opc, e.rs1, e.rs2, e.immSHi, e.immSLo]
    && Field.allApart [e.opc, e.rd, e.rs1, e.rs2]
    && Field.allApart [e.opc, e.rd, e.rs1, Config.immIField]
    && Field.allApart [e.opc, e.rd, Config.immJField]

end Sys2Proof
end

