-- ==== Sys2Proof/WellFormed.lean ====
section
/-! DEFINITION. Which decoded instructions an encoding can hold: the ranges of the immediates (R73, R74, R76, R83, R84). -/

namespace Sys2Proof

/-- `imm` is in the 12-bit range of the S and I shapes, -2048 to 2047 (R73, R74). -/
def imm12Ok (imm : Word) : Bool := -2048 ≤ imm.toInt && imm.toInt ≤ 2047

/-- `imm` is in the 20-bit range of the J shape, -524288 to 524287 (R76). -/
def imm20Ok (imm : Word) : Bool := -524288 ≤ imm.toInt && imm.toInt ≤ 524287

/-- The instruction is one `encode` is defined on (R83). Register numbers are in range by their type. -/
def Instr.wellFormed : Instr → Bool
  | .beq _ _ imm => imm12Ok imm
  | .bne _ _ imm => imm12Ok imm
  | .blt _ _ imm => imm12Ok imm
  | .sw _ _ imm => imm12Ok imm
  | .add _ _ _ => true
  | .sub _ _ _ => true
  | .and _ _ _ => true
  | .or _ _ _ => true
  | .addi _ _ imm => imm12Ok imm
  | .andi _ _ imm => imm12Ok imm
  | .ori _ _ imm => imm12Ok imm
  | .sll _ _ imm => imm12Ok imm
  | .sra _ _ imm => imm12Ok imm
  | .lw _ _ imm => imm12Ok imm
  | .jal _ imm => imm20Ok imm
  | .brk => true

end Sys2Proof
end

