-- ==== Sys2Proof/Decode.lean ====
section
/-! DEFINITION. The default parameters with their encoding tables (R5, R71 to R78), the decoder (R70 to R82), total on every 32-bit word and rejecting
by name, and the encoder (R83). -/

namespace Sys2Proof

/-- The 16 opcode numbers of R78. UNVERIFIED (decision D1), log entry 3. -/
def Config.opcodes : Opcodes where
  beq := 0x00
  bne := 0x04
  blt := 0x08
  sw := 0x0C
  add := 0x01
  sub := 0x05
  and := 0x09
  or := 0x0D
  addi := 0x02
  andi := 0x06
  ori := 0x0A
  sll := 0x0E
  sra := 0x12
  lw := 0x16
  jal := 0x03
  brk := 0x7F

/-- The default `ENC` (R71, R72, R73, R78, R85). UNVERIFIED (decisions D1 to D3), log entry 3. -/
def Config.enc : Enc where
  opc := ⟨6, 0⟩
  rd := ⟨11, 7⟩
  rs1 := ⟨19, 15⟩
  rs2 := ⟨24, 20⟩
  immSHi := ⟨31, 25⟩
  immSLo := ⟨11, 7⟩
  opcodes := Config.opcodes

/-- The default `JAL_BASE_OFFSET` (R5, R173). UNVERIFIED (decision D8), log entry 12. -/
def Config.jalBaseOffset : Word := 4

/-- The default `SHAMT_BITS` (R5, R164). UNVERIFIED (decision D7), log entry 13. -/
def Config.shamtBits : Nat := 5

/-- The parameters at their defaults (R5). -/
def Params.default : Params where
  enc := Config.enc
  jalBaseOffset := Config.jalBaseOffset
  shamtBits := Config.shamtBits

/-- Why a word is no instruction (R79). -/
inductive DecodeError
  /-- The opcode field holds none of the 16 opcode values (R79). -/
  | invalidOpcode (opc : Nat)
deriving DecidableEq, Repr

/-- `w[hi:lo]` as an unsigned integer (R9). -/
def bitField (f : Field) (w : Word) : Nat := w.toNat / 2 ^ f.lo % 2 ^ f.width

/-- `sext_n(v)`: the low `n` bits of `v`, bit `n - 1` copied into the bits above (R10). -/
def sext (n v : Nat) : Word := (BitVec.ofNat n v).signExtend 32

/-- A 5-bit register field as a register number (R72, R84). -/
def regField (f : Field) (w : Word) : Reg := Fin.ofNat 32 (bitField f w)

/-- The split immediate of the S shape, `sext_12(hi ++ lo)` (R73). -/
def immS (e : Enc) (w : Word) : Word :=
  sext 12 (bitField e.immSHi w * 2 ^ e.immSLo.width + bitField e.immSLo w)

/-- The immediate of the I shape, `sext_12(w[31:20])` (R74). -/
def immI (w : Word) : Word := sext 12 (bitField Config.immIField w)

/-- The immediate of the J shape, `sext_20(w[31:12])` (R76). -/
def immJ (w : Word) : Word := sext 20 (bitField Config.immJField w)

/-- The variant an opcode value names, if any (R77, R78). -/
def mnemonicOf (e : Enc) (opc : Nat) : Option Mnemonic :=
  Mnemonic.all.find? (fun m => e.opcode m == opc)

/-- The instruction of the variant `m` whose fields stand in `w` (R77). -/
def fieldsOf (e : Enc) (w : Word) (m : Mnemonic) : Instr :=
  let rd := regField e.rd w
  let rs1 := regField e.rs1 w
  let rs2 := regField e.rs2 w
  match m with
  | .beq => .beq rs1 rs2 (immS e w)
  | .bne => .bne rs1 rs2 (immS e w)
  | .blt => .blt rs1 rs2 (immS e w)
  | .sw => .sw rs1 rs2 (immS e w)
  | .add => .add rd rs1 rs2
  | .sub => .sub rd rs1 rs2
  | .and => .and rd rs1 rs2
  | .or => .or rd rs1 rs2
  | .addi => .addi rd rs1 (immI w)
  | .andi => .andi rd rs1 (immI w)
  | .ori => .ori rd rs1 (immI w)
  | .sll => .sll rd rs1 (immI w)
  | .sra => .sra rd rs1 (immI w)
  | .lw => .lw rd rs1 (immI w)
  | .jal => .jal rd (immJ w)
  | .brk => .brk

/-- The decoder for an encoding `e`: it looks at the opcode field and nothing else to accept a word (R77, R79, R80). -/
def decodeWith (e : Enc) (w : Word) : Except DecodeError Instr :=
  match mnemonicOf e (bitField e.opc w) with
  | some m => .ok (fieldsOf e w m)
  | none => .error (.invalidOpcode (bitField e.opc w))

/-- `decode(w)` under the default `ENC` (R77). The core decodes under the record it is instantiated with. -/
def decode (w : Word) : Except DecodeError Instr := decodeWith Config.enc w

/-- `v` placed in the bits `[hi:lo]` of a word whose other bits are zero (R83). -/
def place (f : Field) (v : Nat) : Word := BitVec.ofNat 32 (v % 2 ^ f.width * 2 ^ f.lo)

/-- The S shape (R72, R83): the low 12 bits of `imm` split over two fields. -/
def encodeS (e : Enc) (rs1 rs2 : Reg) (imm : Word) : Word :=
  place e.immSHi (imm.toNat % 2 ^ 12 / 2 ^ e.immSLo.width) ||| place e.rs2 rs2 ||| place e.rs1 rs1
    ||| place e.immSLo imm.toNat

/-- The R shape (R72, R83). -/
def encodeR (e : Enc) (rd rs1 rs2 : Reg) : Word := place e.rs2 rs2 ||| place e.rs1 rs1 ||| place e.rd rd

/-- The I shape (R72, R83). -/
def encodeI (e : Enc) (rd rs1 : Reg) (imm : Word) : Word :=
  place Config.immIField imm.toNat ||| place e.rs1 rs1 ||| place e.rd rd

/-- The operand fields of an instruction, every ignored bit zero (R83). -/
def encodeFields (e : Enc) : Instr → Word
  | .beq rs1 rs2 imm => encodeS e rs1 rs2 imm
  | .bne rs1 rs2 imm => encodeS e rs1 rs2 imm
  | .blt rs1 rs2 imm => encodeS e rs1 rs2 imm
  | .sw rs1 rs2 imm => encodeS e rs1 rs2 imm
  | .add rd rs1 rs2 => encodeR e rd rs1 rs2
  | .sub rd rs1 rs2 => encodeR e rd rs1 rs2
  | .and rd rs1 rs2 => encodeR e rd rs1 rs2
  | .or rd rs1 rs2 => encodeR e rd rs1 rs2
  | .addi rd rs1 imm => encodeI e rd rs1 imm
  | .andi rd rs1 imm => encodeI e rd rs1 imm
  | .ori rd rs1 imm => encodeI e rd rs1 imm
  | .sll rd rs1 imm => encodeI e rd rs1 imm
  | .sra rd rs1 imm => encodeI e rd rs1 imm
  | .lw rd rs1 imm => encodeI e rd rs1 imm
  | .jal rd imm => place Config.immJField imm.toNat ||| place e.rd rd
  | .brk => 0

/-- The encoder for an encoding `e` (R83). -/
def encodeWith (e : Enc) (i : Instr) : Word := encodeFields e i ||| place e.opc (e.opcode i.mnemonic)

/-- `encode(inst)` under the default `ENC` (R83). -/
def encode (i : Instr) : Word := encodeWith Config.enc i

/-- What the decoder reads from the `nbits` low bits of `w`, every bit above them zero: the host's question about a row
of the opcode table. An instruction is one word (R70), so the word is those bits. -/
def decodeTableWord (nbits w : Nat) : Option Instr := (decode (BitVec.ofNat 32 (w % 2 ^ nbits))).toOption

end Sys2Proof
end

