-- ==== Sys2Proof/Machine/Flags.lean ====
section
/-! DEFINITION. The core has no status flags and no condition codes (R29): what other machines take from flags is here the
three comparisons a branch makes directly on two register values (R170 to R172). -/

namespace Sys2Proof.Machine

/-- `cond(Beq, p, q)` (R170). -/
def condEq (p q : Word) : Bool := p == q

/-- `cond(Bne, p, q)` (R171). -/
def condNe (p q : Word) : Bool := p != q

/-- `cond(Blt, p, q)`: signed less-than (R172). -/
def condLt (p q : Word) : Bool := p.toInt < q.toInt

end Sys2Proof.Machine
end

