-- ==== Sys2Proof/Machine/State.lean ====
section
/-! DEFINITION. Everything the core holds, as plain data (R20 to R45), the reasons a step stops (R182 to R184, R126), and
the state after reset (R43, R200). -/

namespace Sys2Proof.Machine

/-- The three functional units (R2, R34). -/
inductive FU
  | addr | add | log
deriving DecidableEq, Repr

/-- The two units that compute in step 6 (R118). -/
inductive Alu
  | add | log
deriving DecidableEq, Repr

/-- The three latches step 4 writes back from (R116). -/
inductive PostLatch
  | mem | add | log
deriving DecidableEq, Repr

/-- One thing for each functional unit (R34, R35). -/
structure PerUnit (α : Type) where
  addr : α
  add : α
  log : α
deriving DecidableEq, Repr

/-- A staging or pre latch entry: the instruction with its captured operands (R33, R104). -/
structure OpEntry where
  inst : Instr
  a : Word
  b : Word
deriving DecidableEq, Repr

/-- The pre-memory latch entry (R33, R36). -/
structure MemEntry where
  inst : Instr
  addr : Word
  val : Word
deriving DecidableEq, Repr

/-- A post latch entry: the instruction and the value for its destination (R33, R37, R38). -/
structure ResEntry where
  inst : Instr
  result : Word
deriving DecidableEq, Repr

/-- The waiting branch with the byte address it was fetched from (R30). -/
structure BranchEntry where
  inst : Instr
  addr : Word
deriving DecidableEq, Repr

/-- The array of 32-bit words (R50, R61), held as the pairs of a word's address and the word, the addresses strictly rising
and no word equal to what an unlisted address reads as. A word has no bytes and no byte order. Log entries 4 and 5. -/
abbrev Memory := List (Nat × Word)

/-- The three addresses of the loaded image, fixed for a run (R5, R50, R52, R53). They are Nats because `limit` may be 2^32. -/
structure MemMap where
  /-- `MEM_BASE`, the address of word 0. -/
  base : Nat
  /-- `DATA_BOUNDARY`, the first data address. -/
  boundary : Nat
  /-- `IMAGE_END`, the first address past the image. -/
  limit : Nat
deriving DecidableEq, Repr

/-- The stage action of the cycle (R100) that an instruction handed to `exec` is at. The model's own cursor: the spec
numbers the steps of a cycle (R12) and holds no such register. DESIGN CHOICE, log entry 6. -/
inductive Stage
  /-- Step 2: the word at `pc` has just been decoded (R110 to R113). -/
  | fetch
  /-- Step 1: the hazard check has let the entry go (R104, R106). -/
  | issue
  /-- Step 3: the waiting branch's operands are stable (R115). -/
  | resolve
  /-- Step 4, for one of the three latches (R116). -/
  | writeback (l : PostLatch)
  /-- Step 5 (R117). -/
  | memory
  /-- Step 6, for one of the two computing units (R118). -/
  | execute (u : Alu)
  /-- Step 7 (R119). -/
  | advance
  /-- Step 9, after the snapshot (R122). -/
  | finish
deriving DecidableEq, Repr

/-- The kind of a data access (R183). -/
inductive Access
  | read | write
deriving DecidableEq, Repr

/-- Why a step stops. The first three are the core's faults; the spec gives them no cause codes (R185). -/
inductive Fault
  /-- Raised by the fetch step: the word at `addr` decodes to nothing (R182). Safe: the spec's own hard stop. -/
  | decodeFault (addr w : Word)
  /-- Raised by the memory stage: misaligned, out of the image, or a store to code (R183). Safe: no value is invented. -/
  | memFault (addr : Word) (kind : Access)
  /-- Raised by the fetch step: `addr` is misaligned or outside the code region (R184). Safe: no value is invented. -/
  | fetchFault (addr : Word)
  /-- Answered by `step` on a halted or faulted core: the spec defines no step there (R126). Safe; log entry 8. -/
  | noStep
  /-- Answered by a meaning at a stage to which the spec gives that instruction no action. Safe: a stuck state, which
  no state that meets the model's invariant reaches; log entry 7. -/
  | misplaced (stage : Stage) (inst : Instr)
deriving DecidableEq, Repr

/-- Why the model declines an instruction. -/
inductive Refusal
  /-- Answered by an arm of `exec` whose instruction has no meaning yet. Safe. No arm of this model answers it. -/
  | notModelled (mnemonic : String)
deriving DecidableEq, Repr

/-- What a meaning or a step answers. -/
abbrev Result (σ : Type) := Host.Outcome σ Fault Refusal

/-- The whole core (R20 to R45). -/
structure State where
  /-- The general registers `x[0]` to `x[31]` (R21). -/
  x : Vector Word 32
  /-- The pending-write scoreboard (R26). -/
  willwrite : RegMask
  /-- The program counter (R28). -/
  pc : Word
  /-- The waiting-branch latch (R30). -/
  wbr : Option BranchEntry
  /-- The fetch-executed slot (R31). -/
  fx : Option Instr
  /-- The issue queue, oldest first (R32). -/
  iq : List Instr
  /-- The staging latches (R34). -/
  stg : PerUnit (Option OpEntry)
  /-- The pre latches (R35). -/
  pre : PerUnit (Option OpEntry)
  /-- The pre-memory latch (R36). -/
  premem : Option MemEntry
  /-- The post-memory latch (R37). -/
  postmem : Option ResEntry
  /-- The post latch of the add/sub unit (R38). -/
  postAdd : Option ResEntry
  /-- The post latch of the logic/shift unit (R38). -/
  postLog : Option ResEntry
  /-- `IMem` and `DMem`, the two parts of the one array (R40, R50). -/
  mem : Memory
  /-- The image's addresses (R50 to R54). -/
  map : MemMap
  /-- The parameters the core is instantiated with, fixed for a run (R5, R85). -/
  par : Params
  /-- The counter of completed cycles (R41). -/
  cycle : Nat
  /-- The end of the run was reached (R42, R122). -/
  halted : Bool
  /-- The reason of the fatal stop, if any (R42). -/
  fault : Option Fault
  /-- The model's own cursor inside a cycle; `fetch` between cycles. -/
  stage : Stage
deriving DecidableEq, Repr

/-- An empty latch for each unit (R34, R43). -/
def noEntries : PerUnit (Option OpEntry) := ⟨none, none, none⟩

/-- The map of an image of no words at `MEM_BASE`: nothing can be fetched, read or written. -/
def MemMap.empty : MemMap := ⟨Config.memBase, Config.memBase, Config.memBase⟩

/-- The machine right after reset with `REG_INIT` all zero and the parameters at their defaults (R5, R43, R200). No image is loaded: the spec's reset takes the
image as an argument, and `State.launch` is reset with one. DESIGN CHOICE for the empty image, log entry 1. -/
def State.reset : State where
  x := Vector.replicate 32 0
  willwrite := 0
  pc := BitVec.ofNat 32 Config.memBase
  wbr := none
  fx := none
  iq := []
  stg := noEntries
  pre := noEntries
  premem := none
  postmem := none
  postAdd := none
  postLog := none
  mem := []
  map := MemMap.empty
  par := Params.default
  cycle := 0
  halted := false
  fault := none
  stage := .fetch

end Sys2Proof.Machine
end

