-- ==== Sys2Proof/Machine/Memory.lean ====
section
/-! DEFINITION. The memory as an array of words: its canonical form, one word read and one written (R50, R59, R61), and the
checks of an access (R56 to R58). The word is the unit of storage: no byte of it can be named, so there is no byte order. -/

namespace Sys2Proof.Machine

/-- Every entry's address lies above `k`, addresses rise strictly, and no entry repeats the unlisted word. -/
def Memory.wfAbove (k : Nat) : Memory → Bool
  | [] => true
  | (a, v) :: m => k ≤ a && v != Config.unlistedWord && Memory.wfAbove (a + 1) m

/-- The canonical form of a memory list. -/
def Memory.wf (m : Memory) : Bool := Memory.wfAbove 0 m

/-- The word at an address (R57, without its check). -/
def Memory.readWord : Memory → Nat → Word
  | [], _ => Config.unlistedWord
  | (k, v) :: m, a => if k = a then v else Memory.readWord m a

/-- An entry for `a`, unless `v` is what an unlisted address reads as. -/
def Memory.consWord (a : Nat) (v : Word) (m : Memory) : Memory :=
  if v = Config.unlistedWord then m else (a, v) :: m

/-- Replace the word at an address, keeping the canonical form (R58, without its check). -/
def Memory.writeWord : Memory → Nat → Word → Memory
  | [], a, v => Memory.consWord a v []
  | (k, w) :: m, a, v =>
    if a < k then Memory.consWord a v ((k, w) :: m)
    else if a = k then Memory.consWord a v m
    else (k, w) :: Memory.writeWord m a v

/-- Put words at consecutive word addresses from `a` on. -/
def Memory.writeWords (m : Memory) (a : Nat) : List Word → Memory
  | [] => m
  | w :: ws => Memory.writeWords (m.writeWord a w) (a + 4) ws

/-- The `n` words from `a` on. -/
def Memory.words (m : Memory) (a : Nat) : Nat → List Word
  | 0 => []
  | n + 1 => m.readWord a :: Memory.words m (a + 4) n

/-- `index(addr)`, the number of the word at a byte address of the image (R51). -/
def MemMap.index (p : MemMap) (addr : Nat) : Nat := (addr - p.base) / 4

/-- `addr` is a multiple of 4 in `lo <= addr < hi` (R50, R56 to R58). -/
def aligned4In (lo hi : Nat) (addr : Word) : Bool :=
  addr.toNat % 4 == 0 && lo ≤ addr.toNat && addr.toNat < hi

/-- `addr` names a code word: what may be fetched (R52, R56). -/
def MemMap.fetchable (p : MemMap) (addr : Word) : Bool := aligned4In p.base p.boundary addr

/-- `addr` names a word of the image: what may be loaded (R52, R57). -/
def MemMap.readable (p : MemMap) (addr : Word) : Bool := aligned4In p.base p.limit addr

/-- `addr` names a data word: what may be stored to (R52, R58). -/
def MemMap.writable (p : MemMap) (addr : Word) : Bool := aligned4In p.boundary p.limit addr

end Sys2Proof.Machine
end

