-- ==== Sys2Proof/Machine/Operands.lean ====
section
/-! DEFINITION. The dispatch tables of R88 and R89, register reads (R22), the operand forms an entry captures (R104), and
the addresses and amounts formed from immediates (R60, R115, R119, R164, R173). -/

namespace Sys2Proof.Machine

/-- `read(id)`, written `x[id]`: 0 for register 0, else the stored value; `willwrite` is not looked at (R22, R25). -/
def State.read (s : State) (r : Reg) : Word := if r = 0 then 0 else s.x[r]

/-- `unit(inst)`: the functional unit of a queued instruction, none for the five of the fetch unit (R88). -/
def unitOf : Instr → Option FU
  | .beq _ _ _ => none
  | .bne _ _ _ => none
  | .blt _ _ _ => none
  | .sw _ _ _ => some .addr
  | .add _ _ _ => some .add
  | .sub _ _ _ => some .add
  | .and _ _ _ => some .log
  | .or _ _ _ => some .log
  | .addi _ _ _ => some .add
  | .andi _ _ _ => some .log
  | .ori _ _ _ => some .log
  | .sll _ _ _ => some .log
  | .sra _ _ _ => some .log
  | .lw _ _ _ => some .addr
  | .jal _ _ => none
  | .brk => none

/-- `src(inst)`: the registers whose values the instruction needs (R89). -/
def srcOf : Instr → List Reg
  | .beq rs1 rs2 _ => [rs1, rs2]
  | .bne rs1 rs2 _ => [rs1, rs2]
  | .blt rs1 rs2 _ => [rs1, rs2]
  | .sw rs1 rs2 _ => [rs1, rs2]
  | .add _ rs1 rs2 => [rs1, rs2]
  | .sub _ rs1 rs2 => [rs1, rs2]
  | .and _ rs1 rs2 => [rs1, rs2]
  | .or _ rs1 rs2 => [rs1, rs2]
  | .addi _ rs1 _ => [rs1]
  | .andi _ rs1 _ => [rs1]
  | .ori _ rs1 _ => [rs1]
  | .sll _ rs1 _ => [rs1]
  | .sra _ rs1 _ => [rs1]
  | .lw _ rs1 _ => [rs1]
  | .jal _ _ => []
  | .brk => []

/-- `dst(inst)`: the register the instruction writes, if any (R89). The one of a `jal` is written by the fetch unit and
never marked pending; a `jal` is never queued or in flight, so it takes no part in a hazard. -/
def dstOf : Instr → Option Reg
  | .beq _ _ _ => none
  | .bne _ _ _ => none
  | .blt _ _ _ => none
  | .sw _ _ _ => none
  | .add rd _ _ => some rd
  | .sub rd _ _ => some rd
  | .and rd _ _ => some rd
  | .or rd _ _ => some rd
  | .addi rd _ _ => some rd
  | .andi rd _ _ => some rd
  | .ori rd _ _ => some rd
  | .sll rd _ _ => some rd
  | .sra rd _ _ => some rd
  | .lw rd _ _ => some rd
  | .jal rd _ => some rd
  | .brk => none

/-- Bit `r` alone, and nothing for register 0 (R11). -/
def regBit (r : Reg) : RegMask := if r = 0 then 0 else BitVec.twoPow 32 r.val

/-- `mask(S)` (R11). -/
def maskOf (rs : List Reg) : RegMask := rs.foldr (fun r m => regBit r ||| m) 0

/-- `S = mask(src(inst))` (R89). -/
def srcMask (i : Instr) : RegMask := maskOf (srcOf i)

/-- `D = mask(dst(inst))` (R89). -/
def dstMask (i : Instr) : RegMask := maskOf (dstOf i).toList

/-- `opB` of the register forms: the second register (R104). -/
def State.regOperand (s : State) (rs2 : Reg) : Word := s.read rs2

/-- `opB` of the immediate forms: the immediate as decoded, already sign-extended (R104). -/
def immOperand (imm : Word) : Word := imm

/-- The effective address, base plus the unscaled displacement modulo 2^32 (R60, R119). -/
def effectiveAddress (base imm : Word) : Word := base + imm

/-- The shift amount, the low `n` = `SHAMT_BITS` bits of the immediate: `imm[4:0]` by default (R164, R165, log entry 13). -/
def shiftAmount (n : Nat) (b : Word) : Nat := b.toNat % 2 ^ n

/-- The address of the next instruction (R28). -/
def nextPc (addr : Word) : Word := addr + 4

/-- A taken branch's target, `addr + 4 + 2*imm` modulo 2^32 (R115). -/
def branchTarget (addr imm : Word) : Word := addr + 4 + 2 * imm

/-- A jump's target for `offset` = `JAL_BASE_OFFSET`: `addr + offset + 2*imm` modulo 2^32 (R173, log entry 12). -/
def jalTarget (offset addr imm : Word) : Word := addr + offset + 2 * imm

end Sys2Proof.Machine
end

