-- ==== Sys2Proof/Machine/Ops.lean ====
section
/-! DEFINITION. The named operations over registers, scoreboard, latches and memory, and the stage actions the meanings of
the 16 instructions share (R22 to R26, R33 to R38, R56 to R58, R104 to R122). -/

namespace Sys2Proof.Machine

/-- Go on with `f` where a next state was answered; a fault or refusal stops the cycle (R8). -/
def andThen {σ τ : Type} (o : Result σ) (f : σ → Result τ) : Result τ :=
  match o with
  | .next s => f s
  | .fault r => .fault r
  | .refused r => .refused r

/-- `raise`: the cycle stops with the reason. There is no trap: nothing is saved, no mode or `pc` changes, and nothing of
the cycle is observable (R11, R180, R188). -/
def raise {σ : Type} (r : Fault) : Result σ := .fault r

/-- The core after a faulting cycle: the last observable state with the reason recorded (R8, R42, R182). -/
def State.recordFault (s : State) (r : Fault) : State := { s with fault := some r }

/-! ### Registers and scoreboard (R22 to R26) -/

/-- `is_pending(id)`: bit `id` of `willwrite` (R26). -/
def State.isPending (s : State) (r : Reg) : Bool := s.willwrite.getLsbD r

/-- `mark_pending(id)`: set the bit, nothing for register 0 (R23). -/
def State.markPending (s : State) (r : Reg) : State := { s with willwrite := s.willwrite ||| regBit r }

/-- `write(id, value)`: store the value and clear the pending bit together, nothing for register 0 (R24, R25). -/
def State.write (s : State) (r : Reg) (v : Word) : State :=
  if r = 0 then s else { s with x := s.x.set r v, willwrite := s.willwrite &&& ~~~regBit r }

/-! ### Latches (R33 to R38) -/

/-- The latch of a unit. -/
def PerUnit.get {α : Type} (p : PerUnit α) : FU → α
  | .addr => p.addr
  | .add => p.add
  | .log => p.log

/-- Replace the latch of a unit. -/
def PerUnit.set {α : Type} (p : PerUnit α) (u : FU) (v : α) : PerUnit α :=
  match u with
  | .addr => { p with addr := v }
  | .add => { p with add := v }
  | .log => { p with log := v }

/-- The functional unit a computing unit is. -/
def Alu.unit : Alu → FU
  | .add => .add
  | .log => .log

/-- The post latch of a computing unit (R118). -/
def Alu.post : Alu → PostLatch
  | .add => .add
  | .log => .log

/-- The contents of a post latch. -/
def State.post (s : State) : PostLatch → Option ResEntry
  | .mem => s.postmem
  | .add => s.postAdd
  | .log => s.postLog

/-- Replace the contents of a post latch. -/
def State.setPost (s : State) (l : PostLatch) (e : Option ResEntry) : State :=
  match l with
  | .mem => { s with postmem := e }
  | .add => { s with postAdd := e }
  | .log => { s with postLog := e }

/-! ### Memory (R56 to R58) -/

/-- `Fetch(addr)` (R56). -/
def State.fetch (s : State) (addr : Word) : Result Word :=
  if s.map.fetchable addr then .next (s.mem.readWord addr.toNat) else raise (.fetchFault addr)

/-- `MemRead(addr, 4)` (R57). -/
def State.memRead (s : State) (addr : Word) : Result Word :=
  if s.map.readable addr then .next (s.mem.readWord addr.toNat) else raise (.memFault addr .read)

/-- `MemWrite(addr, 4, v)` (R58). -/
def State.memWrite (s : State) (addr v : Word) : Result State :=
  if s.map.writable addr then .next { s with mem := s.mem.writeWord addr.toNat v }
  else raise (.memFault addr .write)

/-! ### Stage actions shared by the meanings -/

/-- An instruction at a stage to which the spec gives it no action: stuck (log entry 7). -/
def misplaced (i : Instr) (s : State) : Result State := raise (.misplaced s.stage i)

/-- Step 2, an ordinary instruction: to the queue's tail, `pc` to the next word (R110). -/
def enqueue (i : Instr) (s : State) : Result State :=
  .next { s with iq := s.iq ++ [i], pc := nextPc s.pc }

/-- Step 2, a branch: to the waiting-branch latch with its own address, `pc` to the fall-through (R111). -/
def latchBranch (i : Instr) (s : State) : Result State :=
  .next { s with wbr := some ⟨i, s.pc⟩, pc := nextPc s.pc }

/-- Step 1, issue of an entry that writes `rd`: operands captured, the register marked pending (R104, R106). -/
def issueWriter (u : FU) (i : Instr) (rd : Reg) (a b : Word) (s : State) : Result State :=
  .next ({ s with stg := s.stg.set u (some ⟨i, a, b⟩) }.markPending rd)

/-- Step 1, issue of an entry that writes no register: operands captured, nothing marked (R104, R106). -/
def issueNoWriter (u : FU) (i : Instr) (a b : Word) (s : State) : Result State :=
  .next { s with stg := s.stg.set u (some ⟨i, a, b⟩) }

/-- Step 6: the result goes to the unit's post latch and the pre latch empties (R118). -/
def executeIn (u : Alu) (i : Instr) (alu : Word → Word → Word) (s : State) : Result State :=
  match s.pre.get u.unit with
  | some e => .next ({ s with pre := s.pre.set u.unit none }.setPost u.post (some ⟨i, alu e.a e.b⟩))
  | none => misplaced i s

/-- Step 4: the result goes to `rd`, whose pending bit clears, and the latch empties (R116). -/
def retire (l : PostLatch) (i : Instr) (rd : Reg) (s : State) : Result State :=
  match s.post l with
  | some e => .next ((s.write rd e.result).setPost l none)
  | none => misplaced i s

/-- Step 7: the effective address is formed and the entry moves to the pre-memory latch (R119). -/
def advanceAddress (i : Instr) (imm : Word) (s : State) : Result State :=
  match s.pre.addr with
  | some e =>
    .next { s with premem := some ⟨i, effectiveAddress e.a imm, e.b⟩, pre := s.pre.set .addr none }
  | none => misplaced i s

/-- Step 5 of a load: the word read goes to the post-memory latch and the pre-memory latch empties (R117). -/
def loadStage (i : Instr) (s : State) : Result State :=
  match s.premem with
  | some m => andThen (s.memRead m.addr) fun v => .next { s with postmem := some ⟨i, v⟩, premem := none }
  | none => misplaced i s

/-- Step 5 of a store: memory is written and the pre-memory latch empties; nothing goes to `postmem` (R117). -/
def storeStage (i : Instr) (s : State) : Result State :=
  match s.premem with
  | some m => andThen (s.memWrite m.addr m.val) fun t => .next { t with premem := none }
  | none => misplaced i s

/-- Step 3 of a branch whose operands are stable: compare, redirect `pc` if taken, leave the latch (R115). -/
def resolveBranch (i : Instr) (cond : Word → Word → Bool) (rs1 rs2 : Reg) (imm : Word) (s : State) : Result State :=
  match s.wbr with
  | some b =>
    let taken := cond (s.read rs1) (s.read rs2)
    .next { s with pc := if taken then branchTarget b.addr imm else s.pc, wbr := none, fx := some i }
  | none => misplaced i s

/-- The life of an instruction of a computing unit: what it does at each stage it passes (R104, R106, R110, R116, R118). -/
def runAlu (u : Alu) (i : Instr) (rd : Reg) (a b : Word) (alu : Word → Word → Word) (s : State) : Result State :=
  match s.stage with
  | .fetch => enqueue i s
  | .issue => issueWriter u.unit i rd a b s
  | .execute v => if v = u then executeIn u i alu s else misplaced i s
  | .writeback l => if l = u.post then retire l i rd s else misplaced i s
  | .resolve => misplaced i s
  | .memory => misplaced i s
  | .advance => misplaced i s
  | .finish => misplaced i s

/-- The life of a conditional branch: latched at fetch, compared at resolution (R111, R115). -/
def runBranch (i : Instr) (cond : Word → Word → Bool) (rs1 rs2 : Reg) (imm : Word) (s : State) : Result State :=
  match s.stage with
  | .fetch => latchBranch i s
  | .resolve => resolveBranch i cond rs1 rs2 imm s
  | .issue => misplaced i s
  | .execute _ => misplaced i s
  | .writeback _ => misplaced i s
  | .memory => misplaced i s
  | .advance => misplaced i s
  | .finish => misplaced i s

end Sys2Proof.Machine
end

