-- ==== Sys2Proof/Machine/AddSub.lean ====
section
/-! DEFINITION. The meanings of the add/sub unit's instructions (R150 to R152): results modulo 2^32, no flag, no trap
(decision D6, log entry 25). -/

namespace Sys2Proof.Machine

/-- `add rd, rs1, rs2` (R150). -/
def execAdd (rd rs1 rs2 : Reg) (s : State) : Result State :=
  runAlu .add (.add rd rs1 rs2) rd (s.read rs1) (s.regOperand rs2) (fun a b => a + b) s

/-- `sub rd, rs1, rs2`: `rs1` is the minuend (R151). -/
def execSub (rd rs1 rs2 : Reg) (s : State) : Result State :=
  runAlu .add (.sub rd rs1 rs2) rd (s.read rs1) (s.regOperand rs2) (fun a b => a - b) s

/-- `addi rd, rs1, #imm` (R152). -/
def execAddi (rd rs1 : Reg) (imm : Word) (s : State) : Result State :=
  runAlu .add (.addi rd rs1 imm) rd (s.read rs1) (immOperand imm) (fun a b => a + b) s

end Sys2Proof.Machine
end

