-- ==== Sys2Proof/Machine/AddressUnit.lean ====
section
/-! DEFINITION. The meanings of the address/memory unit's instructions, stage by stage: `sw` (R140) and `lw` (R141). -/

namespace Sys2Proof.Machine

/-- `sw rs2, imm(rs1)` (R140): base and value captured at issue, address formed in step 7, memory written in step 5. It
marks no register and never reaches writeback. -/
def execSw (rs1 rs2 : Reg) (imm : Word) (s : State) : Result State :=
  let i := Instr.sw rs1 rs2 imm
  match s.stage with
  | .fetch => enqueue i s
  | .issue => issueNoWriter .addr i (s.read rs1) (s.regOperand rs2) s
  | .advance => advanceAddress i imm s
  | .memory => storeStage i s
  | .resolve => misplaced i s
  | .execute _ => misplaced i s
  | .writeback _ => misplaced i s
  | .finish => misplaced i s

/-- `lw rd, imm(rs1)` (R141): base captured and `rd` marked at issue, address formed in step 7, memory read in step 5, `rd`
written in step 4. -/
def execLw (rd rs1 : Reg) (imm : Word) (s : State) : Result State :=
  let i := Instr.lw rd rs1 imm
  match s.stage with
  | .fetch => enqueue i s
  | .issue => issueWriter .addr i rd (s.read rs1) (immOperand imm) s
  | .advance => advanceAddress i imm s
  | .memory => loadStage i s
  | .writeback l => if l = .mem then retire l i rd s else misplaced i s
  | .resolve => misplaced i s
  | .execute _ => misplaced i s
  | .finish => misplaced i s

end Sys2Proof.Machine
end

