-- ==== Sys2Proof/Machine/FetchUnit.lean ====
section
/-! DEFINITION. The meanings of the fetch unit's instructions (R170 to R174). They never enter the issue queue. -/

namespace Sys2Proof.Machine

/-- `beq rs1, rs2, #imm` (R170). -/
def execBeq (rs1 rs2 : Reg) (imm : Word) (s : State) : Result State :=
  runBranch (.beq rs1 rs2 imm) condEq rs1 rs2 imm s

/-- `bne rs1, rs2, #imm` (R171). -/
def execBne (rs1 rs2 : Reg) (imm : Word) (s : State) : Result State :=
  runBranch (.bne rs1 rs2 imm) condNe rs1 rs2 imm s

/-- `blt rs1, rs2, #imm`, signed (R172). -/
def execBlt (rs1 rs2 : Reg) (imm : Word) (s : State) : Result State :=
  runBranch (.blt rs1 rs2 imm) condLt rs1 rs2 imm s

/-- `jal rd, #imm` (R112, R173): link, jump and fetch-executed slot all in step 2, with no hazard check; the link goes
through `write`, so a pending bit of `rd` clears (decision D9, log entry 19). -/
def execJal (rd : Reg) (imm : Word) (s : State) : Result State :=
  let i := Instr.jal rd imm
  match s.stage with
  | .fetch => .next { s.write rd (nextPc s.pc) with pc := jalTarget s.par.jalBaseOffset s.pc imm, fx := some i }
  | .issue => misplaced i s
  | .resolve => misplaced i s
  | .execute _ => misplaced i s
  | .writeback _ => misplaced i s
  | .memory => misplaced i s
  | .advance => misplaced i s
  | .finish => misplaced i s

/-- `break` (R113, R122, R174): recorded at fetch with `pc` unchanged; the run ends after the cycle's snapshot. -/
def execBrk (s : State) : Result State :=
  match s.stage with
  | .fetch => .next { s with fx := some .brk }
  | .finish => .next { s with halted := true }
  | .issue => misplaced .brk s
  | .resolve => misplaced .brk s
  | .execute _ => misplaced .brk s
  | .writeback _ => misplaced .brk s
  | .memory => misplaced .brk s
  | .advance => misplaced .brk s

end Sys2Proof.Machine
end

