-- ==== Sys2Proof/Machine/LogicShift.lean ====
section
/-! DEFINITION. The meanings of the logic/shift unit's instructions (R160 to R165). -/

namespace Sys2Proof.Machine

/-- `and rd, rs1, rs2` (R160). -/
def execAnd (rd rs1 rs2 : Reg) (s : State) : Result State :=
  runAlu .log (.and rd rs1 rs2) rd (s.read rs1) (s.regOperand rs2) (fun a b => a &&& b) s

/-- `or rd, rs1, rs2` (R161). -/
def execOr (rd rs1 rs2 : Reg) (s : State) : Result State :=
  runAlu .log (.or rd rs1 rs2) rd (s.read rs1) (s.regOperand rs2) (fun a b => a ||| b) s

/-- `andi rd, rs1, #imm`: the immediate is sign-extended, not zero-extended (R162). -/
def execAndi (rd rs1 : Reg) (imm : Word) (s : State) : Result State :=
  runAlu .log (.andi rd rs1 imm) rd (s.read rs1) (immOperand imm) (fun a b => a &&& b) s

/-- `ori rd, rs1, #imm`: the immediate is sign-extended (R163). -/
def execOri (rd rs1 : Reg) (imm : Word) (s : State) : Result State :=
  runAlu .log (.ori rd rs1 imm) rd (s.read rs1) (immOperand imm) (fun a b => a ||| b) s

/-- `sll rd, rs1, #imm`: zeros enter at bit 0, by the low `SHAMT_BITS` bits of the immediate (R164). -/
def execSll (rd rs1 : Reg) (imm : Word) (s : State) : Result State :=
  runAlu .log (.sll rd rs1 imm) rd (s.read rs1) (immOperand imm) (fun a b => a <<< shiftAmount s.par.shamtBits b) s

/-- `sra rd, rs1, #imm`: copies of bit 31 enter at the top (R165). -/
def execSra (rd rs1 : Reg) (imm : Word) (s : State) : Result State :=
  runAlu .log (.sra rd rs1 imm) rd (s.read rs1) (immOperand imm) (fun a b => a.sshiftRight (shiftAmount s.par.shamtBits b)) s

end Sys2Proof.Machine
end

