-- ==== Sys2Proof/Machine/Engine.lean ====
section
/-! DEFINITION. The pipeline engine: the steps of one cycle in the order of R100, each handing the instructions it finds to
`exec` at the stage they stand at. -/

namespace Sys2Proof.Machine

/-- Hand an instruction to its meaning with the cursor at a stage. -/
def serve (p : Stage) (i : Instr) (s : State) : Result State := exec i { s with stage := p }

/-! ### Step 0 (R101) -/

/-- Housekeeping: a new cycle number, no fetch-executed instruction yet (R101). -/
def housekeeping (s : State) : State := { s with cycle := s.cycle + 1, fx := none }

/-! ### Step 1: issue (R102 to R107) -/

/-- The temporaries of one scan (R102). -/
structure Scan where
  /-- Destinations of the entries blocked so far. -/
  blkW : RegMask
  /-- Sources of the entries blocked so far. -/
  blkR : RegMask
  /-- Whether an entry of each unit has been blocked. -/
  held : PerUnit Bool
  /-- The blocked entries in order. -/
  keep : List Instr
deriving DecidableEq, Repr

/-- The temporaries at the start of every scan (R102). -/
def Scan.start : Scan := ⟨0, 0, ⟨false, false, false⟩, []⟩

/-- (a) The unit's staging latch is taken (R103). -/
def unitBusy (s : State) (u : FU) : Bool := (s.stg.get u).isSome

/-- (b) An earlier entry of the same unit is still unissued (R103). -/
def classHeld (sc : Scan) (u : FU) : Bool := sc.held.get u

/-- Two register sets meet. -/
def meets (m n : RegMask) : Bool := m &&& n != 0

/-- (c) A source is awaited from an entry in flight or blocked (R103). -/
def readAfterWrite (sc : Scan) (s : State) (i : Instr) : Bool := meets (srcMask i) (s.willwrite ||| sc.blkW)

/-- (d) The destination is awaited from an entry in flight or blocked (R103). -/
def writeAfterWrite (sc : Scan) (s : State) (i : Instr) : Bool := meets (dstMask i) (s.willwrite ||| sc.blkW)

/-- (e) A blocked entry has yet to read the destination (R103). -/
def writeAfterRead (sc : Scan) (i : Instr) : Bool := meets (dstMask i) sc.blkR

/-- `blocked(e, U, S, D)`: at least one of (a) to (e) (R103). -/
def blocked (sc : Scan) (s : State) (i : Instr) : Bool :=
  (match unitOf i with
    | some u => unitBusy s u || classHeld sc u
    | none => false)
    || readAfterWrite sc s i || writeAfterWrite sc s i || writeAfterRead sc i

/-- The temporaries after an entry was blocked (R102). -/
def Scan.block (sc : Scan) (i : Instr) : Scan where
  blkW := sc.blkW ||| dstMask i
  blkR := sc.blkR ||| srcMask i
  held := match unitOf i with
    | some u => sc.held.set u true
    | none => sc.held
  keep := sc.keep ++ [i]

/-- The scan over the queue's entries, oldest first; what it blocked is the new queue (R102, R105). -/
def issueScan (sc : Scan) (s : State) : List Instr → Result State
  | [] => .next { s with iq := sc.keep }
  | i :: rest =>
    if blocked sc s i then issueScan (sc.block i) s rest
    else andThen (serve .issue i s) fun t => issueScan sc t rest

/-- Step 1 (R102). -/
def issue (s : State) : Result State := issueScan Scan.start s s.iq

/-! ### Step 2: fetch and decode (R108 to R114) -/

/-- An instruction that takes a queue slot rather than ending the cycle's fetching (R88, R109). -/
def isQueued (i : Instr) : Bool := (unitOf i).isSome

/-- The queue has no free slot (R109). -/
def queueFull (s : State) : Bool := Config.iqDepth ≤ s.iq.length

/-- Fetch and decode the word at `pc` under the core's `ENC` (R85); a word that is no instruction is fatal (R109, R114). -/
def fetchDecoded (s : State) : Result Instr :=
  andThen (s.fetch s.pc) fun w =>
    match decodeWith s.par.enc w with
    | .ok i => .next i
    | .error _ => raise (.decodeFault s.pc w)

/-- At most `n` more fetch slots of this cycle (R109). -/
def fetchSlots : Nat → State → Result State
  | 0, s => .next s
  | n + 1, s =>
    if queueFull s then .next s
    else
      andThen (fetchDecoded s) fun i =>
        andThen (serve .fetch i s) fun t => if isQueued i then fetchSlots n t else .next t

/-- Step 2: nothing while a branch waits (R108, R109). -/
def fetchDecode (s : State) : Result State :=
  if s.wbr.isSome then .next s else fetchSlots Config.fetchWidth s

/-! ### Step 3: branch resolution (R115) -/

/-- `qd`: the registers that queued entries will write (R115). -/
def queuedWrites (iq : List Instr) : RegMask := iq.foldr (fun i m => dstMask i ||| m) 0

/-- Neither source is pending or awaited from the queue (R115). -/
def branchReady (s : State) (i : Instr) : Bool := !meets (srcMask i) (s.willwrite ||| queuedWrites s.iq)

/-- Step 3 (R115). -/
def branchStage (s : State) : Result State :=
  match s.wbr with
  | some b => if branchReady s b.inst then serve .resolve b.inst s else .next s
  | none => .next s

/-! ### Steps 4 to 8 (R116 to R120) -/

/-- Step 4 for one latch (R116). -/
def writebackLatch (l : PostLatch) (s : State) : Result State :=
  match s.post l with
  | some e => serve (.writeback l) e.inst s
  | none => .next s

/-- Step 4: `postmem`, `post[ADD]`, `post[LOG]` in this order (R116). -/
def writeback (s : State) : Result State :=
  andThen (writebackLatch .mem s) fun t => andThen (writebackLatch .add t) (writebackLatch .log)

/-- Step 5 (R117). -/
def memoryStage (s : State) : Result State :=
  match s.premem with
  | some m => serve .memory m.inst s
  | none => .next s

/-- Step 6 for one unit (R118). -/
def executeUnit (u : Alu) (s : State) : Result State :=
  match s.pre.get u.unit with
  | some e => serve (.execute u) e.inst s
  | none => .next s

/-- Step 6: the logic/shift unit, then the add/sub unit (R118). -/
def execute (s : State) : Result State := andThen (executeUnit .log s) (executeUnit .add)

/-- Step 7 (R119). -/
def addressAdvance (s : State) : Result State :=
  match s.pre.addr with
  | some e => serve .advance e.inst s
  | none => .next s

/-- Step 8: every staging latch becomes the pre latch and empties (R120). -/
def rotate (s : State) : State := { s with pre := s.stg, stg := noEntries }

/-- Step 9 after the snapshot: the run ends if the fetch-executed slot holds `break` (R122). The cursor goes back to its
resting place. -/
def terminationTest (s : State) : Result State :=
  andThen (if s.fx = some .brk then serve .finish .brk s else .next s) fun t => .next { t with stage := .fetch }

/-- Steps 3 to 9. -/
def backEnd (s : State) : Result State :=
  andThen (branchStage s) fun s3 =>
  andThen (writeback s3) fun s4 =>
  andThen (memoryStage s4) fun s5 =>
  andThen (execute s5) fun s6 =>
  andThen (addressAdvance s6) fun s7 => terminationTest (rotate s7)

/-- The run is over: no step is defined (R7, R126). -/
def ended (s : State) : Bool := s.halted || s.fault.isSome

/-- One cycle (R100). -/
def cycleStep (s : State) : Result State :=
  if ended s then raise .noStep
  else andThen (issue (housekeeping s)) fun s1 => andThen (fetchDecode s1) backEnd

end Sys2Proof.Machine
end

