-- ==== Sys2Proof/Machine/Loader.lean ====
section
/-! DEFINITION. The program image and its contract (R53, R54, R202), the loader's text format (R55), and reset with an
image and preloaded registers (R7, R43, R200). -/

namespace Sys2Proof.Machine

/-- The word's opcode field is that of `break` under `ENC`; nothing else is looked at (R53, R80, R85). -/
def isBreakWord (e : Enc) (w : Word) : Bool := bitField e.opc w == e.opcode .brk

/-- How many words the code region has: up to and with the first `break` word (R53). None where there is no such word. -/
def codeLength (e : Enc) : List Word → Option Nat
  | [] => none
  | w :: ws => if isBreakWord e w then some 1 else (codeLength e ws).map (· + 1)

/-- A loaded image: the words in order from the base address (R54). -/
structure Image where
  base : Nat
  words : List Word
deriving DecidableEq, Repr

/-- `IMAGE_END` (R5, R50). -/
def Image.limit (im : Image) : Nat := im.base + 4 * im.words.length

/-- `DATA_BOUNDARY`, where the image has a `break` word (R53). -/
def Image.boundary (im : Image) (e : Enc) : Option Nat := (codeLength e im.words).map fun n => im.base + 4 * n

/-- What the core may rely on: a `break` word, an aligned base (R54, R202), and addresses of 32 bits (log entry 20). -/
def Image.valid (im : Image) (e : Enc) : Bool := (im.boundary e).isSome && im.base % 4 == 0 && im.limit ≤ 2 ^ 32

/-- The significant characters of the program text: `0` and `1`, every other one ignored (R55). -/
def textBits (cs : List Char) : List Bool :=
  cs.filterMap fun c => if c = '0' then some false else if c = '1' then some true else none

/-- Add one bit at the low end. -/
def shiftIn (w : Word) (b : Bool) : Word := (w <<< 1) ||| (if b then 1 else 0)

/-- Group bits into words, most significant bit first; none where the count is no multiple of 32 (R55). `count` counts the
bits of `acc`. -/
def groupBits (count : Nat) (acc : Word) : List Bool → Option (List Word)
  | [] => if count = 0 then some [] else none
  | b :: bs =>
    if count = 31 then (groupBits 0 0 bs).map (shiftIn acc b :: ·) else groupBits (count + 1) (shiftIn acc b) bs

/-- `load`: the image a program text stands for at a base, by default `Config.memBase`; none where the loader fails
(R5, R54, R55). -/
def load (e : Enc) (base : Nat) (text : List Char) : Option Image :=
  match groupBits 0 0 (textBits text) with
  | some ws => if (codeLength e ws).isSome then some ⟨base, ws⟩ else none
  | none => none

/-- The map an image gives; an image without a `break` word, which the loader refuses, has no code (R53, R54). -/
def Image.map (im : Image) (e : Enc) : MemMap := ⟨im.base, (im.boundary e).getD im.base, im.limit⟩

/-- `reset(image, REG_INIT)` of a core with these parameters: every piece of state at its value of R43 (R5, R7, R200).
`REG_INIT[0]` is ignored (D29). -/
def State.launch (par : Params) (im : Image) (regInit : Vector Word 32) : State :=
  { State.reset with
    x := regInit.set 0 0
    pc := BitVec.ofNat 32 im.base
    mem := Memory.writeWords [] im.base im.words
    map := im.map par.enc
    par := par }

/-- The words placed for a single instruction: the instruction, `beq x0, x0, #0` for the second fetch slot of the cycle,
and a `break` to make the image one a loader accepts (R53, R54, R81). Log entry 2. -/
def fetchWords (e : Enc) (w : Word) : List Word := [w, encodeWith e (.beq 0 0 0), encodeWith e .brk]

/-- `s` with an instruction where the next step fetches, and what that fetch needs: no waiting branch, no queued
instruction, a run that is not over, and `pc` in the code region (R56, R108, R109, R126). Log entry 2. -/
def State.placeAtPc (s : State) (w : Word) : State :=
  let a := s.pc.toNat
  let im : Image := ⟨a, fetchWords s.par.enc w⟩
  { s with
    mem := s.mem.writeWords a im.words
    map := ⟨min s.map.base a, (im.boundary s.par.enc).getD im.limit, max s.map.limit im.limit⟩
    wbr := none
    iq := []
    halted := false
    fault := none }

end Sys2Proof.Machine
end

