-- ==== Sys2Proof/Machine/Step.lean ====
section
/-! DEFINITION. One step of the machine is one cycle (R6, R100), and the state the host asks for one instruction with. -/

namespace Sys2Proof.Machine

/-- One cycle: the next state, or the reason there is none (R8, R100). -/
def step (s : State) : Host.Outcome State Fault Refusal := cycleStep s

/-- `s` with the instruction of the `nbits` low bits of `w`, the bits above zero, stored where `step` fetches next. -/
def State.withFetchWord (s : State) (nbits w : Nat) : State := s.placeAtPc (BitVec.ofNat 32 (w % 2 ^ nbits))

end Sys2Proof.Machine
end

