-- ==== Sys2Proof/Machine/Snapshot.lean ====
section
/-! DEFINITION. The per-cycle snapshot, the core's only output (R2, R44, R121): its content and order. The characters of the
trace are not in the spec (N14, D34), so there are none here. -/

namespace Sys2Proof.Machine

/-- The record of R121, in the order the trace prints it. -/
structure Snapshot where
  cycle : Nat
  /-- The IF unit's pair: the waiting branch and the fetch-executed instruction. -/
  waiting : Option Instr
  fetchExecuted : Option Instr
  queue : List (Option Instr)
  preAddr : Option Instr
  premem : Option Instr
  postmem : Option Instr
  preAdd : Option Instr
  postAdd : Option Instr
  preLog : Option Instr
  postLog : Option Instr
  /-- The registers as signed values (R10, R121). -/
  regs : List Int
  /-- The data region's words as signed values, from the data boundary on. -/
  data : List Int
deriving DecidableEq, Repr

/-- The four queue slots, the empty ones shown as empty (R32, R121). -/
def queueSlots (iq : List Instr) : List (Option Instr) :=
  (List.range Config.iqDepth).map fun k => iq[k]?

/-- The words of the data region (R40, R52). -/
def State.dataWords (s : State) : List Word :=
  s.mem.words s.map.boundary ((s.map.limit - s.map.boundary) / 4)

/-- The snapshot of a completed cycle (R44, R121). -/
def State.snapshot (s : State) : Snapshot where
  cycle := s.cycle
  waiting := s.wbr.map (·.inst)
  fetchExecuted := s.fx
  queue := queueSlots s.iq
  preAddr := s.pre.addr.map (·.inst)
  premem := s.premem.map (·.inst)
  postmem := s.postmem.map (·.inst)
  preAdd := s.pre.add.map (·.inst)
  postAdd := s.postAdd.map (·.inst)
  preLog := s.pre.log.map (·.inst)
  postLog := s.postLog.map (·.inst)
  regs := (List.finRange 32).map fun r => (s.read r).toInt
  data := s.dataWords.map (·.toInt)

/-- Rows of eight, as the register and data dumps group their numbers (R121). -/
def rowsOfEight : List Int → List (List Int)
  | a :: b :: c :: d :: e :: f :: g :: h :: rest => [a, b, c, d, e, f, g, h] :: rowsOfEight rest
  | [] => []
  | short => [short]

/-- The snapshot's registers "in 8-per-row groups" (R121). -/
def Snapshot.regRows (p : Snapshot) : List (List Int) := rowsOfEight p.regs

/-- The snapshot's data words "in 8-word-per-row groups" (R121). -/
def Snapshot.dataRows (p : Snapshot) : List (List Int) := rowsOfEight p.data

end Sys2Proof.Machine
end

