-- ==== Sys2Proof/Machine/Interface.lean ====
section
/-! DEFINITION. The block's abstract interface (R7): reset, advance, and the outputs a driver reads. -/

namespace Sys2Proof.Machine

/-- What one `advance` shows the driver (R7, R8). -/
inductive Output
  /-- A completed cycle, with its snapshot and whether the run has ended. -/
  | cycle (snapshot : Snapshot) (halted : Bool)
  /-- The cycle could not complete; nothing of it is observable. -/
  | fault (r : Fault)
  /-- The run was over, or an instruction has no meaning: nothing happens (R126). -/
  | nothing
deriving DecidableEq, Repr

/-- `advance` (R7): one cycle. A fault leaves the last observable state with the reason recorded (R8, R42); a core whose
run is over stays as it is (R126). -/
def advance (s : State) : State × Output :=
  match step s with
  | .next t => (t, .cycle t.snapshot t.halted)
  | .fault .noStep => (s, .nothing)
  | .fault r => (s.recordFault r, .fault r)
  | .refused _ => (s, .nothing)

/-- The driver's loop: at most `n` cycles (R6, R126). -/
def drive : Nat → State → State × List Output
  | 0, s => (s, [])
  | n + 1, s =>
    let (t, o) := advance s
    let (u, os) := drive n t
    (u, o :: os)

end Sys2Proof.Machine
end

