-- ==== Sys2Proof/Machine/Sequential.lean ====
section
/-! DEFINITION. The sequential meaning of an instruction: the `Operation` line of its rule, complete before the next begins
(R128). The machine does not use it; it is what R128 defines as the reference, and the statements compare the pipeline's
stages with it. The spec makes no claim that a run of the core ends in the sequential state (R128, R206, R207; log entry 23). -/

namespace Sys2Proof.Machine

/-- A register result: write it and go to the next word. -/
def seqWrite (rd : Reg) (v : Word) (s : State) : Result State := .next { s.write rd v with pc := nextPc s.pc }

/-- A conditional transfer. -/
def seqBranch (taken : Bool) (imm : Word) (s : State) : Result State :=
  .next { s with pc := if taken then branchTarget s.pc imm else nextPc s.pc }

/-- The `Operation` line of each instruction (R140, R141, R150 to R152, R160 to R165, R170 to R174). -/
def operation (i : Instr) (s : State) : Result State :=
  match i with
  | .beq rs1 rs2 imm => seqBranch (condEq (s.read rs1) (s.read rs2)) imm s
  | .bne rs1 rs2 imm => seqBranch (condNe (s.read rs1) (s.read rs2)) imm s
  | .blt rs1 rs2 imm => seqBranch (condLt (s.read rs1) (s.read rs2)) imm s
  | .sw rs1 rs2 imm =>
    andThen (s.memWrite (effectiveAddress (s.read rs1) imm) (s.read rs2)) fun t => .next { t with pc := nextPc s.pc }
  | .add rd rs1 rs2 => seqWrite rd (s.read rs1 + s.read rs2) s
  | .sub rd rs1 rs2 => seqWrite rd (s.read rs1 - s.read rs2) s
  | .and rd rs1 rs2 => seqWrite rd (s.read rs1 &&& s.read rs2) s
  | .or rd rs1 rs2 => seqWrite rd (s.read rs1 ||| s.read rs2) s
  | .addi rd rs1 imm => seqWrite rd (s.read rs1 + imm) s
  | .andi rd rs1 imm => seqWrite rd (s.read rs1 &&& imm) s
  | .ori rd rs1 imm => seqWrite rd (s.read rs1 ||| imm) s
  | .sll rd rs1 imm => seqWrite rd (s.read rs1 <<< shiftAmount s.par.shamtBits imm) s
  | .sra rd rs1 imm => seqWrite rd ((s.read rs1).sshiftRight (shiftAmount s.par.shamtBits imm)) s
  | .lw rd rs1 imm => andThen (s.memRead (effectiveAddress (s.read rs1) imm)) fun v => seqWrite rd v s
  | .jal rd imm =>
    .next { s.write rd (nextPc s.pc) with pc := jalTarget s.par.jalBaseOffset s.pc imm, fx := some i }
  | .brk => .next { s with fx := some i, halted := true }

/-- One step of the sequential reading of a program: fetch, decode and the whole operation (R128). -/
def seqStep (s : State) : Result State :=
  if s.halted || s.fault.isSome then raise .noStep
  else
    andThen (s.fetch s.pc) fun w =>
      match decodeWith s.par.enc w with
      | .ok i => operation i s
      | .error _ => raise (.decodeFault s.pc w)

end Sys2Proof.Machine
end

