-- ==== Sys2Proof/Safety.lean ====
section
/-! DEFINITION. The terms the statements use: which states are legal, what is in flight, the scoreboard's meaning, the
program contract, and an instruction's path through the core. -/

namespace Sys2Proof.Machine

/-! ### Kinds of instruction -/

/-- A conditional branch, the only thing the waiting-branch latch holds (R30). -/
def isBranch : Instr → Bool
  | .beq _ _ _ => true
  | .bne _ _ _ => true
  | .blt _ _ _ => true
  | .sw _ _ _ => false
  | .add _ _ _ => false
  | .sub _ _ _ => false
  | .and _ _ _ => false
  | .or _ _ _ => false
  | .addi _ _ _ => false
  | .andi _ _ _ => false
  | .ori _ _ _ => false
  | .sll _ _ _ => false
  | .sra _ _ _ => false
  | .lw _ _ _ => false
  | .jal _ _ => false
  | .brk => false

/-- A load, the only thing the post-memory latch holds (R37). -/
def isLoad (i : Instr) : Bool := unitOf i == some .addr && (dstOf i).isSome

/-- The latch an instruction is written back from, if it is (R37, R38, R116). -/
def latchOf (i : Instr) : Option PostLatch :=
  match unitOf i with
  | some .addr => if isLoad i then some .mem else none
  | some .add => some .add
  | some .log => some .log
  | none => none

/-! ### What is held where -/

/-- The instructions issued and not yet written back (`stg`, `pre`, `premem`, `postmem`, `post`; R27). -/
def State.inFlight (s : State) : List Instr :=
  [s.stg.addr, s.stg.add, s.stg.log, s.pre.addr, s.pre.add, s.pre.log].filterMap (·.map (·.inst))
    ++ (s.premem.map (·.inst)).toList
    ++ [s.postmem, s.postAdd, s.postLog].filterMap (·.map (·.inst))

/-- Every decoded instruction the state holds (R20). -/
def State.held (s : State) : List Instr :=
  s.iq ++ s.inFlight ++ (s.wbr.map (·.inst)).toList ++ s.fx.toList

/-- The instructions in the pre latches (R35): after a cycle, those that it issued (R120). -/
def State.preInsts (s : State) : List Instr := [s.pre.addr, s.pre.add, s.pre.log].filterMap (·.map (·.inst))

/-- The third list is the first two shuffled together, each in its own order. -/
inductive Interleaves : List Instr → List Instr → List Instr → Prop
  | nil : Interleaves [] [] []
  | left {i : Instr} {as bs cs : List Instr} : Interleaves as bs cs → Interleaves (i :: as) bs (i :: cs)
  | right {i : Instr} {as bs cs : List Instr} : Interleaves as bs cs → Interleaves as (i :: bs) (i :: cs)

/-- How many instructions in flight will write `r` (R27). -/
def State.writersInFlight (s : State) (r : Reg) : Nat := s.inFlight.countP fun i => dstOf i == some r

/-- R27: a register's bit is set exactly if exactly one instruction in flight will write it. -/
def ScoreboardExact (s : State) : Prop := ∀ r : Reg, r ≠ 0 → s.writersInFlight r = if s.isPending r then 1 else 0

/-- An instruction that is unissued or in flight reads or writes `r` (R207). -/
def State.names (s : State) (r : Reg) : Prop :=
  ∃ i ∈ s.iq ++ s.inFlight, r ∈ srcOf i ∨ dstOf i = some r

/-- The image's addresses are in order, aligned, within 32 bits (R50 to R54). -/
structure MemMap.Legal (p : MemMap) : Prop where
  baseAligned : p.base % 4 = 0
  boundaryAligned : p.boundary % 4 = 0
  limitAligned : p.limit % 4 = 0
  baseLe : p.base ≤ p.boundary
  boundaryLe : p.boundary ≤ p.limit
  limitLe : p.limit ≤ 2 ^ 32

/-- `a` is the address of a code word (R52, R56). -/
def MemMap.CodeAddress (p : MemMap) (a : Word) : Prop := a.toNat % 4 = 0 ∧ p.base ≤ a.toNat ∧ a.toNat < p.boundary

/-- `m` is a load of a word of the image or a store to a data word (R57, R58). -/
def MemMap.InRange (p : MemMap) (m : MemEntry) : Prop :=
  m.addr.toNat % 4 = 0 ∧ (if isLoad m.inst then p.base else p.boundary) ≤ m.addr.toNat ∧ m.addr.toNat < p.limit

/-- The cycle faults with this reason, and `advance` leaves the state as it was with the reason recorded (R8, R182). -/
def StopsWith (s : State) (r : Fault) : Prop :=
  step s = .fault r ∧ advance s = ({ s with fault := some r }, .fault r)

/-- Where `pc` is after a branch at `addr` that found it at `fall` and compared registers of `s` (R115, R170 to R172). -/
def branchPc (s : State) (addr fall : Word) : Instr → Word
  | .beq rs1 rs2 imm => if s.read rs1 = s.read rs2 then addr + 4 + 2 * imm else fall
  | .bne rs1 rs2 imm => if s.read rs1 ≠ s.read rs2 then addr + 4 + 2 * imm else fall
  | .blt rs1 rs2 imm => if (s.read rs1).toInt < (s.read rs2).toInt then addr + 4 + 2 * imm else fall
  | .sw _ _ _ => fall
  | .add _ _ _ => fall
  | .sub _ _ _ => fall
  | .and _ _ _ => fall
  | .or _ _ _ => fall
  | .addi _ _ _ => fall
  | .andi _ _ _ => fall
  | .ori _ _ _ => fall
  | .sll _ _ _ => fall
  | .sra _ _ _ => fall
  | .lw _ _ _ => fall
  | .jal _ _ => fall
  | .brk => fall

/-- The legal states between cycles: what every run from an image keeps. -/
structure Inv (s : State) : Prop where
  /-- A faulted core makes no step (R126). -/
  noFault : s.fault = none
  /-- The run has ended exactly if the fetch-executed slot holds `break` (R122). -/
  haltedIff : s.halted = true ↔ s.fx = some .brk
  /-- The cursor rests at the fetch stage between cycles (log entry 6). -/
  resting : s.stage = .fetch
  /-- Staging latches are empty at the end of every cycle (R34). -/
  stagingEmpty : s.stg = noEntries
  /-- The queue has at most four entries (R32). -/
  queueShort : s.iq.length ≤ Config.iqDepth
  /-- Only instructions of a functional unit are queued (R32). -/
  queueKinds : ∀ i ∈ s.iq, isQueued i = true
  /-- Only branches wait (R30). -/
  waitingKind : ∀ b, s.wbr = some b → isBranch b.inst = true
  /-- While a branch waits `pc` holds its fall-through address (R111). -/
  waitingFallThrough : ∀ b, s.wbr = some b → s.pc = nextPc b.addr
  /-- Only the fetch unit's instructions are fetch-executed (R31). -/
  fetchExecutedKind : ∀ i, s.fx = some i → isQueued i = false
  /-- A pre latch holds an instruction of its unit (R35, R88). -/
  preKinds : ∀ u e, s.pre.get u = some e → unitOf e.inst = some u
  /-- The pre-memory latch holds a load or a store (R36). -/
  prememKind : ∀ m, s.premem = some m → unitOf m.inst = some .addr
  /-- The post-memory latch holds a load (R37). -/
  postmemKind : ∀ e, s.postmem = some e → isLoad e.inst = true
  /-- The post latch of the add/sub unit holds one of its instructions (R38, R88). -/
  postAddKind : ∀ e, s.postAdd = some e → unitOf e.inst = some .add
  /-- The post latch of the logic/shift unit holds one of its instructions (R38, R88). -/
  postLogKind : ∀ e, s.postLog = some e → unitOf e.inst = some .log
  /-- Every held instruction has the immediates a decoder gives (R84). -/
  heldWellFormed : ∀ i ∈ s.held, i.wellFormed = true
  /-- Register 0 holds 0 (R25). -/
  zeroRegister : s.x[0] = 0
  /-- Register 0 is never pending (R25). -/
  zeroBit : s.isPending 0 = false
  /-- A pending register has a writer in flight, whatever a jal has done to the scoreboard (R26, R127, R207). -/
  pendingHasWriter : ∀ r : Reg, s.isPending r = true → ∃ i ∈ s.inFlight, dstOf i = some r
  /-- The memory list is in canonical form. -/
  memCanonical : s.mem.wf = true
  /-- Only words of the image are held (R50). -/
  memInside : ∀ c ∈ s.mem, c.1 % 4 = 0 ∧ s.map.base ≤ c.1 ∧ c.1 < s.map.limit
  /-- The image's addresses are legal (R50 to R54). -/
  mapLegal : s.map.Legal
  /-- The encoding is one that R85 allows. -/
  encValid : s.par.enc.valid = true

/-- The last code word is a `break`, as the boundary scan leaves it (R53). -/
def CodeEndsInBreak (s : State) : Prop :=
  s.map.base + 4 ≤ s.map.boundary ∧ isBreakWord s.par.enc (s.mem.readWord (s.map.boundary - 4)) = true

/-! ### Runs and the program contract (R202, R203) -/

/-- `t` is the state after `n` cycles of a run of the image with these registers on a core with these parameters. -/
def ReachedIn (par : Params) (im : Image) (regInit : Vector Word 32) (n : Nat) (t : State) : Prop :=
  Host.Core.run Sys2Proof.core n (State.launch par im regInit) = .next t

/-- The run reaches its `break` without a fault: R203 (a) to (d). -/
def MeetsContract (par : Params) (im : Image) (regInit : Vector Word 32) : Prop :=
  im.valid par.enc = true ∧ ∃ n t, ReachedIn par im regInit n t ∧ t.halted = true

/-! ### One instruction alone -/

/-- The stages an instruction passes, in order (R124 and the Pipeline line of its rule). -/
def pathOf (i : Instr) : List Stage :=
  match unitOf i with
  | some .add => [.fetch, .issue, .execute .add, .writeback .add]
  | some .log => [.fetch, .issue, .execute .log, .writeback .log]
  | some .addr => if isLoad i then [.fetch, .issue, .advance, .memory, .writeback .mem] else [.fetch, .issue, .advance, .memory]
  | none => if isBranch i then [.fetch, .resolve] else if i = .brk then [.fetch, .finish] else [.fetch]

/-- Take an instruction through stages, the latches rotating after its issue (R120). -/
def runStages (i : Instr) : List Stage → State → Result State
  | [], s => .next s
  | p :: ps, s => andThen (serve p i s) fun t => runStages i ps (if p = .issue then rotate t else t)

/-- One instruction through its whole path with nothing else moving. -/
def alone (i : Instr) (s : State) : Result State := runStages i (pathOf i) s

/-- What the two computing units compute from the captured operands, in the arithmetic of the rules R150 to R152 and R160
to R165: sums and differences modulo 2^32, bitwise operations, floor division for the arithmetic shift; `n` is `SHAMT_BITS`. -/
def aluTable (n : Nat) : Instr → Word → Word → Option Word
  | .add _ _ _, a, b => some (BitVec.ofNat 32 (a.toNat + b.toNat))
  | .sub _ _ _, a, b => some (BitVec.ofInt 32 (a.toInt - b.toInt))
  | .addi _ _ _, a, b => some (BitVec.ofNat 32 (a.toNat + b.toNat))
  | .and _ _ _, a, b => some (BitVec.ofNat 32 (a.toNat &&& b.toNat))
  | .or _ _ _, a, b => some (BitVec.ofNat 32 (a.toNat ||| b.toNat))
  | .andi _ _ _, a, b => some (BitVec.ofNat 32 (a.toNat &&& b.toNat))
  | .ori _ _ _, a, b => some (BitVec.ofNat 32 (a.toNat ||| b.toNat))
  | .sll _ _ _, a, b => some (BitVec.ofNat 32 (a.toNat * 2 ^ (b.toNat % 2 ^ n)))
  | .sra _ _ _, a, b => some (BitVec.ofInt 32 (a.toInt / 2 ^ (b.toNat % 2 ^ n)))
  | .beq _ _ _, _, _ => none
  | .bne _ _ _, _, _ => none
  | .blt _ _ _, _, _ => none
  | .sw _ _ _, _, _ => none
  | .lw _ _ _, _, _ => none
  | .jal _ _, _, _ => none
  | .brk, _, _ => none

/-- The operands an entry captures when it issues: `opA` and `opB` of R104. -/
def capturedOperands (i : Instr) (s : State) : Word × Word :=
  match i with
  | .sw rs1 rs2 _ => (s.read rs1, s.read rs2)
  | .add _ rs1 rs2 => (s.read rs1, s.read rs2)
  | .sub _ rs1 rs2 => (s.read rs1, s.read rs2)
  | .and _ rs1 rs2 => (s.read rs1, s.read rs2)
  | .or _ rs1 rs2 => (s.read rs1, s.read rs2)
  | .addi _ rs1 imm => (s.read rs1, imm)
  | .andi _ rs1 imm => (s.read rs1, imm)
  | .ori _ rs1 imm => (s.read rs1, imm)
  | .sll _ rs1 imm => (s.read rs1, imm)
  | .sra _ rs1 imm => (s.read rs1, imm)
  | .lw _ rs1 imm => (s.read rs1, imm)
  | .beq rs1 rs2 _ => (s.read rs1, s.read rs2)
  | .bne rs1 rs2 _ => (s.read rs1, s.read rs2)
  | .blt rs1 rs2 _ => (s.read rs1, s.read rs2)
  | .jal _ _ => (0, 0)
  | .brk => (0, 0)

/-- With the entries `older` ahead of it in the queue, an entry `i` can issue in this cycle: none of them is of its unit, none
of its registers is pending, none of them writes one of its registers, and those that read its destination can issue
themselves (R102, R103). -/
inductive Issuable (s : State) : List Instr → Instr → Prop
  | intro {older : List Instr} {i : Instr} {u : FU} :
      unitOf i = some u → (∀ o ∈ older, unitOf o ≠ some u) →
      (∀ r : Reg, r ≠ 0 → r ∈ srcOf i ∨ dstOf i = some r → s.isPending r = false ∧ ∀ o ∈ older, dstOf o ≠ some r) →
      (∀ (before : List Instr) (o : Instr) (after : List Instr), older = before ++ o :: after →
        (∃ r : Reg, r ≠ 0 ∧ r ∈ srcOf o ∧ dstOf i = some r) → Issuable s before o) →
      Issuable s older i

/-- The cycle that led to `t` issued `i` with the operands it captures from `s` (R104, R120). -/
def IssuedAs (i : Instr) (s t : State) : Prop :=
  ∃ u, unitOf i = some u ∧ t.pre.get u = some ⟨i, (capturedOperands i s).1, (capturedOperands i s).2⟩

end Sys2Proof.Machine
end

