-- ==== Sys2Proof/Certificates/Slice0/Obligations.lean ====
section
/-! DEFINITION. The statements for the provers. A docstring names the rule of spec/ a statement formalises, and says so where
the statement rests on one of the spec's own decisions (D<n> of 92_eei_decisions.md) or on a choice of the model's. The stage
in a state is the model's cursor inside a cycle (log entry 6): `s.stage = .fetch` says that an instruction was just decoded. -/

open Sys2Proof Sys2Proof.Machine

/-! ### Registers and scoreboard -/

/-- R22: a read gives 0 for register 0 and the stored value otherwise, whatever `willwrite` holds. -/
def Obligations.RegisterReadIsZeroOrStored : Prop :=
  ∀ (s : State) (r : Reg) (m : RegMask),
    s.read r = (if r = 0 then 0 else s.x[r]) ∧ ({ s with willwrite := m }).read r = s.read r

/-- R24: a write stores the value and clears the pending bit together, does nothing for register 0, and touches no other
register, no other bit and nothing else of the state. -/
def Obligations.RegisterWriteStoresAndClears : Prop :=
  ∀ (s : State) (r : Reg) (v : Word),
    (r = 0 → s.write r v = s) ∧
    (r ≠ 0 → (s.write r v).read r = v ∧ (s.write r v).isPending r = false) ∧
    (∀ q : Reg, q ≠ r → (s.write r v).read q = s.read q ∧ (s.write r v).isPending q = s.isPending q) ∧
    s.write r v = { s with x := (s.write r v).x, willwrite := (s.write r v).willwrite }

/-- R23: marking sets the register's bit, nothing for register 0, and no other bit and no other state. -/
def Obligations.MarkPendingSetsOneBit : Prop :=
  ∀ (s : State) (r : Reg),
    (r = 0 → s.markPending r = s) ∧
    (r ≠ 0 → (s.markPending r).isPending r = true) ∧
    (∀ q : Reg, q ≠ r → (s.markPending r).isPending q = s.isPending q) ∧
    s.markPending r = { s with willwrite := (s.markPending r).willwrite }

/-- R25: after any sequence of register writes (a value) and marks (no value) aimed at any registers, register 0 reads 0 and
is pending only if it was before the sequence. -/
def Obligations.RegisterZeroStaysZeroAndUnmarked : Prop :=
  ∀ (s : State) (ops : List (Reg × Option Word)),
    let t := ops.foldl (fun s o => match o.2 with | some v => s.write o.1 v | none => s.markPending o.1) s
    t.read 0 = 0 ∧ t.isPending 0 = s.isPending 0

/-! ### Reset and launch -/

/-- R5, R43, R50, R53, R54, R200 (decisions D11, D12, D25, D27 to D29): reset with an image puts every piece of state at its
value of the table: registers and `pc`, every latch, the queue, the counters, the image's addresses with `DATA_BOUNDARY`
among them, and the memory, which holds the image's words and nothing else. The parameters are those the core is instantiated
with. The rest of the model's cursor and the form of the memory list are the model's choice (log entries 4 to 6). -/
def Obligations.LaunchSetsEveryPieceOfState : Prop :=
  ∀ (par : Params) (im : Image) (regInit : Vector Word 32),
    let s := State.launch par im regInit
    s.read 0 = 0 ∧ (∀ r : Reg, r ≠ 0 → s.read r = regInit[r]) ∧ s.willwrite = 0 ∧
    s.pc = BitVec.ofNat 32 im.base ∧ s.wbr = none ∧ s.fx = none ∧ s.iq = [] ∧
    s.stg = noEntries ∧ s.pre = noEntries ∧ s.premem = none ∧ s.postmem = none ∧ s.postAdd = none ∧
    s.postLog = none ∧ s.cycle = 0 ∧ s.halted = false ∧ s.fault = none ∧
    s.map.base = im.base ∧ s.map.limit = im.base + 4 * im.words.length ∧
    (∀ b, im.boundary par.enc = some b → s.map.boundary = b) ∧
    (∀ (k : Nat) (w : Word), im.words[k]? = some w → s.mem.readWord (im.base + 4 * k) = w) ∧
    (∀ c ∈ s.mem, ∃ k, k < im.words.length ∧ c.1 = im.base + 4 * k) ∧ s.mem.wf = true ∧
    s.par = par ∧ s.stage = .fetch

/-- R50, R54: after a launch word `k` of the image is what a load of address `MEM_BASE + 4k` reads. -/
def Obligations.LaunchHoldsTheImage : Prop :=
  ∀ (par : Params) (im : Image) (regInit : Vector Word 32) (k : Nat) (w : Word),
    im.valid par.enc = true → im.words[k]? = some w →
    (State.launch par im regInit).memRead (BitVec.ofNat 32 (im.base + 4 * k)) = .next w

/-- R53, under every encoding record that R85 allows: the data boundary is the address after the first word of the image that
decodes to `break`. -/
def Obligations.BoundaryFollowsFirstBreak : Prop :=
  ∀ (e : Enc) (im : Image) (b : Nat), e.valid = true →
    (im.boundary e = some b ↔
      ∃ k w, im.words[k]? = some w ∧ decodeWith e w = .ok .brk ∧ b = im.base + 4 * k + 4 ∧
        ∀ (j : Nat) (v : Word), j < k → im.words[j]? = some v → decodeWith e v ≠ .ok .brk)

/-! ### Memory -/

/-- R57, R58, R60 (decision D13): which data accesses complete, with what, and that every other one faults. -/
def Obligations.DataAccessesAreChecked : Prop :=
  ∀ (s : State) (addr v : Word),
    (addr.toNat % 4 = 0 ∧ s.map.base ≤ addr.toNat ∧ addr.toNat < s.map.limit →
      s.memRead addr = .next (s.mem.readWord addr.toNat)) ∧
    (¬(addr.toNat % 4 = 0 ∧ s.map.base ≤ addr.toNat ∧ addr.toNat < s.map.limit) →
      s.memRead addr = .fault (.memFault addr .read)) ∧
    (addr.toNat % 4 = 0 ∧ s.map.boundary ≤ addr.toNat ∧ addr.toNat < s.map.limit →
      s.memWrite addr v = .next { s with mem := s.mem.writeWord addr.toNat v }) ∧
    (¬(addr.toNat % 4 = 0 ∧ s.map.boundary ≤ addr.toNat ∧ addr.toNat < s.map.limit) →
      s.memWrite addr v = .fault (.memFault addr .write))

/-- R58, R63 (decision D13): a store that completes is seen by the next load of its address, and no other address reads
differently. -/
def Obligations.StoreThenLoadReturnsValue : Prop :=
  ∀ (s t : State) (addr v : Word),
    s.map.Legal → s.mem.wf = true → s.memWrite addr v = .next t →
    t.memRead addr = .next v ∧ ∀ b : Word, b ≠ addr → t.memRead b = s.memRead b

/-- R50, R61 (decision D15): memory is an array of 32-bit words. A written word reads back at its own address and leaves
every other word alone, and a memory is nothing beyond its words: two that hold the same word at every address are the same
(the canonical form of the list is log entry 4). -/
def Obligations.MemoryIsAnArrayOfWords : Prop :=
  (∀ (m : Memory) (a b : Nat) (v : Word), m.wf = true →
    (m.writeWord a v).wf = true ∧ (m.writeWord a v).readWord b = if b = a then v else m.readWord b) ∧
  (∀ m n : Memory, m.wf = true → n.wf = true → (∀ a : Nat, m.readWord a = n.readWord a) → m = n)

/-! ### Encoding -/

/-- Words written out from the encodings of R78 (the default `ENC`, decisions D1 to D3): one of every constructor, at least two
of each of the five shapes. The `break` with bits 31 to 7 set rests on decision D4 (ignored bits) as well. -/
def Obligations.SampleWordsDecode : Prop :=
  decode 0x00500082 = .ok (.addi 1 0 5) ∧ decode 0x00208181 = .ok (.add 3 1 2) ∧
  decode 0x00208185 = .ok (.sub 3 1 2) ∧ decode 0x00208189 = .ok (.and 3 1 2) ∧
  decode 0x0020818D = .ok (.or 3 1 2) ∧ decode 0xFF008186 = .ok (.andi 3 1 (-16)) ∧
  decode 0x8000818A = .ok (.ori 3 1 (-2048)) ∧ decode 0xFFF2018E = .ok (.sll 3 4 (-1)) ∧
  decode 0x01F20192 = .ok (.sra 3 4 31) ∧ decode 0xFFC40496 = .ok (.lw 9 8 (-4)) ∧
  decode 0x81EF800C = .ok (.sw 31 30 (-2048)) ∧ decode 0xFE208F80 = .ok (.beq 1 2 (-1)) ∧
  decode 0xFE008D04 = .ok (.bne 1 0 (-6)) ∧ decode 0xFE208E88 = .ok (.blt 1 2 (-3)) ∧
  decode 0x80000F83 = .ok (.jal 31 (-524288)) ∧ decode 0x7FFFF083 = .ok (.jal 1 524287) ∧
  decode 0x0000007F = .ok .brk ∧ decode 0xABCDF07F = .ok .brk ∧
  decode 0x0000002B = .error (.invalidOpcode 0x2B)

/-- R83, R85: under EVERY encoding record that R85 allows, decoding the encoding of a well-formed instruction gives it back.
Headline: decode and encode agree. -/
def Obligations.DecodeInvertsEncode : Prop :=
  ∀ (e : Enc) (i : Instr), e.valid = true → i.wellFormed = true → decodeWith e (encodeWith e i) = .ok i

/-- R80, R83 under the default `ENC` (decision D4): what decodes to `i` is `encode i` in every bit but the ignored ones,
which are bits 14 to 12 of every shape but J, bits 31 to 25 of the R shape, and bits 31 to 7 of `break`. -/
def Obligations.EncodeInvertsDecodeUpToIgnoredBits : Prop :=
  ∀ (w : Word) (i : Instr), decode w = .ok i →
    encode i = w &&& (match i.mnemonic with
      | .add => 0x01FF8FFF
      | .sub => 0x01FF8FFF
      | .and => 0x01FF8FFF
      | .or => 0x01FF8FFF
      | .jal => 0xFFFFFFFF
      | .brk => 0x0000007F
      | .beq => 0xFFFF8FFF
      | .bne => 0xFFFF8FFF
      | .blt => 0xFFFF8FFF
      | .sw => 0xFFFF8FFF
      | .addi => 0xFFFF8FFF
      | .andi => 0xFFFF8FFF
      | .ori => 0xFFFF8FFF
      | .sll => 0xFFFF8FFF
      | .sra => 0xFFFF8FFF
      | .lw => 0xFFFF8FFF)

/-- R79 with the map of R78 (decision D1): a word is rejected exactly if its low seven bits are none of the sixteen values,
whatever bits 31 to 7 hold. -/
def Obligations.DecodeRejectsExactlyOtherOpcodes : Prop :=
  ∀ w : Word, (∃ e, decode w = .error e) ↔
    w.toNat % 128 ∉ [0x00, 0x01, 0x02, 0x03, 0x04, 0x05, 0x06, 0x08, 0x09, 0x0A, 0x0C, 0x0D, 0x0E, 0x12, 0x16, 0x7F]

/-- R84, R85: under every encoding record, what the decoder gives has its immediates in the ranges of its shape. -/
def Obligations.DecodeGivesWellFormed : Prop :=
  ∀ (e : Enc) (w : Word) (i : Instr), decodeWith e w = .ok i → i.wellFormed = true

/-! ### What each instruction does at each stage -/

/-- R110: an ordinary instruction is appended to the tail of the queue as decoded and `pc` advances by 4; no hazard is
looked at. Constructors: sw, lw, add, sub, addi, and, or, andi, ori, sll, sra. -/
def Obligations.OrdinaryInstructionsJoinTheQueue : Prop :=
  ∀ (i : Instr) (s : State),
    i.mnemonic ∈ [.sw, .lw, .add, .sub, .addi, .and, .or, .andi, .ori, .sll, .sra] → s.stage = .fetch →
    exec i s = .next { s with iq := s.iq ++ [i], pc := s.pc + 4 }

/-- R104, R106, R88 (decision D23): at issue the operands are captured from the registers or the immediate into the staging
latch of the instruction's unit, and its destination, if any, is marked pending, in one next state. Constructors: sw, lw,
add, sub, addi, and, or, andi, ori, sll, sra. -/
def Obligations.IssueCapturesOperandsAndMarks : Prop :=
  ∀ (s : State) (rd rs1 rs2 : Reg) (imm : Word), s.stage = .issue →
    (∀ i ∈ [Instr.add rd rs1 rs2, .sub rd rs1 rs2],
      exec i s = .next ({ s with stg := { s.stg with add := some ⟨i, s.read rs1, s.read rs2⟩ } }.markPending rd)) ∧
    exec (.addi rd rs1 imm) s
      = .next ({ s with stg := { s.stg with add := some ⟨.addi rd rs1 imm, s.read rs1, imm⟩ } }.markPending rd) ∧
    (∀ i ∈ [Instr.and rd rs1 rs2, .or rd rs1 rs2],
      exec i s = .next ({ s with stg := { s.stg with log := some ⟨i, s.read rs1, s.read rs2⟩ } }.markPending rd)) ∧
    (∀ i ∈ [Instr.andi rd rs1 imm, .ori rd rs1 imm, .sll rd rs1 imm, .sra rd rs1 imm],
      exec i s = .next ({ s with stg := { s.stg with log := some ⟨i, s.read rs1, imm⟩ } }.markPending rd)) ∧
    exec (.lw rd rs1 imm) s
      = .next ({ s with stg := { s.stg with addr := some ⟨.lw rd rs1 imm, s.read rs1, imm⟩ } }.markPending rd) ∧
    exec (.sw rs1 rs2 imm) s
      = .next { s with stg := { s.stg with addr := some ⟨.sw rs1 rs2 imm, s.read rs1, s.read rs2⟩ } }

/-- R150, R151, R152, R118 (decision D6): the add/sub unit's results modulo 2^32, put in the unit's post latch.
Constructors: add, sub, addi. -/
def Obligations.AddSubUnitComputes : Prop :=
  ∀ (s : State) (rd rs1 rs2 : Reg) (imm : Word) (e : OpEntry),
    s.stage = .execute .add → s.pre.add = some e →
    let done := fun (i : Instr) (v : Word) =>
      Host.Outcome.next (φ := Fault) (ρ := Refusal)
        { s with pre := { s.pre with add := none }, postAdd := some ⟨i, v⟩ }
    exec (.add rd rs1 rs2) s = done (.add rd rs1 rs2) (BitVec.ofNat 32 (e.a.toNat + e.b.toNat)) ∧
    exec (.sub rd rs1 rs2) s = done (.sub rd rs1 rs2) (BitVec.ofInt 32 (e.a.toInt - e.b.toInt)) ∧
    exec (.addi rd rs1 imm) s = done (.addi rd rs1 imm) (BitVec.ofInt 32 (e.a.toInt + e.b.toInt))

/-- R160 to R163, R118: the bitwise results, stated bit by bit. Constructors: and, or, andi, ori. -/
def Obligations.LogicUnitComputesBitwise : Prop :=
  ∀ (s : State) (rd rs1 rs2 : Reg) (imm : Word) (e : OpEntry),
    s.stage = .execute .log → s.pre.log = some e →
    (∀ i ∈ [Instr.and rd rs1 rs2, .andi rd rs1 imm], ∃ v : Word,
      exec i s = .next { s with pre := { s.pre with log := none }, postLog := some ⟨i, v⟩ } ∧
      ∀ k : Nat, k < 32 → v.getLsbD k = (e.a.getLsbD k && e.b.getLsbD k)) ∧
    (∀ i ∈ [Instr.or rd rs1 rs2, .ori rd rs1 imm], ∃ v : Word,
      exec i s = .next { s with pre := { s.pre with log := none }, postLog := some ⟨i, v⟩ } ∧
      ∀ k : Nat, k < 32 → v.getLsbD k = (e.a.getLsbD k || e.b.getLsbD k))

/-- R164, R165, R118: the shifts by the low `SHAMT_BITS` bits of the immediate, by default the low five. For an immediate
outside 0 to 31 this rests on decision D7 (U5, log entry 13). Constructors: sll, sra. -/
def Obligations.ShiftsComputeByShamtBits : Prop :=
  ∀ (s : State) (rd rs1 : Reg) (imm : Word) (e : OpEntry),
    s.stage = .execute .log → s.pre.log = some e →
    let sh := e.b.toNat % 2 ^ s.par.shamtBits
    exec (.sll rd rs1 imm) s
      = .next { s with
          pre := { s.pre with log := none }
          postLog := some ⟨.sll rd rs1 imm, BitVec.ofNat 32 (e.a.toNat * 2 ^ sh)⟩ } ∧
    exec (.sra rd rs1 imm) s
      = .next { s with
          pre := { s.pre with log := none }
          postLog := some ⟨.sra rd rs1 imm, BitVec.ofInt 32 (e.a.toInt / 2 ^ sh)⟩ }

/-- R116, R24, R25: at writeback the latch's result is written to the destination, whose bit clears, and the latch empties;
with destination `x0` nothing is written and the latch still empties. Constructors: lw, add, sub, addi, and, or, andi,
ori, sll, sra. -/
def Obligations.WritebackWritesTheDestination : Prop :=
  ∀ (i : Instr) (rd : Reg) (l : PostLatch) (s : State) (e : ResEntry),
    latchOf i = some l → dstOf i = some rd → s.stage = .writeback l → s.post l = some e →
    exec i s = .next ((s.write rd e.result).setPost l none)

/-- R119, R140, R141 (decision D23): the address unit's second stage forms base plus sign-extended displacement modulo 2^32
and carries a store's value. Constructors: lw, sw. -/
def Obligations.AddressUnitFormsTheAddress : Prop :=
  ∀ (s : State) (rd rs1 rs2 : Reg) (imm : Word) (e : OpEntry),
    s.stage = .advance → s.pre.addr = some e →
    exec (.lw rd rs1 imm) s
      = .next { s with
          pre := { s.pre with addr := none }
          premem := some ⟨.lw rd rs1 imm, BitVec.ofNat 32 (e.a.toNat + imm.toNat), e.b⟩ } ∧
    exec (.sw rs1 rs2 imm) s
      = .next { s with
          pre := { s.pre with addr := none }
          premem := some ⟨.sw rs1 rs2 imm, BitVec.ofNat 32 (e.a.toNat + imm.toNat), e.b⟩ }

/-- R117, R141, R57 (decision D13): a load of a word of the image completes with that word, the code region included; any
other address is `MemFault(addr, read)`. Constructor: lw. -/
def Obligations.LoadReadsTheWordOrFaults : Prop :=
  ∀ (s : State) (rd rs1 : Reg) (imm : Word) (m : MemEntry),
    s.stage = .memory → s.premem = some m →
    if m.addr.toNat % 4 = 0 ∧ s.map.base ≤ m.addr.toNat ∧ m.addr.toNat < s.map.limit then
      exec (.lw rd rs1 imm) s
        = .next { s with premem := none, postmem := some ⟨.lw rd rs1 imm, s.mem.readWord m.addr.toNat⟩ }
    else exec (.lw rd rs1 imm) s = .fault (.memFault m.addr .read)

/-- R117, R140, R58 (decision D13): a store to a data word completes, memory reads the value there and as before at every
other address, nothing goes to the post-memory latch; any other address is `MemFault(addr, write)`. Constructor: sw. -/
def Obligations.StoreWritesTheWordOrFaults : Prop :=
  ∀ (s : State) (rs1 rs2 : Reg) (imm : Word) (m : MemEntry),
    s.mem.wf = true → s.stage = .memory → s.premem = some m →
    if m.addr.toNat % 4 = 0 ∧ s.map.boundary ≤ m.addr.toNat ∧ m.addr.toNat < s.map.limit then
      ∃ mem : Memory, exec (.sw rs1 rs2 imm) s = .next { s with premem := none, mem := mem } ∧
        mem.readWord m.addr.toNat = m.val ∧
        ∀ a : Nat, a ≠ m.addr.toNat → mem.readWord a = s.mem.readWord a
    else exec (.sw rs1 rs2 imm) s = .fault (.memFault m.addr .write)

/-- R111 (decision D19): a branch at fetch fills the waiting-branch latch with its own address, takes no queue slot, and
`pc` goes to the fall-through. Constructors: beq, bne, blt. -/
def Obligations.BranchesAreLatchedAtFetch : Prop :=
  ∀ (s : State) (rs1 rs2 : Reg) (imm : Word), s.stage = .fetch →
    ∀ i ∈ [Instr.beq rs1 rs2 imm, .bne rs1 rs2 imm, .blt rs1 rs2 imm],
      exec i s = .next { s with wbr := some ⟨i, s.pc⟩, pc := s.pc + 4 }

/-- R115, R170 to R172 (decisions D5, D19): a resolving branch compares its two registers, goes to `addr + 4 + 2*imm` modulo
2^32 if its condition holds and leaves `pc` otherwise, empties the latch and is fetch-executed. Constructors: beq, bne, blt. -/
def Obligations.BranchesCompareAndRedirect : Prop :=
  ∀ (s : State) (rs1 rs2 : Reg) (imm : Word) (b : BranchEntry),
    s.stage = .resolve → s.wbr = some b →
    let target : Word := BitVec.ofInt 32 (b.addr.toNat + 4 + 2 * imm.toInt)
    let done := fun (i : Instr) (pc : Word) =>
      Host.Outcome.next (φ := Fault) (ρ := Refusal) { s with pc := pc, wbr := none, fx := some i }
    exec (.beq rs1 rs2 imm) s
      = done (.beq rs1 rs2 imm) (if s.read rs1 = s.read rs2 then target else s.pc) ∧
    exec (.bne rs1 rs2 imm) s
      = done (.bne rs1 rs2 imm) (if s.read rs1 ≠ s.read rs2 then target else s.pc) ∧
    exec (.blt rs1 rs2 imm) s
      = done (.blt rs1 rs2 imm) (if (s.read rs1).toInt < (s.read rs2).toInt then target else s.pc)

/-- R112, R173 (decisions D8, D9, D21, log entries 12 and 19): `jal` links `addr + 4` through the register write, so a pending
bit of `rd` clears and `x0` discards, jumps to `addr + JAL_BASE_OFFSET + 2*imm` modulo 2^32 and is fetch-executed, with no
hazard looked at. Constructor: jal. -/
def Obligations.JalLinksAndJumpsAtFetch : Prop :=
  ∀ (s : State) (rd : Reg) (imm : Word), s.stage = .fetch →
    exec (.jal rd imm) s
      = .next { s.write rd (s.pc + 4) with
          pc := BitVec.ofInt 32 (s.pc.toNat + s.par.jalBaseOffset.toNat + 2 * imm.toInt)
          fx := some (.jal rd imm) }

/-- R113, R122, R174 (decision D24): `break` at fetch is recorded as fetch-executed with `pc` unchanged, and at the end of
the cycle the run is halted. Constructor: brk. -/
def Obligations.BreakIsRecordedThenHalts : Prop :=
  ∀ s : State,
    (s.stage = .fetch → exec .brk s = .next { s with fx := some .brk }) ∧
    (s.stage = .finish → exec .brk s = .next { s with halted := true })

/-- The model's own stop (log entry 7): an instruction at any stage outside its path (`pathOf`, R124), another unit's execute
stage and another latch's writeback among them, is stuck, by name. At fetch, which is on every path, it always completes. -/
def Obligations.OffPathStagesAreStuck : Prop :=
  ∀ (i : Instr) (s : State),
    (s.stage ∉ pathOf i → exec i s = .fault (.misplaced s.stage i)) ∧
    (s.stage = .fetch → ∃ t, exec i s = .next t)

/-! ### Frames -/

/-- Frame of add, sub, addi, and, or, andi, ori, sll, sra and lw at every stage: only `rd` can change among the registers, and
only at writeback; only bit `rd` of the scoreboard; no word of memory; and never the image's addresses, the parameters, the
waiting branch, the fetch-executed slot, the cycle counter, `halted` or `fault`. -/
def Obligations.RegisterWritersFrame : Prop :=
  ∀ (i : Instr) (rd : Reg) (s t : State), isQueued i = true → dstOf i = some rd → exec i s = .next t →
    (∀ r : Reg, r ≠ rd → t.read r = s.read r ∧ t.isPending r = s.isPending r) ∧
    ((∀ l, s.stage ≠ .writeback l) → t.read rd = s.read rd) ∧
    (∀ a : Nat, t.mem.readWord a = s.mem.readWord a) ∧
    t.map = s.map ∧ t.par = s.par ∧ t.wbr = s.wbr ∧ t.fx = s.fx ∧ t.cycle = s.cycle ∧ t.halted = s.halted ∧
    t.fault = s.fault ∧ t.stage = s.stage ∧ (s.stage ≠ .fetch → t.pc = s.pc ∧ t.iq = s.iq)

/-- Frame of sw at every stage: no register and no scoreboard bit changes; memory changes only at the memory stage, and there
only the word at the address the pre-memory latch holds. -/
def Obligations.StoreFrame : Prop :=
  ∀ (rs1 rs2 : Reg) (imm : Word) (s t : State), exec (.sw rs1 rs2 imm) s = .next t →
    (∀ r : Reg, t.read r = s.read r ∧ t.isPending r = s.isPending r) ∧
    (∀ m, s.stage = .memory → s.premem = some m →
      ∀ a : Nat, a ≠ m.addr.toNat → t.mem.readWord a = s.mem.readWord a) ∧
    (s.stage ≠ .memory → ∀ a : Nat, t.mem.readWord a = s.mem.readWord a) ∧
    t.map = s.map ∧ t.par = s.par ∧ t.wbr = s.wbr ∧ t.fx = s.fx ∧ t.postmem = s.postmem ∧ t.postAdd = s.postAdd ∧
    t.postLog = s.postLog ∧ t.cycle = s.cycle ∧ t.halted = s.halted ∧ t.fault = s.fault ∧ t.stage = s.stage ∧
    (s.stage ≠ .fetch → t.pc = s.pc ∧ t.iq = s.iq)

/-- Frame of beq, bne, blt, jal and break at every stage: no queue slot, no latch of a functional unit and no word of memory
changes; a register and its scoreboard bit only for the `rd` of a jal; `halted` only for break. -/
def Obligations.FetchUnitFrame : Prop :=
  ∀ (i : Instr) (s t : State), isQueued i = false → exec i s = .next t →
    (∀ r : Reg, (∀ imm, i ≠ .jal r imm) → t.read r = s.read r ∧ t.isPending r = s.isPending r) ∧
    (∀ a : Nat, t.mem.readWord a = s.mem.readWord a) ∧
    t.map = s.map ∧ t.par = s.par ∧ t.iq = s.iq ∧ t.stg = s.stg ∧ t.pre = s.pre ∧ t.premem = s.premem ∧
    t.postmem = s.postmem ∧ t.postAdd = s.postAdd ∧ t.postLog = s.postLog ∧ t.cycle = s.cycle ∧ t.fault = s.fault ∧ t.stage = s.stage ∧
    (i ≠ .brk → t.halted = s.halted)

/-! ### The cycle -/

/-- A step runs the decoded instruction (R100, R109, decision D20). On a live core with no waiting branch: with four queued
entries (or more, which no legal state has: log entry 22) after the issue step the cycle fetches nothing, not even a branch,
jal or break, and goes on with steps 3 to 9; with a free slot, where the word at `pc` decodes to `i`, the cycle is `exec i`
at the fetch stage on the state the issue step left, then one more fetch slot if `i` took a queue slot, then steps 3 to 9. -/
def Obligations.StepRunsTheFetchedInstruction : Prop :=
  ∀ s s1 : State,
    s.halted = false → s.fault = none → s.wbr = none →
    issue { s with cycle := s.cycle + 1, fx := none } = .next s1 →
    (4 ≤ s1.iq.length → fetchDecode s1 = .next s1 ∧ step s = backEnd s1) ∧
    (∀ (w : Word) (i : Instr), s1.iq.length < 4 → s1.fetch s1.pc = .next w → decodeWith s.par.enc w = .ok i →
      step s = andThen (exec i { s1 with stage := .fetch }) fun s2 =>
        andThen (if isQueued i then fetchSlots 1 s2 else .next s2) backEnd)

/-- R115 to R119: every instruction held in the waiting-branch latch, a post latch, the pre-memory latch or a pre latch is
run by its own meaning at its stage, a branch once it is ready; a branch that is not, and an empty latch, leave the state as
it is. -/
def Obligations.StagesRunTheHeldInstruction : Prop :=
  ∀ s : State,
    (∀ b, s.wbr = some b → branchReady s b.inst = true → branchStage s = exec b.inst { s with stage := .resolve }) ∧
    (∀ l e, s.post l = some e → writebackLatch l s = exec e.inst { s with stage := .writeback l }) ∧
    (∀ m, s.premem = some m → memoryStage s = exec m.inst { s with stage := .memory }) ∧
    (∀ u e, s.pre.get u.unit = some e → executeUnit u s = exec e.inst { s with stage := .execute u }) ∧
    (∀ e, s.pre.addr = some e → addressAdvance s = exec e.inst { s with stage := .advance }) ∧
    (∀ b, s.wbr = some b → branchReady s b.inst = false → branchStage s = .next s) ∧
    (s.wbr = none → branchStage s = .next s) ∧ (∀ l, s.post l = none → writebackLatch l s = .next s) ∧
    (s.premem = none → memoryStage s = .next s) ∧ (∀ u, s.pre.get u.unit = none → executeUnit u s = .next s) ∧
    (s.pre.addr = none → addressAdvance s = .next s)

/-- R108: with a waiting branch step 2 does nothing; so the cycle in which it resolves fetches nothing, and the next cycle's
step 2 fetches again. -/
def Obligations.WaitingBranchSuspendsFetch : Prop :=
  (∀ (s : State) (b : BranchEntry), s.wbr = some b → fetchDecode s = .next s) ∧
  (∀ (s t : State) (b : BranchEntry), s.wbr = some b → step s = .next t →
    t.iq.Sublist s.iq ∧ (t.wbr = s.wbr ∧ t.pc = s.pc ∨ t.wbr = none ∧ t.fx = some b.inst)) ∧
  (∀ s : State, s.wbr = none → fetchDecode s = fetchSlots 2 s)

/-- R115, R170 to R172 (decision D19): a branch that waits after step 2 of a cycle, be it one that waited before or one that this
cycle fetched, resolves in this cycle if neither source is pending or awaited from the queue as steps 1 and 2 left them, the
word fetched just before the branch included: it leaves the latch, is fetch-executed, and `pc` is its target or, if not taken,
stays. Otherwise the branch and `pc` stay and nothing is fetch-executed. -/
def Obligations.WaitingBranchResolvesWhenStable : Prop :=
  ∀ (s s1 s2 t : State) (b : BranchEntry),
    issue { s with cycle := s.cycle + 1, fx := none } = .next s1 → fetchDecode s1 = .next s2 → s2.wbr = some b →
    step s = .next t →
    if ∀ r ∈ srcOf b.inst, r ≠ 0 → s2.isPending r = false ∧ ∀ i ∈ s2.iq, dstOf i ≠ some r then
      t.wbr = none ∧ t.fx = some b.inst ∧ t.pc = branchPc s b.addr s2.pc b.inst
    else t.wbr = some b ∧ t.pc = s2.pc ∧ t.fx = none

/-- R102, R103, R104, R106, R107 (decisions D16 to D18): whatever a cycle issued was in the queue with an older part such that no
older entry is of the same unit, no older entry writes a register it reads or writes, an older entry that reads its
destination issued in the same cycle, none of its registers was pending, and its operands are the registers' values
at the start of the cycle: issue is in order within a unit and free of hazards. -/
def Obligations.IssueIsInOrderAndHazardFree : Prop :=
  ∀ (s t : State) (u : FU) (e : OpEntry),
    s.stg = noEntries → step s = .next t → t.pre.get u = some e →
    unitOf e.inst = some u ∧ (e.a, e.b) = capturedOperands e.inst s ∧
    ∃ older younger, s.iq = older ++ e.inst :: younger ∧
      (∀ o ∈ older, unitOf o ≠ some u) ∧
      (∀ o ∈ older, ∀ r : Reg, r ≠ 0 → dstOf o = some r → r ∉ srcOf e.inst ∧ dstOf e.inst ≠ some r) ∧
      (∀ o ∈ older, ∀ r : Reg, r ≠ 0 → r ∈ srcOf o → dstOf e.inst = some r → ∃ v f, t.pre.get v = some f ∧ f.inst = o) ∧
      (∀ r : Reg, r ≠ 0 → r ∈ srcOf e.inst ∨ dstOf e.inst = some r → s.isPending r = false)

/-- R102, R103, R107, R127 (decisions D16 to D18). A blocked entry does not end the scan: wherever in the queue an entry
stands, it issues in a cycle that completes if no older entry is of its unit, none of its registers is pending, no older entry
writes one of them, and every older entry that reads its destination can issue too (so entries of different units issue
together). With no register pending the oldest entry issues. And the core does not deadlock, jal conflicts (R207) included: in
every cycle of a legal state the oldest entry issues, or an instruction in flight will write a register that it reads or
writes. -/
def Obligations.FreeEntriesIssueAndOldestWaitsOnlyForInFlight : Prop :=
  ∀ (s t : State) (older younger : List Instr) (i : Instr), s.iq = older ++ i :: younger → step s = .next t →
    (s.stg = noEntries → Issuable s older i → IssuedAs i s t) ∧
    (s.stg = noEntries → s.willwrite = 0 → older = [] → IssuedAs i s t) ∧
    (Inv s → older = [] →
      IssuedAs i s t ∨ ∃ j ∈ s.inFlight, ∃ r : Reg, r ≠ 0 ∧ dstOf j = some r ∧ (r ∈ srcOf i ∨ dstOf i = some r))

/-- R105, R109, R110, R32, R120: a cycle splits the queue into the entries that issued, which are the ones in the pre latches
after it, and the entries that stay, both in their old order and none lost; behind those that stay it appends at most two
fetched instructions, in fetch order the instructions that the words at `pc`, `pc + 4` decode to, none while a branch waits;
and a queue of at most four stays so. -/
def Obligations.QueueKeepsItsOrder : Prop :=
  ∀ s t : State, s.stg = noEntries → step s = .next t →
    ∃ kept issued fetched, Interleaves kept issued s.iq ∧ issued.Perm t.preInsts ∧ t.iq = kept ++ fetched ∧
      fetched.length ≤ 2 ∧ (s.wbr.isSome = true → fetched = []) ∧
      (∀ (k : Nat) (i : Instr), fetched[k]? = some i →
        let addr := s.pc + 4 * BitVec.ofNat 32 k
        isQueued i = true ∧ s.map.CodeAddress addr ∧ decodeWith s.par.enc (s.mem.readWord addr.toNat) = .ok i) ∧
      (s.iq.length ≤ 4 → t.iq.length ≤ 4)

/-- R28, R108 to R113, R115, R173 (decisions D8, D19 to D21, D24, log entries 12, 15 and 19): where `pc` is after a cycle that
began with no waiting branch and took `n` words into the queue. With `q = pc + 4n`: a branch that waits, or the instruction that
was fetch-executed, is the one the word at `q` decodes to; a branch that waits, or one not taken, leaves `pc` at `q + 4`, a
taken branch at its target, a jal at its target, a break at `q`; with none of these `pc` is `q`, and two words were taken or
the queue is full. -/
def Obligations.PcAfterACycle : Prop :=
  ∀ s t : State, s.stg = noEntries → s.wbr = none → step s = .next t →
    ∃ n : Nat, n ≤ 2 ∧ s.iq.length + n = t.iq.length + t.preInsts.length ∧
      let q := s.pc + 4 * BitVec.ofNat 32 n
      (∀ i, t.wbr.map (·.inst) = some i ∨ t.fx = some i → decodeWith s.par.enc (s.mem.readWord q.toNat) = .ok i) ∧
      (∀ b, t.wbr = some b → b.addr = q ∧ t.pc = q + 4) ∧
      (∀ i, t.fx = some i → isBranch i = true → t.pc = branchPc s q (q + 4) i) ∧
      (∀ rd imm, t.fx = some (.jal rd imm) → t.pc = q + s.par.jalBaseOffset + 2 * imm) ∧
      (t.fx = some .brk → t.pc = q) ∧
      (t.wbr = none → t.fx = none → t.pc = q ∧ (n = 2 ∨ 4 ≤ t.iq.length))

/-- R118, R120, R124, R150 to R165 (decision D6): what a cycle leaves in the post latches of the computing units is the result
of what their pre latches held, with the arithmetic of the rules, and nothing where they were empty. For a shift immediate
outside 0 to 31 this rests on decision D7 (`SHAMT_BITS`, U5, log entry 13). -/
def Obligations.PreLatchesReachPostLatches : Prop :=
  ∀ s t : State, step s = .next t →
    (s.pre.add = none → t.postAdd = none) ∧ (s.pre.log = none → t.postLog = none) ∧
    (∀ e, s.pre.add = some e → ∃ v, aluTable s.par.shamtBits e.inst e.a e.b = some v ∧ t.postAdd = some ⟨e.inst, v⟩) ∧
    (∀ e, s.pre.log = some e → ∃ v, aluTable s.par.shamtBits e.inst e.a e.b = some v ∧ t.postLog = some ⟨e.inst, v⟩)

/-- R117, R119, R120, R34, R37: what a cycle leaves in the latches of the address unit's path and in the staging latches. -/
def Obligations.AddressPathAdvancesOneLatch : Prop :=
  ∀ s t : State, step s = .next t →
    t.stg = noEntries ∧
    (s.pre.addr = none → t.premem = none) ∧
    (∀ e, s.pre.addr = some e → ∃ m, t.premem = some m ∧ m.inst = e.inst ∧ m.val = e.b ∧
      ∀ rd rs1 rs2 imm, e.inst = .lw rd rs1 imm ∨ e.inst = .sw rs1 rs2 imm → m.addr = e.a + imm) ∧
    (s.premem = none → t.postmem = none) ∧
    (∀ m, s.premem = some m → (isLoad m.inst = true → t.postmem = some ⟨m.inst, s.mem.readWord m.addr.toNat⟩) ∧
      (isLoad m.inst = false → t.postmem = none))

/-- R116, R125, R173 (decisions D8, D22, log entry 12): what a cycle that completes leaves in every register: the result of the
last of the latches `postmem`, `post[ADD]`, `post[LOG]` whose instruction writes it, else the link value if the cycle's jal
names it, else its old value. The link is the jal's own address plus 4, and that address is the `pc` the jal leaves less
`JAL_BASE_OFFSET + 2*imm` (decision D8). -/
def Obligations.RegistersAfterACycle : Prop :=
  ∀ (s t : State) (r : Reg), step s = .next t →
    let from? := fun (l : Option ResEntry) => l.bind fun e => if r ≠ 0 ∧ dstOf e.inst = some r then some e.result else none
    let link := match t.fx with
      | some (.jal rd imm) => if r ≠ 0 ∧ rd = r then some (t.pc - (s.par.jalBaseOffset + 2 * imm) + 4) else none
      | _ => none
    t.read r = (((from? s.postLog).or (from? s.postAdd)).or ((from? s.postmem).or link)).getD (s.read r)

/-- R58, R117, R65: what a cycle that completes leaves in memory: the word of the store in the pre-memory latch, if
there is one, and every other word as before. -/
def Obligations.MemoryAfterACycle : Prop :=
  ∀ s t : State, s.mem.wf = true → step s = .next t →
    (∀ m rs1 rs2 imm, s.premem = some m → m.inst = .sw rs1 rs2 imm → t.mem.readWord m.addr.toNat = m.val) ∧
    (∀ a : Nat,
      (∀ m rs1 rs2 imm, s.premem = some m → m.inst = .sw rs1 rs2 imm → a ≠ m.addr.toNat) →
      t.mem.readWord a = s.mem.readWord a)

/-- R5, R40, R52, R54, R58, R65: no cycle changes a word of the code region, one of the image's addresses or a parameter. -/
def Obligations.CodeRegionNeverChanges : Prop :=
  ∀ s t : State, step s = .next t →
    t.map = s.map ∧ t.par = s.par ∧ ∀ a : Nat, a < s.map.boundary → t.mem.readWord a = s.mem.readWord a

/-- R101, R41 (decision D25): every completed cycle counts one, and what the fetch-executed slot held before it plays no part. -/
def Obligations.CyclesAreCounted : Prop :=
  ∀ s : State, (∀ t, step s = .next t → t.cycle = s.cycle + 1) ∧ ∀ f, step { s with fx := f } = step s

/-- R122, R126 (decisions D10, D27): a cycle that completes leaves the run halted exactly if its fetch-executed slot holds
`break`, and `advance` shows that cycle's snapshot; once halted no further step exists, which the model says by the fault
`noStep` and an `advance` that shows nothing (log entry 8, the model's choice). -/
def Obligations.RunEndsExactlyAtBreak : Prop :=
  ∀ s t : State, step s = .next t →
    (t.halted = true ↔ t.fx = some .brk) ∧ advance s = (t, .cycle t.snapshot t.halted) ∧
    (t.halted = true → step t = .fault .noStep ∧ advance t = (t, .nothing))

/-- R120: rotation moves every staging latch to the pre latch and empties it; no pre latch held anything before it in a
cycle that completes, so what the cycle issued is what its snapshot shows in the pre latches. -/
def Obligations.RotationMovesStagingToPre : Prop :=
  (∀ s : State, (rotate s).pre = s.stg ∧ (rotate s).stg = noEntries) ∧
  (∀ s s6 s7 : State, execute s = .next s6 → addressAdvance s6 = .next s7 → s7.pre = noEntries) ∧
  (∀ s s1 t : State, issue { s with cycle := s.cycle + 1, fx := none } = .next s1 → step s = .next t →
    t.pre = s1.stg ∧ t.snapshot.preAddr = s1.stg.addr.map (·.inst) ∧ t.snapshot.preAdd = s1.stg.add.map (·.inst) ∧
      t.snapshot.preLog = s1.stg.log.map (·.inst))

/-! ### Faults -/

/-- R56, R109, R114, R182, R184, R186 (decisions D14, D26): on a live core with no waiting branch and a free slot after issue, a
`pc` that is misaligned or outside the code region makes the whole cycle a `FetchFault`, and a word there that is no
instruction makes it a `DecodeFault`, whatever the rest of the cycle would do; and so for `pc + 4`, where the first word takes
a queue slot and another one is free. The state stays as it was with the reason recorded. -/
def Obligations.FetchSideFaultsStopTheCycle : Prop :=
  ∀ s s1 : State,
    s.halted = false → s.fault = none → s.wbr = none →
    issue { s with cycle := s.cycle + 1, fx := none } = .next s1 → s1.iq.length < 4 →
    let wordAt := fun a : Word => s.mem.readWord a.toNat
    (¬s.map.CodeAddress s.pc → StopsWith s (.fetchFault s.pc)) ∧
    (∀ e, s.map.CodeAddress s.pc → decodeWith s.par.enc (wordAt s.pc) = .error e →
      StopsWith s (.decodeFault s.pc (wordAt s.pc))) ∧
    (∀ i, s.map.CodeAddress s.pc → decodeWith s.par.enc (wordAt s.pc) = .ok i → isQueued i = true → s1.iq.length < 3 →
      (¬s.map.CodeAddress (s.pc + 4) → StopsWith s (.fetchFault (s.pc + 4))) ∧
      (∀ e, s.map.CodeAddress (s.pc + 4) → decodeWith s.par.enc (wordAt (s.pc + 4)) = .error e →
        StopsWith s (.decodeFault (s.pc + 4) (wordAt (s.pc + 4)))))

/-- R7, R126 (decision D27): a halted or faulted core has no step and `advance` leaves it as it is. -/
def Obligations.NoStepAfterTheEnd : Prop :=
  ∀ s : State, s.halted = true ∨ s.fault.isSome = true → step s = .fault .noStep ∧ advance s = (s, .nothing)

/-- R8, R180, R185: from a legal state that is not over, a cycle has exactly these outcomes: a next state or one of the three
faults of the core; never the model's own stops and never a refusal. -/
def Obligations.LegalStatesStepOrFaultByName : Prop :=
  ∀ s : State, Inv s → s.halted = false →
    (∃ t, step s = .next t) ∨ (∃ a w, step s = .fault (.decodeFault a w)) ∨
    (∃ a k, step s = .fault (.memFault a k)) ∨ (∃ a, step s = .fault (.fetchFault a))

/-- R183, R186, R203, R8 (decision D13): a cycle of a legal state is a `MemFault` only for the load or store that the pre-memory
latch holds, with an address out of its range; and of a legal live state whose issue and fetch steps complete it is one
whenever that latch holds such an access, and the state stays as it was with the reason recorded. -/
def Obligations.MemFaultsComeFromThePreMemoryLatch : Prop :=
  ∀ s : State, Inv s →
    (∀ a k, step s = .fault (.memFault a k) →
      ∃ m, s.premem = some m ∧ m.addr = a ∧ k = (if isLoad m.inst then .read else .write) ∧ ¬s.map.InRange m) ∧
    (∀ s1 s2 m, s.halted = false →
      issue { s with cycle := s.cycle + 1, fx := none } = .next s1 → fetchDecode s1 = .next s2 →
      s.premem = some m → ¬s.map.InRange m →
      StopsWith s (.memFault m.addr (if isLoad m.inst then .read else .write)))

/-- R8, R182 to R184, R203: when a cycle completes. In a legal live state whose code region ends in a `break` and holds only
instructions, with `pc` in that region and the pre-memory latch's access in its range, `step` answers a next state. -/
def Obligations.LegalStatesCompleteWhenTheContractHolds : Prop :=
  ∀ s : State, Inv s → s.halted = false → CodeEndsInBreak s → s.map.fetchable s.pc = true →
    (∀ a : Word, s.map.fetchable a = true → ∃ i, decodeWith s.par.enc (s.mem.readWord a.toNat) = .ok i) →
    (∀ m, s.premem = some m → if isLoad m.inst then s.map.readable m.addr = true else s.map.writable m.addr = true) →
    ∃ t, step s = .next t

/-- R184: where the code region ends in a `break` and `pc` is in it, a cycle raises no `FetchFault`, and it leaves `pc` in
the code region unless its fetch-executed instruction is a branch or a jal. -/
def Obligations.OnlyTransfersLeaveTheCodeRegion : Prop :=
  ∀ s : State, Inv s → CodeEndsInBreak s → s.map.fetchable s.pc = true →
    (∀ a, step s ≠ .fault (.fetchFault a)) ∧
    (∀ t, step s = .next t →
      t.map.fetchable t.pc = true ∨ ∃ i, t.fx = some i ∧ (isBranch i = true ∨ ∃ rd imm, i = .jal rd imm))

/-! ### Invariants -/

/-- R43, R85: the launch of every valid image with any registers, under any parameters whose encoding R85 allows, meets the
invariant. So does the no-argument `State.reset`, which is the model's choice of an empty image (log entry 1). -/
def Obligations.LaunchMeetsTheInvariant : Prop :=
  Inv State.reset ∧
  ∀ (par : Params) (im : Image) (regInit : Vector Word 32), par.enc.valid = true → im.valid par.enc = true →
    let s := State.launch par im regInit
    Inv s ∧ ScoreboardExact s ∧ CodeEndsInBreak s

/-- Headline: every cycle keeps the invariant (R20 to R42: the latches' kinds, the queue's bound, register 0, the memory's
canonical form, the image's addresses, the encoding, halted exactly at `break`; R111: `pc` is a waiting branch's
fall-through; R127: a pending register has a writer in flight). The cursor's rest and the canonical form are the model's choice (log entries 4 to 6). -/
def Obligations.EveryStepKeepsTheInvariant : Prop :=
  ∀ s t : State, Inv s → step s = .next t → Inv t

/-- R26, R27 (and R207 way (c)): headline: from a legal state whose scoreboard is exact, a cycle leaves it exact, unless the
cycle's jal links to a register that an instruction still queued or in flight writes. -/
def Obligations.ScoreboardStaysExactWithoutJalConflict : Prop :=
  ∀ s t : State, Inv s → ScoreboardExact s → step s = .next t →
    (∀ rd imm, t.fx = some (.jal rd imm) → rd ≠ 0 → ∀ i ∈ s.iq ++ s.inFlight, dstOf i ≠ some rd) →
    ScoreboardExact t

/-- R128, R124: one instruction taken alone through its stages, from a state whose latches are empty, leaves the registers,
scoreboard, memory and `pc` its Operation line gives, and the fetch-executed slot too but for a branch, whose line does not
name it (R170); or it faults as its line does. No claim is made about programs (decision D35, log entry 23). For sll and sra
outside 0 to 31 this rests on decision D7 (log entry 13, U5), for jal on decision D8 (log entry 12). -/
def Obligations.StagesComposeToTheOperation : Prop :=
  ∀ (i : Instr) (s : State),
    s.wbr = none → s.stg = noEntries → s.pre = noEntries → s.premem = none →
    s.postmem = none → s.postAdd = none → s.postLog = none →
    (∀ t, operation i s = .next t → ∃ t', alone i s = .next t' ∧ t'.x = t.x ∧ t'.willwrite = t.willwrite ∧
      t'.mem = t.mem ∧ t'.pc = t.pc ∧ t'.halted = t.halted ∧
      t'.fx = if isBranch i then some i else t.fx) ∧
    (∀ r, operation i s = .fault r → alone i s = .fault r)

/-! ### Interface -/

/-- R44, R121, R10, R32: the snapshot shows the cycle number, the waiting branch, the fetch-executed instruction, the four queue
slots, the instruction in each pre, memory and post latch, the 32 registers and the words of the data region as signed
numbers, both in rows of eight; it does not show the scoreboard, `pc`, the waiting branch's address, `halted` or `fault`. -/
def Obligations.SnapshotShowsTheVisibleStateOnly : Prop :=
  ∀ s : State,
    let p := s.snapshot
    p.cycle = s.cycle ∧ p.waiting = s.wbr.map (·.inst) ∧ p.fetchExecuted = s.fx ∧
    p.queue.length = 4 ∧ (∀ k : Nat, k < 4 → p.queue[k]? = some s.iq[k]?) ∧
    p.preAddr = s.pre.addr.map (·.inst) ∧ p.premem = s.premem.map (·.inst) ∧ p.postmem = s.postmem.map (·.inst) ∧
    p.preAdd = s.pre.add.map (·.inst) ∧ p.postAdd = s.postAdd.map (·.inst) ∧
    p.preLog = s.pre.log.map (·.inst) ∧ p.postLog = s.postLog.map (·.inst) ∧
    p.regs.length = 32 ∧ (∀ r : Reg, p.regs[r.val]? = some (s.read r).toInt) ∧
    p.data.length = (s.map.limit - s.map.boundary) / 4 ∧
    (∀ k : Nat, k < p.data.length → p.data[k]? = some (s.mem.readWord (s.map.boundary + 4 * k)).toInt) ∧
    p.regRows.flatten = p.regs ∧ p.dataRows.flatten = p.data ∧
    (∀ k : Nat, 8 * k < p.regs.length → p.regRows[k]? = some ((p.regs.drop (8 * k)).take 8)) ∧
    (∀ k : Nat, 8 * k < p.data.length → p.dataRows[k]? = some ((p.data.drop (8 * k)).take 8)) ∧
    (∀ (ww : RegMask) (pc : Word) (h : Bool) (f : Option Fault),
      ({ s with willwrite := ww, pc := pc, halted := h, fault := f }).snapshot = p) ∧
    (∀ b b' : BranchEntry, b.inst = b'.inst → ({ s with wbr := some b }).snapshot = ({ s with wbr := some b' }).snapshot)

/-- The model's interface (log entry 2): in every state whose memory is canonical and whose `pc` is
aligned, the word placed for the host is what the next step fetches. -/
def Obligations.PlacedWordIsFetchedNext : Prop :=
  ∀ (s : State) (w : Word), s.mem.wf = true → s.pc.toNat % 4 = 0 →
    let t := s.withFetchWord 32 w.toNat
    ended t = false ∧ t.wbr = none ∧ t.iq = [] ∧ t.fetch t.pc = .next w
end

