-- ==== Sys2Proof/Laws/Encoding.lean ====
section
/-! SUPPORT. The laws of bit fields: what a field reads from placed values, the immediates' sign extension, and the lookup of
an opcode value (R9, R10, R72, R78, R83, R85). -/

namespace Sys2Proof

/-- Bit `k` of a field. -/
theorem testBit_bitField (f : Field) (w : Word) (k : Nat) :
    (bitField f w).testBit k = (decide (k < f.width) && w.getLsbD (f.lo + k)) := by
  unfold bitField
  rw [Nat.testBit_mod_two_pow, ← Nat.shiftRight_eq_div_pow, Nat.testBit_shiftRight]
  rfl

@[simp] theorem bitField_zero (f : Field) : bitField f 0 = 0 := by simp [bitField]

theorem bitField_or (f : Field) (a b : Word) : bitField f (a ||| b) = bitField f a ||| bitField f b := by
  apply Nat.eq_of_testBit_eq
  intro k
  rw [Nat.testBit_or]
  simp only [testBit_bitField, BitVec.getLsbD_or]
  cases decide (k < f.width) <;> simp

/-- Bit `k` of a word that holds one placed value. -/
theorem getLsbD_place {f : Field} (v k : Nat) (h : f.lo ≤ f.hi) :
    (place f v).getLsbD k = (decide (k < 32) && decide (f.lo ≤ k) && decide (k ≤ f.hi) && v.testBit (k - f.lo)) := by
  unfold place
  rw [BitVec.getLsbD_ofNat, Nat.testBit_mul_two_pow, Nat.testBit_mod_two_pow]
  unfold Field.width
  by_cases h1 : f.lo ≤ k
  · by_cases h2 : k ≤ f.hi
    · simp [h1, h2, show k - f.lo < f.hi + 1 - f.lo by omega]
    · simp [h1, h2, show ¬k - f.lo < f.hi + 1 - f.lo by omega]
  · simp [h1]

/-- A field reads what was placed in it. -/
theorem bitField_place_same {f : Field} (v : Nat) (h : f.lo ≤ f.hi) (h2 : f.hi ≤ 31) :
    bitField f (place f v) = v % 2 ^ f.width := by
  apply Nat.eq_of_testBit_eq
  intro k
  rw [testBit_bitField, getLsbD_place _ _ h, Nat.testBit_mod_two_pow]
  unfold Field.width
  by_cases h1 : k < f.hi + 1 - f.lo
  · simp [h1, show f.lo + k < 32 by omega, show f.lo + k ≤ f.hi by omega]
  · simp [h1]

/-- A field reads nothing of what was placed in a field apart from it. -/
theorem bitField_place_apart {f g : Field} (v : Nat) (h : g.lo ≤ g.hi) (h2 : f.apart g = true) :
    bitField f (place g v) = 0 := by
  apply Nat.eq_of_testBit_eq
  intro k
  rw [testBit_bitField, getLsbD_place _ _ h]
  unfold Field.width
  simp only [Field.apart, Bool.or_eq_true, decide_eq_true_eq] at h2
  by_cases h1 : k < f.hi + 1 - f.lo
  · by_cases h3 : g.lo ≤ f.lo + k
    · simp [h3, show ¬f.lo + k ≤ g.hi by omega]
    · simp [h3]
  · simp [h1]

theorem Field.apart_comm (f g : Field) : f.apart g = g.apart f := by simp [Field.apart, Bool.or_comm]

/-- The value of `n` low bits sign-extended is the word they were taken from, if it is in their range (R10). -/
theorem sext_toNat {n : Nat} {imm : Word} (hn : 0 < n) (hn2 : n ≤ 32) (h1 : -(2 ^ (n - 1) : Int) ≤ imm.toInt)
    (h2 : imm.toInt < 2 ^ (n - 1)) : sext n (imm.toNat % 2 ^ n) = imm := by
  unfold sext
  apply BitVec.eq_of_toInt_eq
  rw [BitVec.toInt_signExtend]
  have e1 : BitVec.ofNat n (imm.toNat % 2 ^ n) = imm.setWidth n := by
    apply BitVec.eq_of_toNat_eq
    simp [BitVec.toNat_ofNat, BitVec.toNat_setWidth]
  have e2 : (imm.setWidth n).toInt = imm.toInt.bmod (2 ^ n) := by
    rw [BitVec.toInt_setWidth, BitVec.toInt_eq_toNat_bmod, Int.bmod_bmod_of_dvd]
    exact pow_dvd_pow 2 hn2
  rw [e1, e2, Nat.min_eq_right hn2, Int.bmod_bmod]
  have hp : (2 : Nat) ^ n = 2 * 2 ^ (n - 1) := by rw [← pow_succ']; congr; omega
  apply Int.bmod_eq_of_le
  · rw [hp]; push_cast; omega
  · rw [hp]; push_cast; omega

/-- `Mnemonic.all` holds every name. -/
theorem Mnemonic.mem_all (m : Mnemonic) : m ∈ Mnemonic.all := by cases m <;> decide

/-- Looking up an opcode value that names a variant finds the variant, where the values are distinct (R85). -/
theorem mnemonicOf_opcode {e : Enc} (h : (Mnemonic.all.map e.opcode).Nodup) (m : Mnemonic) :
    mnemonicOf e (e.opcode m) = some m := by
  unfold mnemonicOf
  cases hf : Mnemonic.all.find? (fun n => e.opcode n == e.opcode m) with
  | none =>
    rw [List.find?_eq_none] at hf
    exact absurd (beq_self_eq_true _) (hf m m.mem_all)
  | some n =>
    have hn : e.opcode n = e.opcode m := by simpa using List.find?_some hf
    rw [List.inj_on_of_nodup_map h n.mem_all m.mem_all hn]

end Sys2Proof
end

