-- ==== Sys2Proof/Laws/State.lean ====
section
/-! SUPPORT. One lemma per field per named update of State: what the update leaves in the field. Later proofs cite these and
do not unfold an update. -/

namespace Sys2Proof.Machine

@[simp] theorem State.markPending_x (s : State) (r : Reg) : (s.markPending r).x = s.x := rfl
@[simp] theorem State.markPending_pc (s : State) (r : Reg) : (s.markPending r).pc = s.pc := rfl
@[simp] theorem State.markPending_wbr (s : State) (r : Reg) : (s.markPending r).wbr = s.wbr := rfl
@[simp] theorem State.markPending_fx (s : State) (r : Reg) : (s.markPending r).fx = s.fx := rfl
@[simp] theorem State.markPending_iq (s : State) (r : Reg) : (s.markPending r).iq = s.iq := rfl
@[simp] theorem State.markPending_stg (s : State) (r : Reg) : (s.markPending r).stg = s.stg := rfl
@[simp] theorem State.markPending_pre (s : State) (r : Reg) : (s.markPending r).pre = s.pre := rfl
@[simp] theorem State.markPending_premem (s : State) (r : Reg) : (s.markPending r).premem = s.premem := rfl
@[simp] theorem State.markPending_postmem (s : State) (r : Reg) : (s.markPending r).postmem = s.postmem := rfl
@[simp] theorem State.markPending_postAdd (s : State) (r : Reg) : (s.markPending r).postAdd = s.postAdd := rfl
@[simp] theorem State.markPending_postLog (s : State) (r : Reg) : (s.markPending r).postLog = s.postLog := rfl
@[simp] theorem State.markPending_mem (s : State) (r : Reg) : (s.markPending r).mem = s.mem := rfl
@[simp] theorem State.markPending_map (s : State) (r : Reg) : (s.markPending r).map = s.map := rfl
@[simp] theorem State.markPending_par (s : State) (r : Reg) : (s.markPending r).par = s.par := rfl
@[simp] theorem State.markPending_cycle (s : State) (r : Reg) : (s.markPending r).cycle = s.cycle := rfl
@[simp] theorem State.markPending_halted (s : State) (r : Reg) : (s.markPending r).halted = s.halted := rfl
@[simp] theorem State.markPending_fault (s : State) (r : Reg) : (s.markPending r).fault = s.fault := rfl
@[simp] theorem State.markPending_stage (s : State) (r : Reg) : (s.markPending r).stage = s.stage := rfl

@[simp] theorem State.write_pc (s : State) (r : Reg) (v : Word) : (s.write r v).pc = s.pc := by unfold State.write; split <;> rfl
@[simp] theorem State.write_wbr (s : State) (r : Reg) (v : Word) : (s.write r v).wbr = s.wbr := by unfold State.write; split <;> rfl
@[simp] theorem State.write_fx (s : State) (r : Reg) (v : Word) : (s.write r v).fx = s.fx := by unfold State.write; split <;> rfl
@[simp] theorem State.write_iq (s : State) (r : Reg) (v : Word) : (s.write r v).iq = s.iq := by unfold State.write; split <;> rfl
@[simp] theorem State.write_stg (s : State) (r : Reg) (v : Word) : (s.write r v).stg = s.stg := by unfold State.write; split <;> rfl
@[simp] theorem State.write_pre (s : State) (r : Reg) (v : Word) : (s.write r v).pre = s.pre := by unfold State.write; split <;> rfl
@[simp] theorem State.write_premem (s : State) (r : Reg) (v : Word) : (s.write r v).premem = s.premem := by unfold State.write; split <;> rfl
@[simp] theorem State.write_postmem (s : State) (r : Reg) (v : Word) : (s.write r v).postmem = s.postmem := by unfold State.write; split <;> rfl
@[simp] theorem State.write_postAdd (s : State) (r : Reg) (v : Word) : (s.write r v).postAdd = s.postAdd := by unfold State.write; split <;> rfl
@[simp] theorem State.write_postLog (s : State) (r : Reg) (v : Word) : (s.write r v).postLog = s.postLog := by unfold State.write; split <;> rfl
@[simp] theorem State.write_mem (s : State) (r : Reg) (v : Word) : (s.write r v).mem = s.mem := by unfold State.write; split <;> rfl
@[simp] theorem State.write_map (s : State) (r : Reg) (v : Word) : (s.write r v).map = s.map := by unfold State.write; split <;> rfl
@[simp] theorem State.write_par (s : State) (r : Reg) (v : Word) : (s.write r v).par = s.par := by unfold State.write; split <;> rfl
@[simp] theorem State.write_cycle (s : State) (r : Reg) (v : Word) : (s.write r v).cycle = s.cycle := by unfold State.write; split <;> rfl
@[simp] theorem State.write_halted (s : State) (r : Reg) (v : Word) : (s.write r v).halted = s.halted := by unfold State.write; split <;> rfl
@[simp] theorem State.write_fault (s : State) (r : Reg) (v : Word) : (s.write r v).fault = s.fault := by unfold State.write; split <;> rfl
@[simp] theorem State.write_stage (s : State) (r : Reg) (v : Word) : (s.write r v).stage = s.stage := by unfold State.write; split <;> rfl

@[simp] theorem State.setPost_x (s : State) (l : PostLatch) (e : Option ResEntry) : (s.setPost l e).x = s.x := by cases l <;> rfl
@[simp] theorem State.setPost_willwrite (s : State) (l : PostLatch) (e : Option ResEntry) : (s.setPost l e).willwrite = s.willwrite := by cases l <;> rfl
@[simp] theorem State.setPost_pc (s : State) (l : PostLatch) (e : Option ResEntry) : (s.setPost l e).pc = s.pc := by cases l <;> rfl
@[simp] theorem State.setPost_wbr (s : State) (l : PostLatch) (e : Option ResEntry) : (s.setPost l e).wbr = s.wbr := by cases l <;> rfl
@[simp] theorem State.setPost_fx (s : State) (l : PostLatch) (e : Option ResEntry) : (s.setPost l e).fx = s.fx := by cases l <;> rfl
@[simp] theorem State.setPost_iq (s : State) (l : PostLatch) (e : Option ResEntry) : (s.setPost l e).iq = s.iq := by cases l <;> rfl
@[simp] theorem State.setPost_stg (s : State) (l : PostLatch) (e : Option ResEntry) : (s.setPost l e).stg = s.stg := by cases l <;> rfl
@[simp] theorem State.setPost_pre (s : State) (l : PostLatch) (e : Option ResEntry) : (s.setPost l e).pre = s.pre := by cases l <;> rfl
@[simp] theorem State.setPost_premem (s : State) (l : PostLatch) (e : Option ResEntry) : (s.setPost l e).premem = s.premem := by cases l <;> rfl
@[simp] theorem State.setPost_mem (s : State) (l : PostLatch) (e : Option ResEntry) : (s.setPost l e).mem = s.mem := by cases l <;> rfl
@[simp] theorem State.setPost_map (s : State) (l : PostLatch) (e : Option ResEntry) : (s.setPost l e).map = s.map := by cases l <;> rfl
@[simp] theorem State.setPost_par (s : State) (l : PostLatch) (e : Option ResEntry) : (s.setPost l e).par = s.par := by cases l <;> rfl
@[simp] theorem State.setPost_cycle (s : State) (l : PostLatch) (e : Option ResEntry) : (s.setPost l e).cycle = s.cycle := by cases l <;> rfl
@[simp] theorem State.setPost_halted (s : State) (l : PostLatch) (e : Option ResEntry) : (s.setPost l e).halted = s.halted := by cases l <;> rfl
@[simp] theorem State.setPost_fault (s : State) (l : PostLatch) (e : Option ResEntry) : (s.setPost l e).fault = s.fault := by cases l <;> rfl
@[simp] theorem State.setPost_stage (s : State) (l : PostLatch) (e : Option ResEntry) : (s.setPost l e).stage = s.stage := by cases l <;> rfl

@[simp] theorem housekeeping_x (s : State) : (housekeeping s).x = s.x := rfl
@[simp] theorem housekeeping_willwrite (s : State) : (housekeeping s).willwrite = s.willwrite := rfl
@[simp] theorem housekeeping_pc (s : State) : (housekeeping s).pc = s.pc := rfl
@[simp] theorem housekeeping_wbr (s : State) : (housekeeping s).wbr = s.wbr := rfl
@[simp] theorem housekeeping_iq (s : State) : (housekeeping s).iq = s.iq := rfl
@[simp] theorem housekeeping_stg (s : State) : (housekeeping s).stg = s.stg := rfl
@[simp] theorem housekeeping_pre (s : State) : (housekeeping s).pre = s.pre := rfl
@[simp] theorem housekeeping_premem (s : State) : (housekeeping s).premem = s.premem := rfl
@[simp] theorem housekeeping_postmem (s : State) : (housekeeping s).postmem = s.postmem := rfl
@[simp] theorem housekeeping_postAdd (s : State) : (housekeeping s).postAdd = s.postAdd := rfl
@[simp] theorem housekeeping_postLog (s : State) : (housekeeping s).postLog = s.postLog := rfl
@[simp] theorem housekeeping_mem (s : State) : (housekeeping s).mem = s.mem := rfl
@[simp] theorem housekeeping_map (s : State) : (housekeeping s).map = s.map := rfl
@[simp] theorem housekeeping_par (s : State) : (housekeeping s).par = s.par := rfl
@[simp] theorem housekeeping_halted (s : State) : (housekeeping s).halted = s.halted := rfl
@[simp] theorem housekeeping_fault (s : State) : (housekeeping s).fault = s.fault := rfl
@[simp] theorem housekeeping_stage (s : State) : (housekeeping s).stage = s.stage := rfl
@[simp] theorem housekeeping_cycle (s : State) : (housekeeping s).cycle = s.cycle + 1 := rfl
@[simp] theorem housekeeping_fx (s : State) : (housekeeping s).fx = none := rfl

@[simp] theorem rotate_x (s : State) : (rotate s).x = s.x := rfl
@[simp] theorem rotate_willwrite (s : State) : (rotate s).willwrite = s.willwrite := rfl
@[simp] theorem rotate_pc (s : State) : (rotate s).pc = s.pc := rfl
@[simp] theorem rotate_wbr (s : State) : (rotate s).wbr = s.wbr := rfl
@[simp] theorem rotate_fx (s : State) : (rotate s).fx = s.fx := rfl
@[simp] theorem rotate_iq (s : State) : (rotate s).iq = s.iq := rfl
@[simp] theorem rotate_premem (s : State) : (rotate s).premem = s.premem := rfl
@[simp] theorem rotate_postmem (s : State) : (rotate s).postmem = s.postmem := rfl
@[simp] theorem rotate_postAdd (s : State) : (rotate s).postAdd = s.postAdd := rfl
@[simp] theorem rotate_postLog (s : State) : (rotate s).postLog = s.postLog := rfl
@[simp] theorem rotate_mem (s : State) : (rotate s).mem = s.mem := rfl
@[simp] theorem rotate_map (s : State) : (rotate s).map = s.map := rfl
@[simp] theorem rotate_par (s : State) : (rotate s).par = s.par := rfl
@[simp] theorem rotate_cycle (s : State) : (rotate s).cycle = s.cycle := rfl
@[simp] theorem rotate_halted (s : State) : (rotate s).halted = s.halted := rfl
@[simp] theorem rotate_fault (s : State) : (rotate s).fault = s.fault := rfl
@[simp] theorem rotate_stage (s : State) : (rotate s).stage = s.stage := rfl
@[simp] theorem rotate_stg (s : State) : (rotate s).stg = noEntries := rfl
@[simp] theorem rotate_pre (s : State) : (rotate s).pre = s.stg := rfl

@[simp] theorem State.recordFault_x (s : State) (r : Fault) : (s.recordFault r).x = s.x := rfl
@[simp] theorem State.recordFault_willwrite (s : State) (r : Fault) : (s.recordFault r).willwrite = s.willwrite := rfl
@[simp] theorem State.recordFault_pc (s : State) (r : Fault) : (s.recordFault r).pc = s.pc := rfl
@[simp] theorem State.recordFault_wbr (s : State) (r : Fault) : (s.recordFault r).wbr = s.wbr := rfl
@[simp] theorem State.recordFault_fx (s : State) (r : Fault) : (s.recordFault r).fx = s.fx := rfl
@[simp] theorem State.recordFault_iq (s : State) (r : Fault) : (s.recordFault r).iq = s.iq := rfl
@[simp] theorem State.recordFault_stg (s : State) (r : Fault) : (s.recordFault r).stg = s.stg := rfl
@[simp] theorem State.recordFault_pre (s : State) (r : Fault) : (s.recordFault r).pre = s.pre := rfl
@[simp] theorem State.recordFault_premem (s : State) (r : Fault) : (s.recordFault r).premem = s.premem := rfl
@[simp] theorem State.recordFault_postmem (s : State) (r : Fault) : (s.recordFault r).postmem = s.postmem := rfl
@[simp] theorem State.recordFault_postAdd (s : State) (r : Fault) : (s.recordFault r).postAdd = s.postAdd := rfl
@[simp] theorem State.recordFault_postLog (s : State) (r : Fault) : (s.recordFault r).postLog = s.postLog := rfl
@[simp] theorem State.recordFault_mem (s : State) (r : Fault) : (s.recordFault r).mem = s.mem := rfl
@[simp] theorem State.recordFault_map (s : State) (r : Fault) : (s.recordFault r).map = s.map := rfl
@[simp] theorem State.recordFault_par (s : State) (r : Fault) : (s.recordFault r).par = s.par := rfl
@[simp] theorem State.recordFault_cycle (s : State) (r : Fault) : (s.recordFault r).cycle = s.cycle := rfl
@[simp] theorem State.recordFault_halted (s : State) (r : Fault) : (s.recordFault r).halted = s.halted := rfl
@[simp] theorem State.recordFault_stage (s : State) (r : Fault) : (s.recordFault r).stage = s.stage := rfl
@[simp] theorem State.recordFault_fault (s : State) (r : Fault) : (s.recordFault r).fault = some r := rfl

/-! ### Latches -/

@[simp] theorem PerUnit.get_addr {α : Type} (p : PerUnit α) : p.get .addr = p.addr := rfl
@[simp] theorem PerUnit.get_add {α : Type} (p : PerUnit α) : p.get .add = p.add := rfl
@[simp] theorem PerUnit.get_log {α : Type} (p : PerUnit α) : p.get .log = p.log := rfl
@[simp] theorem PerUnit.set_addr {α : Type} (p : PerUnit α) (v : α) : p.set .addr v = { p with addr := v } := rfl
@[simp] theorem PerUnit.set_add {α : Type} (p : PerUnit α) (v : α) : p.set .add v = { p with add := v } := rfl
@[simp] theorem PerUnit.set_log {α : Type} (p : PerUnit α) (v : α) : p.set .log v = { p with log := v } := rfl
@[simp] theorem PerUnit.get_set_same {α : Type} (p : PerUnit α) (u : FU) (v : α) : (p.set u v).get u = v := by
  cases u <;> rfl
theorem PerUnit.get_set_ne {α : Type} (p : PerUnit α) (v : α) {u w : FU} (h : w ≠ u) : (p.set u v).get w = p.get w := by
  cases u <;> cases w <;> first | rfl | exact absurd rfl h
theorem PerUnit.get_set {α : Type} (p : PerUnit α) (u w : FU) (v : α) :
    (p.set u v).get w = if w = u then v else p.get w := by
  split
  · subst_vars; simp
  · exact PerUnit.get_set_ne _ _ ‹_›
@[simp] theorem noEntries_get (u : FU) : noEntries.get u = none := by cases u <;> rfl
@[simp] theorem noEntries_addr : noEntries.addr = none := rfl
@[simp] theorem noEntries_add : noEntries.add = none := rfl
@[simp] theorem noEntries_log : noEntries.log = none := rfl
theorem eq_noEntries {p : PerUnit (Option OpEntry)} (h : ∀ u, p.get u = none) : p = noEntries := by
  cases p; simpa [noEntries] using And.intro (h .addr) (And.intro (h .add) (h .log))
@[simp] theorem Alu.unit_add : Alu.unit .add = .add := rfl
@[simp] theorem Alu.unit_log : Alu.unit .log = .log := rfl
@[simp] theorem Alu.post_add : Alu.post .add = .add := rfl
@[simp] theorem Alu.post_log : Alu.post .log = .log := rfl
@[simp] theorem State.post_mem (s : State) : s.post .mem = s.postmem := rfl
@[simp] theorem State.post_add (s : State) : s.post .add = s.postAdd := rfl
@[simp] theorem State.post_log (s : State) : s.post .log = s.postLog := rfl
@[simp] theorem State.setPost_memLatch (s : State) (e : Option ResEntry) : s.setPost .mem e = { s with postmem := e } := rfl
@[simp] theorem State.setPost_addLatch (s : State) (e : Option ResEntry) : s.setPost .add e = { s with postAdd := e } := rfl
@[simp] theorem State.setPost_logLatch (s : State) (e : Option ResEntry) : s.setPost .log e = { s with postLog := e } := rfl
@[simp] theorem State.post_setPost_same (s : State) (l : PostLatch) (e : Option ResEntry) : (s.setPost l e).post l = e := by
  cases l <;> rfl
theorem State.post_setPost_ne (s : State) (e : Option ResEntry) {l k : PostLatch} (h : k ≠ l) :
    (s.setPost l e).post k = s.post k := by
  cases l <;> cases k <;> first | rfl | exact absurd rfl h

/-! ### Outcomes -/

@[simp] theorem andThen_next {σ τ : Type} (s : σ) (f : σ → Result τ) : andThen (.next s) f = f s := rfl
@[simp] theorem andThen_fault {σ τ : Type} (r : Fault) (f : σ → Result τ) : andThen (.fault r) f = .fault r := rfl
@[simp] theorem andThen_refused {σ τ : Type} (r : Refusal) (f : σ → Result τ) : andThen (.refused r) f = .refused r := rfl
@[simp] theorem raise_eq {σ : Type} (r : Fault) : (raise r : Result σ) = .fault r := rfl

/-- A chain that answers a next state answered one at its first link. -/
theorem andThen_eq_next {σ τ : Type} {o : Result σ} {f : σ → Result τ} {t : τ} :
    andThen o f = .next t ↔ ∃ s, o = .next s ∧ f s = .next t := by
  cases o <;> simp

/-- A chain faults at its first link or after it. -/
theorem andThen_eq_fault {σ τ : Type} {o : Result σ} {f : σ → Result τ} {r : Fault} :
    andThen o f = .fault r ↔ o = .fault r ∨ ∃ s, o = .next s ∧ f s = .fault r := by
  cases o <;> simp

/-- A chain refuses at its first link or after it. -/
theorem andThen_eq_refused {σ τ : Type} {o : Result σ} {f : σ → Result τ} {r : Refusal} :
    andThen o f = .refused r ↔ o = .refused r ∨ ∃ s, o = .next s ∧ f s = .refused r := by
  cases o <;> simp

end Sys2Proof.Machine
end

