-- ==== Sys2Proof/Laws/Registers.lean ====
section
/-! SUPPORT. The laws of the register file, the scoreboard bits and the register masks (R11, R22 to R26, R89). -/

namespace Sys2Proof.Machine

/-! ### Masks -/

@[simp] theorem regBit_zero : regBit 0 = 0 := rfl

/-- Bit `q` of the mask of one register. -/
theorem getLsbD_regBit (r q : Reg) : (regBit r).getLsbD q = (decide (q = r) && decide (r ≠ 0)) := by
  unfold regBit
  split
  · subst_vars; simp
  · rw [BitVec.getLsbD_twoPow]
    have hq := q.isLt
    by_cases h : q = r
    · subst h; simp [*]
    · have : r.val ≠ q.val := fun hc => h (Fin.ext hc.symm)
      simp [h, this]

/-- Bit `q` of the mask of a list of registers. -/
theorem getLsbD_maskOf (rs : List Reg) (q : Reg) : (maskOf rs).getLsbD q = (decide (q ∈ rs) && decide (q ≠ 0)) := by
  induction rs with
  | nil => simp [maskOf]
  | cons r rs ih =>
    have h : maskOf (r :: rs) = regBit r ||| maskOf rs := rfl
    rw [h, BitVec.getLsbD_or, ih, getLsbD_regBit]
    by_cases hq : q = r
    · subst hq; by_cases h0 : q = 0 <;> simp [h0]
    · simp [hq]

theorem getLsbD_srcMask (i : Instr) (q : Reg) : (srcMask i).getLsbD q = (decide (q ∈ srcOf i) && decide (q ≠ 0)) :=
  getLsbD_maskOf _ _

theorem getLsbD_dstMask (i : Instr) (q : Reg) :
    (dstMask i).getLsbD q = (decide (dstOf i = some q) && decide (q ≠ 0)) := by
  rw [dstMask, getLsbD_maskOf]
  simp [eq_comm]

/-- Two masks are equal if they agree on every register. -/
theorem mask_ext {m n : RegMask} (h : ∀ q : Reg, m.getLsbD q = n.getLsbD q) : m = n := by
  apply BitVec.eq_of_getLsbD_eq
  intro i hi
  exact h ⟨i, hi⟩

/-- Two masks meet exactly if a register is in both. -/
theorem meets_iff (m n : RegMask) : meets m n = true ↔ ∃ q : Reg, m.getLsbD q = true ∧ n.getLsbD q = true := by
  unfold meets
  constructor
  · intro h
    by_contra hc
    push Not at hc
    have : m &&& n = 0#32 := by
      apply mask_ext
      intro q
      rw [BitVec.getLsbD_and, BitVec.getLsbD_zero, Bool.and_eq_false_iff, Bool.eq_false_iff, Bool.eq_false_iff]
      by_cases h1 : m.getLsbD q = true
      · exact .inr (hc q h1)
      · exact .inl h1
    rw [this] at h
    exact absurd h (by decide)
  · rintro ⟨q, h1, h2⟩
    simp only [bne_iff_ne, ne_eq]
    intro h0
    have h3 : (m &&& n).getLsbD q = true := by rw [BitVec.getLsbD_and, h1, h2]; rfl
    have h4 : (0#32).getLsbD q = true := by rw [← h3]; exact congrArg (BitVec.getLsbD · _) h0.symm
    rw [BitVec.getLsbD_zero] at h4
    exact absurd h4 (by decide)

theorem not_meets_iff (m n : RegMask) :
    meets m n = false ↔ ∀ q : Reg, m.getLsbD q = true → n.getLsbD q = false := by
  rw [← Bool.not_eq_true, meets_iff, not_exists]
  exact forall_congr' fun q => by rw [not_and, Bool.not_eq_true]

theorem getLsbD_queuedWrites (iq : List Instr) (q : Reg) :
    (queuedWrites iq).getLsbD q = (decide (∃ i ∈ iq, dstOf i = some q) && decide (q ≠ 0)) := by
  induction iq with
  | nil => simp [queuedWrites]
  | cons i iq ih =>
    have h : queuedWrites (i :: iq) = dstMask i ||| queuedWrites iq := rfl
    rw [h, BitVec.getLsbD_or, ih, getLsbD_dstMask]
    by_cases hq : q = 0 <;> simp [hq]

/-! ### Reads and writes -/

@[simp] theorem State.read_zero (s : State) : s.read 0 = 0 := rfl

/-- Reading depends on the stored registers only. -/
theorem State.read_congr {s t : State} (h : t.x = s.x) (r : Reg) : t.read r = s.read r := by
  unfold State.read; rw [h]

theorem State.isPending_congr {s t : State} (h : t.willwrite = s.willwrite) (r : Reg) : t.isPending r = s.isPending r := by
  unfold State.isPending; rw [h]

theorem State.write_zero (s : State) (v : Word) : s.write 0 v = s := rfl

theorem State.read_write_same (s : State) {r : Reg} (h : r ≠ 0) (v : Word) : (s.write r v).read r = v := by
  simp [State.write, State.read, h]

theorem State.read_write_ne (s : State) {r q : Reg} (h : q ≠ r) (v : Word) : (s.write r v).read q = s.read q := by
  unfold State.write
  split
  · rfl
  · unfold State.read
    split
    · rfl
    · simp only [Fin.getElem_fin]
      rw [Vector.getElem_set_ne]
      intro hc
      exact h (Fin.ext hc.symm)

/-- A read after a write (R22, R24). -/
theorem State.read_write (s : State) (r q : Reg) (v : Word) :
    (s.write r v).read q = if q = r ∧ r ≠ 0 then v else s.read q := by
  split
  · rename_i h; rw [h.1]; exact s.read_write_same h.2 v
  · rename_i h
    by_cases hq : q = r
    · have h0 : r = 0 := by by_contra h1; exact h ⟨hq, h1⟩
      subst h0; rfl
    · exact s.read_write_ne hq v

@[simp] theorem State.read_markPending (s : State) (r q : Reg) : (s.markPending r).read q = s.read q := rfl

/-- A scoreboard bit after marking (R23). -/
theorem State.isPending_markPending (s : State) (r q : Reg) :
    (s.markPending r).isPending q = (s.isPending q || (decide (q = r) && decide (r ≠ 0))) := by
  unfold State.markPending State.isPending
  simp only [BitVec.getLsbD_or, getLsbD_regBit]

/-- A scoreboard bit after a register write (R24). -/
theorem State.isPending_write (s : State) (r q : Reg) (v : Word) :
    (s.write r v).isPending q = (s.isPending q && !(decide (q = r) && decide (r ≠ 0))) := by
  unfold State.write
  split
  · subst_vars; simp
  · show (s.willwrite &&& ~~~regBit r).getLsbD q = _
    rw [BitVec.getLsbD_and, BitVec.getLsbD_not, getLsbD_regBit, State.isPending]
    simp [q.isLt]

/-- Marking a destination is or-ing its mask (R102, R106). -/
theorem State.markPending_eq (s : State) (r : Reg) :
    s.markPending r = { s with willwrite := s.willwrite ||| regBit r } := rfl

theorem dstMask_some {i : Instr} {rd : Reg} (h : dstOf i = some rd) : dstMask i = regBit rd := by
  simp [dstMask, h, maskOf]

theorem dstMask_none {i : Instr} (h : dstOf i = none) : dstMask i = 0 := by
  simp [dstMask, h, maskOf]

/-- Register 0 keeps holding 0 (R25). -/
theorem State.write_x_zero (s : State) (r : Reg) (v : Word) (h : s.x[0] = 0) : (s.write r v).x[0] = 0 := by
  unfold State.write
  split
  · exact h
  · rename_i h0
    have : (r : Nat) ≠ 0 := by intro hc; exact h0 (Fin.ext hc)
    simp only []
    rw [Vector.getElem_set_ne _ _ this]
    exact h

end Sys2Proof.Machine
end

