-- ==== Sys2Proof/Laws/Stages.lean ====
section
/-! SUPPORT. What a meaning can do at each stage: if it answers a next state, then this one; and which faults it can raise.
Later proofs cite these and unfold neither exec nor a shared operation. -/

namespace Sys2Proof.Machine

/-- Serving at the fetch stage (R110 to R113). -/
theorem serve_fetch_next {i : Instr} {s t : State} (h : serve .fetch i s = .next t) :
    (isQueued i = true ∧ t = { s with stage := .fetch, iq := s.iq ++ [i], pc := nextPc s.pc }) ∨
    (isBranch i = true ∧ t = { s with stage := .fetch, wbr := some ⟨i, s.pc⟩, pc := nextPc s.pc }) ∨
    (∃ rd imm, i = .jal rd imm ∧
      t = { State.write { s with stage := .fetch } rd (nextPc s.pc) with
        pc := jalTarget s.par.jalBaseOffset s.pc imm, fx := some (.jal rd imm) }) ∨
    (i = .brk ∧ t = { s with stage := .fetch, fx := some .brk }) := by
  cases i
  case jal rd imm => exact .inr (.inr (.inl ⟨rd, imm, rfl, (Host.Outcome.next.inj h).symm⟩))
  case brk => exact .inr (.inr (.inr ⟨rfl, (Host.Outcome.next.inj h).symm⟩))
  case beq => exact .inr (.inl ⟨rfl, (Host.Outcome.next.inj h).symm⟩)
  case bne => exact .inr (.inl ⟨rfl, (Host.Outcome.next.inj h).symm⟩)
  case blt => exact .inr (.inl ⟨rfl, (Host.Outcome.next.inj h).symm⟩)
  all_goals exact .inl ⟨rfl, (Host.Outcome.next.inj h).symm⟩

/-- At the fetch stage every instruction answers a next state. -/
theorem serve_fetch_total (i : Instr) (s : State) : ∃ t, serve .fetch i s = .next t := by
  cases i <;> exact ⟨_, rfl⟩

/-- Serving at the issue stage (R104, R106). -/
theorem serve_issue_next {i : Instr} {s t : State} (h : serve .issue i s = .next t) :
    ∃ u, unitOf i = some u ∧
      t = { s with
        stage := .issue
        stg := s.stg.set u (some ⟨i, (capturedOperands i s).1, (capturedOperands i s).2⟩)
        willwrite := s.willwrite ||| dstMask i } := by
  cases i
  case sw rs1 rs2 imm =>
    refine ⟨.addr, rfl, ?_⟩
    rw [dstMask_none rfl, show s.willwrite ||| (0 : RegMask) = s.willwrite from BitVec.or_zero]
    exact (Host.Outcome.next.inj h).symm
  all_goals first
    | exact ⟨_, rfl, by rw [dstMask_some rfl]; exact (Host.Outcome.next.inj h).symm⟩
    | exact nomatch h

/-- Serving a queued instruction at the issue stage answers a next state. -/
theorem serve_issue_total {i : Instr} (hi : isQueued i = true) (s : State) : ∃ t, serve .issue i s = .next t := by
  cases i <;> first | exact ⟨_, rfl⟩ | exact nomatch hi

/-- Serving at the resolution stage (R115). -/
theorem serve_resolve_next {i : Instr} {s t : State} (h : serve .resolve i s = .next t) :
    isBranch i = true ∧ ∃ b pc, s.wbr = some b ∧ t = { s with stage := .resolve, pc := pc, wbr := none, fx := some i } := by
  cases i
  case beq rs1 rs2 imm =>
    cases hb : s.wbr with
    | none => simp [serve, exec, execBeq, runBranch, resolveBranch, misplaced, hb] at h
    | some b =>
      simp only [serve, exec, execBeq, runBranch, resolveBranch, hb, Host.Outcome.next.injEq] at h
      exact ⟨rfl, b, _, rfl, h.symm⟩
  case bne rs1 rs2 imm =>
    cases hb : s.wbr with
    | none => simp [serve, exec, execBne, runBranch, resolveBranch, misplaced, hb] at h
    | some b =>
      simp only [serve, exec, execBne, runBranch, resolveBranch, hb, Host.Outcome.next.injEq] at h
      exact ⟨rfl, b, _, rfl, h.symm⟩
  case blt rs1 rs2 imm =>
    cases hb : s.wbr with
    | none => simp [serve, exec, execBlt, runBranch, resolveBranch, misplaced, hb] at h
    | some b =>
      simp only [serve, exec, execBlt, runBranch, resolveBranch, hb, Host.Outcome.next.injEq] at h
      exact ⟨rfl, b, _, rfl, h.symm⟩
  all_goals exact nomatch h

/-- Serving a waiting branch at the resolution stage answers a next state. -/
theorem serve_resolve_total {i : Instr} (hi : isBranch i = true) {s : State} (hb : s.wbr.isSome = true) :
    ∃ t, serve .resolve i s = .next t := by
  obtain ⟨b, hb⟩ := Option.isSome_iff_exists.mp hb
  cases i <;> first
    | (cases hi; done)
    | simp [serve, exec, execBeq, execBne, execBlt, runBranch, resolveBranch, hb]

/-- Retiring is the only thing done at writeback, and only by an instruction that the latch is for. -/
theorem serve_writeback (i : Instr) (l : PostLatch) (s : State) :
    (latchOf i = some l ∧ ∃ rd, dstOf i = some rd ∧
      serve (.writeback l) i s = retire l i rd { s with stage := .writeback l }) ∨
    (latchOf i ≠ some l ∧ serve (.writeback l) i s = .fault (.misplaced (.writeback l) i)) := by
  cases i <;> cases l <;> first | exact .inl ⟨rfl, _, rfl, rfl⟩ | exact .inr ⟨by decide, rfl⟩ | exact .inr ⟨nofun, rfl⟩

/-- An instruction that is written back has a destination. -/
theorem dstOf_isSome_of_latchOf {i : Instr} {l : PostLatch} (h : latchOf i = some l) : (dstOf i).isSome = true := by
  cases i <;> first | rfl | exact nomatch h

/-- Serving at writeback (R116). -/
theorem serve_writeback_next {i : Instr} {l : PostLatch} {s t : State} (h : serve (.writeback l) i s = .next t) :
    latchOf i = some l ∧ ∃ rd e, dstOf i = some rd ∧ s.post l = some e ∧
      t = (State.write { s with stage := .writeback l } rd e.result).setPost l none := by
  rcases serve_writeback i l s with ⟨hl, rd, hd, hs⟩ | ⟨hl, hs⟩
  · rw [hs] at h
    cases hp : s.post l with
    | none =>
      have : State.post { s with stage := .writeback l } l = none := by cases l <;> exact hp
      simp [retire, this, misplaced] at h
    | some e =>
      have : State.post { s with stage := .writeback l } l = some e := by cases l <;> exact hp
      simp only [retire, this, Host.Outcome.next.injEq] at h
      exact ⟨hl, rd, e, hd, rfl, h.symm⟩
  · rw [hs] at h; exact nomatch h

theorem serve_writeback_total {i : Instr} {l : PostLatch} {s : State} (hd : latchOf i = some l)
    (hp : (s.post l).isSome = true) : ∃ t, serve (.writeback l) i s = .next t := by
  obtain ⟨e, he⟩ := Option.isSome_iff_exists.mp hp
  rcases serve_writeback i l s with ⟨_, rd, _, hs⟩ | ⟨hn, _⟩
  · have : State.post { s with stage := .writeback l } l = some e := by cases l <;> exact he
    rw [hs]
    simp [retire, this]
  · exact absurd hd hn

/-- Serving at the memory stage (R117). -/
theorem serve_memory_next {i : Instr} {s t : State} (h : serve .memory i s = .next t) :
    ∃ m, s.premem = some m ∧
      ((isLoad i = true ∧ s.map.readable m.addr = true ∧
          t = { s with stage := .memory, postmem := some ⟨i, s.mem.readWord m.addr.toNat⟩, premem := none }) ∨
       (isLoad i = false ∧ (∃ rs1 rs2 imm, i = .sw rs1 rs2 imm) ∧ s.map.writable m.addr = true ∧
          t = { s with stage := .memory, mem := s.mem.writeWord m.addr.toNat m.val, premem := none })) := by
  cases i
  case sw rs1 rs2 imm =>
    cases hm : s.premem with
    | none => simp [serve, exec, execSw, storeStage, misplaced, hm] at h
    | some m =>
      simp only [serve, exec, execSw, storeStage, State.memWrite, hm] at h
      split at h
      · simp only [andThen_next, Host.Outcome.next.injEq] at h
        exact ⟨m, rfl, .inr ⟨rfl, ⟨_, _, _, rfl⟩, ‹_›, h.symm⟩⟩
      · simp at h
  case lw rd rs1 imm =>
    cases hm : s.premem with
    | none => simp [serve, exec, execLw, loadStage, misplaced, hm] at h
    | some m =>
      simp only [serve, exec, execLw, loadStage, State.memRead, hm] at h
      split at h
      · simp only [andThen_next, Host.Outcome.next.injEq] at h
        exact ⟨m, rfl, .inl ⟨rfl, ‹_›, h.symm⟩⟩
      · simp at h
  all_goals exact nomatch h

/-- The faults of the memory stage for an instruction of the address unit (R183). -/
theorem serve_memory_fault {i : Instr} {s : State} {m : MemEntry} {r : Fault} (hi : unitOf i = some .addr)
    (hm : s.premem = some m) (h : serve .memory i s = .fault r) :
    (isLoad i = true ∧ s.map.readable m.addr = false ∧ r = .memFault m.addr .read) ∨
    (isLoad i = false ∧ s.map.writable m.addr = false ∧ r = .memFault m.addr .write) := by
  cases i
  case sw rs1 rs2 imm =>
    simp only [serve, exec, execSw, storeStage, State.memWrite, hm] at h
    split at h
    · simp at h
    · simp only [raise_eq, andThen_fault, Host.Outcome.fault.injEq] at h
      exact .inr ⟨rfl, Bool.eq_false_iff.mpr ‹_›, h.symm⟩
  case lw rd rs1 imm =>
    simp only [serve, exec, execLw, loadStage, State.memRead, hm] at h
    split at h
    · simp at h
    · simp only [raise_eq, andThen_fault, Host.Outcome.fault.injEq] at h
      exact .inl ⟨rfl, Bool.eq_false_iff.mpr ‹_›, h.symm⟩
  all_goals exact nomatch hi

/-- An instruction of another unit, or of none, is stuck at the execute stage of a unit. -/
theorem serve_execute_other {i : Instr} {u : Alu} (h : unitOf i ≠ some u.unit) (s : State) :
    serve (.execute u) i s = .fault (.misplaced (.execute u) i) := by
  cases u <;> cases i <;> first | rfl | exact absurd rfl h

/-- What executing comes to for the instructions of a computing unit, with the arithmetic of the rules (R118). -/
theorem serve_execute_own {i : Instr} {u : Alu} (h : unitOf i = some u.unit) (s : State) :
    ∃ f : Word → Word → Word, (∀ a b, aluTable s.par.shamtBits i a b = some (f a b)) ∧
      serve (.execute u) i s = executeIn u i f { s with stage := .execute u } := by
  cases i
  case add rd rs1 rs2 =>
    obtain rfl : u = .add := by cases u <;> first | rfl | exact nomatch h
    exact ⟨_, fun a b => by rw [aluTable, BitVec.add_def], rfl⟩
  case sub rd rs1 rs2 =>
    obtain rfl : u = .add := by cases u <;> first | rfl | exact nomatch h
    refine ⟨_, fun a b => ?_, rfl⟩
    rw [aluTable]
    congr 1
    apply BitVec.eq_of_toInt_eq
    rw [BitVec.toInt_ofInt, BitVec.toInt_sub]
  case addi rd rs1 imm =>
    obtain rfl : u = .add := by cases u <;> first | rfl | exact nomatch h
    exact ⟨_, fun a b => by rw [aluTable, BitVec.add_def], rfl⟩
  case and rd rs1 rs2 =>
    obtain rfl : u = .log := by cases u <;> first | rfl | exact nomatch h
    exact ⟨_, fun a b => by rw [aluTable, ← BitVec.toNat_and, BitVec.ofNat_toNat, BitVec.setWidth_eq], rfl⟩
  case or rd rs1 rs2 =>
    obtain rfl : u = .log := by cases u <;> first | rfl | exact nomatch h
    exact ⟨_, fun a b => by rw [aluTable, ← BitVec.toNat_or, BitVec.ofNat_toNat, BitVec.setWidth_eq], rfl⟩
  case andi rd rs1 imm =>
    obtain rfl : u = .log := by cases u <;> first | rfl | exact nomatch h
    exact ⟨_, fun a b => by rw [aluTable, ← BitVec.toNat_and, BitVec.ofNat_toNat, BitVec.setWidth_eq], rfl⟩
  case ori rd rs1 imm =>
    obtain rfl : u = .log := by cases u <;> first | rfl | exact nomatch h
    exact ⟨_, fun a b => by rw [aluTable, ← BitVec.toNat_or, BitVec.ofNat_toNat, BitVec.setWidth_eq], rfl⟩
  case sll rd rs1 imm =>
    obtain rfl : u = .log := by cases u <;> first | rfl | exact nomatch h
    refine ⟨fun a b => a <<< shiftAmount s.par.shamtBits b, fun a b => ?_, rfl⟩
    rw [aluTable]
    congr 1
    apply BitVec.eq_of_toNat_eq
    rw [BitVec.toNat_ofNat, BitVec.toNat_shiftLeft, Nat.shiftLeft_eq]
    rfl
  case sra rd rs1 imm =>
    obtain rfl : u = .log := by cases u <;> first | rfl | exact nomatch h
    refine ⟨fun a b => a.sshiftRight (shiftAmount s.par.shamtBits b), fun a b => ?_, rfl⟩
    have e : a.sshiftRight (shiftAmount s.par.shamtBits b) = BitVec.ofInt 32 (a.toInt >>> shiftAmount s.par.shamtBits b) :=
      rfl
    rw [Int.shiftRight_eq_div_pow, Nat.cast_pow, Nat.cast_ofNat] at e
    exact congrArg some e.symm
  all_goals cases u <;> exact nomatch h

/-- Serving at the execute stage (R118). -/
theorem serve_execute_next {i : Instr} {u : Alu} {s t : State} (h : serve (.execute u) i s = .next t) :
    unitOf i = some u.unit ∧ ∃ e v, s.pre.get u.unit = some e ∧ aluTable s.par.shamtBits i e.a e.b = some v ∧
      t = State.setPost { s with stage := .execute u, pre := s.pre.set u.unit none } u.post (some ⟨i, v⟩) := by
  by_cases hu : unitOf i = some u.unit
  · obtain ⟨f, hf, hs⟩ := serve_execute_own hu s
    rw [hs] at h
    unfold executeIn at h
    cases hp : s.pre.get u.unit with
    | none => simp [hp, misplaced] at h
    | some e =>
      simp only [hp, Host.Outcome.next.injEq] at h
      exact ⟨hu, e, f e.a e.b, rfl, hf _ _, h.symm⟩
  · rw [serve_execute_other hu] at h; exact nomatch h

theorem serve_execute_total {i : Instr} {u : Alu} {s : State} (hi : unitOf i = some u.unit)
    (hp : (s.pre.get u.unit).isSome = true) : ∃ t, serve (.execute u) i s = .next t := by
  obtain ⟨e, he⟩ := Option.isSome_iff_exists.mp hp
  obtain ⟨f, _, hs⟩ := serve_execute_own hi s
  rw [hs]; simp [executeIn, he]

/-- Serving at the address-advance stage (R119). -/
theorem serve_advance_next {i : Instr} {s t : State} (h : serve .advance i s = .next t) :
    unitOf i = some .addr ∧ ∃ e m, s.pre.addr = some e ∧ m.inst = i ∧ m.val = e.b ∧
      (∀ rd rs1 rs2 imm, i = .lw rd rs1 imm ∨ i = .sw rs1 rs2 imm → m.addr = e.a + imm) ∧
      t = { s with stage := .advance, premem := some m, pre := s.pre.set .addr none } := by
  cases i
  case sw rs1 rs2 imm =>
    cases hp : s.pre.addr with
    | none => simp [serve, exec, execSw, advanceAddress, misplaced, hp] at h
    | some e =>
      simp only [serve, exec, execSw, advanceAddress, hp, Host.Outcome.next.injEq] at h
      refine ⟨rfl, e, ⟨.sw rs1 rs2 imm, effectiveAddress e.a imm, e.b⟩, rfl, rfl, rfl, ?_, h.symm⟩
      rintro rd r1 r2 im (hc | hc)
      · exact nomatch hc
      · cases hc; rfl
  case lw rd rs1 imm =>
    cases hp : s.pre.addr with
    | none => simp [serve, exec, execLw, advanceAddress, misplaced, hp] at h
    | some e =>
      simp only [serve, exec, execLw, advanceAddress, hp, Host.Outcome.next.injEq] at h
      refine ⟨rfl, e, ⟨.lw rd rs1 imm, effectiveAddress e.a imm, e.b⟩, rfl, rfl, rfl, ?_, h.symm⟩
      rintro rd r1 r2 im (hc | hc)
      · cases hc; rfl
      · exact nomatch hc
  all_goals exact nomatch h

theorem serve_advance_total {i : Instr} {s : State} (hi : unitOf i = some .addr) (hp : s.pre.addr.isSome = true) :
    ∃ t, serve .advance i s = .next t := by
  obtain ⟨e, he⟩ := Option.isSome_iff_exists.mp hp
  cases i <;> first
    | (cases hi; done)
    | simp [serve, exec, execSw, execLw, advanceAddress, he]

/-- Serving at the end of the cycle (R122). -/
theorem serve_finish_next {i : Instr} {s t : State} (h : serve .finish i s = .next t) :
    i = .brk ∧ t = { s with stage := .finish, halted := true } := by
  cases i
  case brk => exact ⟨rfl, (Host.Outcome.next.inj h).symm⟩
  all_goals exact nomatch h

/-- No meaning declines an instruction. -/
theorem exec_ne_refused (i : Instr) (s : State) (r : Refusal) : exec i s ≠ .refused r := by
  intro h
  cases hp : s.stage with
  | fetch =>
    have e : serve .fetch i s = exec i s := by rw [serve, ← hp]
    obtain ⟨t, ht⟩ := serve_fetch_total i s
    rw [e, h] at ht; exact nomatch ht
  | issue =>
    cases i <;> simp [exec, execBeq, execBne, execBlt, execSw, execAdd, execSub, execAnd, execOr, execAddi, execAndi,
      execOri, execSll, execSra, execLw, execJal, execBrk, runAlu, runBranch, issueWriter, issueNoWriter, misplaced, hp] at h
  | resolve =>
    cases i <;> simp [exec, execBeq, execBne, execBlt, execSw, execAdd, execSub, execAnd, execOr, execAddi, execAndi,
      execOri, execSll, execSra, execLw, execJal, execBrk, runAlu, runBranch, resolveBranch, misplaced, hp] at h
      <;> split at h <;> simp at h
  | writeback l =>
    have e : serve (.writeback l) i s = exec i s := by rw [serve, ← hp]
    rw [← e] at h
    rcases serve_writeback i l s with ⟨_, rd, _, hs⟩ | ⟨_, hs⟩
    · rw [hs, retire] at h
      split at h <;> simp [misplaced] at h
    · rw [hs] at h; exact nomatch h
  | memory =>
    cases i <;> simp [exec, execBeq, execBne, execBlt, execSw, execAdd, execSub, execAnd, execOr, execAddi, execAndi,
      execOri, execSll, execSra, execLw, execJal, execBrk, runAlu, runBranch, loadStage, storeStage, misplaced, hp,
      State.memRead, State.memWrite] at h
      <;> split at h <;> try (simp at h)
    all_goals split at h <;> simp at h
  | execute u =>
    have e : serve (.execute u) i s = exec i s := by rw [serve, ← hp]
    rw [← e] at h
    by_cases hu : unitOf i = some u.unit
    · obtain ⟨f, _, hs⟩ := serve_execute_own hu s
      rw [hs, executeIn] at h
      split at h <;> simp [misplaced] at h
    · rw [serve_execute_other hu] at h; exact nomatch h
  | advance =>
    cases i <;> simp [exec, execBeq, execBne, execBlt, execSw, execAdd, execSub, execAnd, execOr, execAddi, execAndi,
      execOri, execSll, execSra, execLw, execJal, execBrk, runAlu, runBranch, advanceAddress, misplaced, hp] at h
      <;> split at h <;> simp at h
  | finish =>
    cases i <;> simp [exec, execBeq, execBne, execBlt, execSw, execAdd, execSub, execAnd, execOr, execAddi, execAndi,
      execOri, execSll, execSra, execLw, execJal, execBrk, runAlu, runBranch, misplaced, hp] at h

theorem serve_ne_refused (p : Stage) (i : Instr) (s : State) (r : Refusal) : serve p i s ≠ .refused r :=
  exec_ne_refused i _ r

end Sys2Proof.Machine
end

