-- ==== Sys2Proof/Laws/Engine.lean ====
section
/-! SUPPORT. What each step of the cycle can do: the issue scan and the fetch loop as inductive relations, the other steps as
frames, and a completed cycle as the chain of its steps (R100 to R122). -/

namespace Sys2Proof.Machine

/-! ### The chain -/

/-- A completed cycle is the chain of its steps (R100). -/
theorem step_eq_next {s t : State} :
    step s = .next t ↔ ended s = false ∧ ∃ s1 s2 s3 s4 s5 s6 s7,
      issue (housekeeping s) = .next s1 ∧ fetchDecode s1 = .next s2 ∧ branchStage s2 = .next s3 ∧
      writeback s3 = .next s4 ∧ memoryStage s4 = .next s5 ∧ execute s5 = .next s6 ∧
      addressAdvance s6 = .next s7 ∧ terminationTest (rotate s7) = .next t := by
  unfold step cycleStep
  cases he : ended s with
  | true => simp
  | false =>
    simp only [Bool.false_eq_true, if_false, andThen_eq_next, backEnd, true_and]
    constructor
    · rintro ⟨s1, h1, s2, h2, s3, h3, s4, h4, s5, h5, s6, h6, s7, h7, h8⟩
      exact ⟨s1, s2, s3, s4, s5, s6, s7, h1, h2, h3, h4, h5, h6, h7, h8⟩
    · rintro ⟨s1, s2, s3, s4, s5, s6, s7, h1, h2, h3, h4, h5, h6, h7, h8⟩
      exact ⟨s1, h1, s2, h2, s3, h3, s4, h4, s5, h5, s6, h6, s7, h7, h8⟩

/-- A live core. -/
theorem ended_eq_false {s : State} : ended s = false ↔ s.halted = false ∧ s.fault = none := by
  simp [ended]

/-! ### Step 1 -/

/-- The state after an entry issued to a unit. -/
def afterIssue (u : FU) (i : Instr) (s : State) : State :=
  { s with
    stage := .issue
    stg := s.stg.set u (some ⟨i, (capturedOperands i s).1, (capturedOperands i s).2⟩)
    willwrite := s.willwrite ||| dstMask i }

/-- What a scan that completes did with the entries, one after another (R102). -/
inductive Scanned : Scan → State → List Instr → State → Prop
  | done (sc : Scan) (s : State) : Scanned sc s [] { s with iq := sc.keep }
  | kept {sc : Scan} {s t : State} {i : Instr} {rest : List Instr} :
      blocked sc s i = true → Scanned (sc.block i) s rest t → Scanned sc s (i :: rest) t
  | issued {sc : Scan} {s t : State} {i : Instr} {rest : List Instr} {u : FU} :
      blocked sc s i = false → unitOf i = some u → Scanned sc (afterIssue u i s) rest t → Scanned sc s (i :: rest) t

theorem issueScan_next {sc : Scan} {s t : State} {es : List Instr} (h : issueScan sc s es = .next t) :
    Scanned sc s es t := by
  induction es generalizing sc s with
  | nil => cases Host.Outcome.next.inj h; exact .done sc s
  | cons i rest ih =>
    unfold issueScan at h
    split at h
    · exact .kept ‹_› (ih h)
    · obtain ⟨m, hm, ht⟩ := andThen_eq_next.mp h
      obtain ⟨u, hu, rfl⟩ := serve_issue_next hm
      exact .issued (Bool.eq_false_iff.mpr ‹_›) hu (ih ht)

/-- The issue step, as a scan of the whole queue. -/
theorem issue_next {s t : State} (h : issue s = .next t) : Scanned Scan.start s s.iq t := issueScan_next h

/-- What the issue step leaves alone (R100). -/
structure IssueFrame (s t : State) : Prop where
  x : t.x = s.x
  pc : t.pc = s.pc
  wbr : t.wbr = s.wbr
  fx : t.fx = s.fx
  pre : t.pre = s.pre
  premem : t.premem = s.premem
  postmem : t.postmem = s.postmem
  postAdd : t.postAdd = s.postAdd
  postLog : t.postLog = s.postLog
  mem : t.mem = s.mem
  map : t.map = s.map
  par : t.par = s.par
  cycle : t.cycle = s.cycle
  halted : t.halted = s.halted
  fault : t.fault = s.fault

theorem Scanned.frame {sc : Scan} {s t : State} {es : List Instr} (h : Scanned sc s es t) : IssueFrame s t := by
  induction h with
  | done => constructor <;> rfl
  | kept _ _ ih => exact ih
  | issued _ _ _ ih => cases ih; constructor <;> assumption

/-- The queue after a scan: what was kept before, then what this scan blocked, in order (R105). -/
theorem Scanned.queue {sc : Scan} {s t : State} {es : List Instr} (h : Scanned sc s es t) :
    ∃ kept, t.iq = sc.keep ++ kept ∧ kept.Sublist es := by
  induction h with
  | done => exact ⟨[], by simp, List.Sublist.refl _⟩
  | kept _ _ ih =>
    obtain ⟨k, hk, hs⟩ := ih
    exact ⟨_ :: k, by rw [hk]; simp [Scan.block], hs.cons_cons _⟩
  | issued _ _ _ ih =>
    obtain ⟨k, hk, hs⟩ := ih
    exact ⟨k, hk, hs.cons _⟩

/-- The scan raises no fault of the core and declines nothing. -/
theorem issueScan_fault {sc : Scan} {s : State} {es : List Instr} {r : Fault} (hq : ∀ i ∈ es, isQueued i = true) :
    issueScan sc s es ≠ .fault r := by
  induction es generalizing sc s with
  | nil => exact nofun
  | cons i rest ih =>
    unfold issueScan
    split
    · exact ih fun j hj => hq j (List.mem_cons_of_mem _ hj)
    · obtain ⟨m, hm⟩ := serve_issue_total (hq i List.mem_cons_self) s
      rw [hm, andThen_next]
      exact ih fun j hj => hq j (List.mem_cons_of_mem _ hj)

/-! ### Step 2 -/

/-- The word at `pc` is the instruction `i` under the core's `ENC`. -/
def FetchesAs (s : State) (i : Instr) : Prop :=
  s.map.fetchable s.pc = true ∧ decodeWith s.par.enc (s.mem.readWord s.pc.toNat) = .ok i

theorem fetchDecoded_next {s : State} {i : Instr} : fetchDecoded s = .next i ↔ FetchesAs s i := by
  unfold fetchDecoded FetchesAs State.fetch
  split
  · rw [andThen_next]
    cases hd : decodeWith s.par.enc (s.mem.readWord s.pc.toNat) with
    | ok j => simp only [Host.Outcome.next.injEq, Except.ok.injEq]; tauto
    | error e => simp [raise_eq]
  · rename_i h
    simp only [raise_eq, andThen_fault, h, Bool.false_eq_true, false_and, reduceCtorEq]

theorem fetchDecoded_fault {s : State} {r : Fault} :
    fetchDecoded s = .fault r ↔
      (s.map.fetchable s.pc = false ∧ r = .fetchFault s.pc) ∨
      (s.map.fetchable s.pc = true ∧ (∃ e, decodeWith s.par.enc (s.mem.readWord s.pc.toNat) = .error e) ∧
        r = .decodeFault s.pc (s.mem.readWord s.pc.toNat)) := by
  unfold fetchDecoded State.fetch
  cases hf : s.map.fetchable s.pc with
  | true =>
    rw [if_pos rfl, andThen_next]
    cases hd : decodeWith s.par.enc (s.mem.readWord s.pc.toNat) with
    | ok j => simp
    | error e => simp [raise_eq, eq_comm]
  | false => simp [raise_eq, eq_comm]

/-- What the fetch loop did, one word after another (R109). -/
inductive Fetched : Nat → State → State → Prop
  | stop (n : Nat) (s : State) : Fetched n s s
  | queued {n : Nat} {s t : State} {i : Instr} : queueFull s = false → FetchesAs s i → isQueued i = true →
      Fetched n { s with stage := .fetch, iq := s.iq ++ [i], pc := nextPc s.pc } t → Fetched (n + 1) s t
  | branch {n : Nat} {s : State} {i : Instr} : queueFull s = false → FetchesAs s i → isBranch i = true →
      Fetched (n + 1) s { s with stage := .fetch, wbr := some ⟨i, s.pc⟩, pc := nextPc s.pc }
  | jal {n : Nat} {s : State} {rd : Reg} {imm : Word} : queueFull s = false → FetchesAs s (.jal rd imm) →
      Fetched (n + 1) s { State.write { s with stage := .fetch } rd (nextPc s.pc) with
        pc := jalTarget s.par.jalBaseOffset s.pc imm, fx := some (.jal rd imm) }
  | brk {n : Nat} {s : State} : queueFull s = false → FetchesAs s .brk →
      Fetched (n + 1) s { s with stage := .fetch, fx := some .brk }

theorem isQueued_of_isBranch {i : Instr} (h : isBranch i = true) : isQueued i = false := by
  cases i <;> first | rfl | cases h

theorem fetchSlots_next {n : Nat} {s t : State} (h : fetchSlots n s = .next t) : Fetched n s t := by
  induction n generalizing s with
  | zero => cases Host.Outcome.next.inj h; exact .stop 0 _
  | succ n ih =>
    unfold fetchSlots at h
    split at h
    · cases Host.Outcome.next.inj h; exact .stop _ _
    · have hf : queueFull s = false := Bool.eq_false_iff.mpr ‹_›
      obtain ⟨i, hi, h⟩ := andThen_eq_next.mp h
      rw [fetchDecoded_next] at hi
      obtain ⟨m, hm, h⟩ := andThen_eq_next.mp h
      rcases serve_fetch_next hm with ⟨hq, rfl⟩ | ⟨hb, rfl⟩ | ⟨rd, imm, rfl, rfl⟩ | ⟨rfl, rfl⟩
      · rw [if_pos hq] at h; exact .queued hf hi hq (ih h)
      · rw [isQueued_of_isBranch hb] at h
        cases Host.Outcome.next.inj h; exact .branch hf hi hb
      · cases Host.Outcome.next.inj h; exact .jal hf hi
      · cases Host.Outcome.next.inj h; exact .brk hf hi

theorem fetchDecode_next {s t : State} (h : fetchDecode s = .next t) :
    (s.wbr.isSome = true ∧ t = s) ∨ (s.wbr = none ∧ Fetched 2 s t) := by
  unfold fetchDecode at h
  split at h
  · exact .inl ⟨‹_›, (Host.Outcome.next.inj h).symm⟩
  · rename_i hn
    exact .inr ⟨Option.not_isSome_iff_eq_none.mp hn, fetchSlots_next h⟩

/-- What the fetch step leaves alone (R100). -/
structure FetchFrame (s t : State) : Prop where
  stg : t.stg = s.stg
  pre : t.pre = s.pre
  premem : t.premem = s.premem
  postmem : t.postmem = s.postmem
  postAdd : t.postAdd = s.postAdd
  postLog : t.postLog = s.postLog
  mem : t.mem = s.mem
  map : t.map = s.map
  par : t.par = s.par
  cycle : t.cycle = s.cycle
  halted : t.halted = s.halted
  fault : t.fault = s.fault

theorem Fetched.frame {n : Nat} {s t : State} (h : Fetched n s t) : FetchFrame s t := by
  induction h with
  | stop => constructor <;> rfl
  | queued _ _ _ _ ih => cases ih; constructor <;> assumption
  | branch => constructor <;> rfl
  | jal => constructor <;> simp
  | brk => constructor <;> rfl

theorem fetchDecode_frame {s t : State} (h : fetchDecode s = .next t) : FetchFrame s t := by
  rcases fetchDecode_next h with ⟨_, rfl⟩ | ⟨_, h⟩
  · constructor <;> rfl
  · exact h.frame

/-- The fetch loop appends at most as many instructions as it has slots (R109, R110). -/
theorem Fetched.queue {n : Nat} {s t : State} (h : Fetched n s t) :
    ∃ new, t.iq = s.iq ++ new ∧ new.length ≤ n ∧ (∀ i ∈ new, isQueued i = true) ∧
      (∀ i ∈ new, ∃ w, decodeWith s.par.enc w = .ok i) ∧ (s.iq.length ≤ Config.iqDepth → t.iq.length ≤ Config.iqDepth) := by
  induction h with
  | stop => exact ⟨[], by simp⟩
  | @queued n s t i hf hi hq _ ih =>
    obtain ⟨new, h1, h2, h3, h5, h4⟩ := ih
    have hlt : s.iq.length < Config.iqDepth := by simpa [queueFull] using hf
    refine ⟨i :: new, by rw [h1]; simp, by simpa using h2, ?_, ?_, fun _ => h4 (by simpa using hlt)⟩
    · intro j hj
      rcases List.mem_cons.mp hj with rfl | hj
      · exact hq
      · exact h3 j hj
    · intro j hj
      rcases List.mem_cons.mp hj with rfl | hj
      · exact ⟨_, hi.2⟩
      · exact h5 j hj
  | branch => exact ⟨[], by simp⟩
  | jal => exact ⟨[], by simp⟩
  | brk => exact ⟨[], by simp⟩

theorem fetchDecode_queue {s t : State} (h : fetchDecode s = .next t) :
    ∃ new, t.iq = s.iq ++ new ∧ new.length ≤ 2 ∧ (∀ i ∈ new, isQueued i = true) ∧
      (∀ i ∈ new, ∃ w, decodeWith s.par.enc w = .ok i) ∧ (s.iq.length ≤ Config.iqDepth → t.iq.length ≤ Config.iqDepth) := by
  rcases fetchDecode_next h with ⟨_, rfl⟩ | ⟨_, h⟩
  · exact ⟨[], by simp⟩
  · exact h.queue

/-- The fetch loop raises only the fetch side's faults, at `pc` or a later word of this cycle (R182, R184). -/
theorem fetchSlots_fault {n : Nat} {s : State} {r : Fault} (h : fetchSlots n s = .fault r) :
    (∃ a, r = .fetchFault a) ∨ ∃ a w, r = .decodeFault a w := by
  induction n generalizing s with
  | zero => exact nomatch h
  | succ n ih =>
    unfold fetchSlots at h
    split at h
    · exact nomatch h
    · rcases andThen_eq_fault.mp h with h | ⟨i, _, h⟩
      · rcases fetchDecoded_fault.mp h with ⟨_, h⟩ | ⟨_, _, h⟩
        · exact .inl ⟨_, h⟩
        · exact .inr ⟨_, _, h⟩
      · rcases andThen_eq_fault.mp h with h | ⟨m, _, h⟩
        · obtain ⟨m, hm⟩ := serve_fetch_total i s
          rw [hm] at h; exact nomatch h
        · split at h
          · exact ih h
          · exact nomatch h

/-! ### Step 3 -/

/-- What branch resolution can do (R115). -/
theorem branchStage_next {s t : State} (h : branchStage s = .next t) :
    (s.wbr = none ∧ t = s) ∨
    (∃ b, s.wbr = some b ∧ branchReady s b.inst = false ∧ t = s) ∨
    (∃ b pc, s.wbr = some b ∧ branchReady s b.inst = true ∧ isBranch b.inst = true ∧
      t = { s with stage := .resolve, pc := pc, wbr := none, fx := some b.inst }) := by
  unfold branchStage at h
  cases hb : s.wbr with
  | none => rw [hb] at h; exact .inl ⟨rfl, (Host.Outcome.next.inj h).symm⟩
  | some b =>
    rw [hb] at h
    simp only at h
    split at h
    · obtain ⟨hk, b', pc, hb', rfl⟩ := serve_resolve_next h
      rw [hb] at hb'; cases hb'
      exact .inr (.inr ⟨b, pc, rfl, ‹_›, hk, rfl⟩)
    · exact .inr (.inl ⟨b, rfl, Bool.eq_false_iff.mpr ‹_›, (Host.Outcome.next.inj h).symm⟩)

/-- What branch resolution leaves alone (R100). -/
structure BranchFrame (s t : State) : Prop where
  x : t.x = s.x
  willwrite : t.willwrite = s.willwrite
  iq : t.iq = s.iq
  stg : t.stg = s.stg
  pre : t.pre = s.pre
  premem : t.premem = s.premem
  postmem : t.postmem = s.postmem
  postAdd : t.postAdd = s.postAdd
  postLog : t.postLog = s.postLog
  mem : t.mem = s.mem
  map : t.map = s.map
  par : t.par = s.par
  cycle : t.cycle = s.cycle
  halted : t.halted = s.halted
  fault : t.fault = s.fault

theorem branchStage_frame {s t : State} (h : branchStage s = .next t) : BranchFrame s t := by
  rcases branchStage_next h with ⟨_, rfl⟩ | ⟨_, _, _, rfl⟩ | ⟨_, _, _, _, _, rfl⟩ <;> constructor <;> rfl

/-! ### Step 4 -/

/-- The state after a latch was written back, or as it was if the latch was empty (R116). -/
def afterWriteback (l : PostLatch) (s : State) : State :=
  match s.post l with
  | some e => (State.write { s with stage := .writeback l } ((dstOf e.inst).getD 0) e.result).setPost l none
  | none => s

theorem writebackLatch_next {l : PostLatch} {s t : State} (h : writebackLatch l s = .next t) :
    t = afterWriteback l s ∧ ∀ e, s.post l = some e → latchOf e.inst = some l := by
  unfold writebackLatch at h
  unfold afterWriteback
  cases hp : s.post l with
  | none => rw [hp] at h; exact ⟨(Host.Outcome.next.inj h).symm, nofun⟩
  | some e =>
    rw [hp] at h
    obtain ⟨hl, rd, e', hd, he', rfl⟩ := serve_writeback_next h
    rw [hp] at he'; cases he'
    refine ⟨by simp only [hd, Option.getD_some], fun f hf => ?_⟩
    cases hf; exact hl

/-- What writing back one latch leaves alone (R116). -/
structure WritebackFrame (s t : State) : Prop where
  pc : t.pc = s.pc
  wbr : t.wbr = s.wbr
  fx : t.fx = s.fx
  iq : t.iq = s.iq
  stg : t.stg = s.stg
  pre : t.pre = s.pre
  premem : t.premem = s.premem
  mem : t.mem = s.mem
  map : t.map = s.map
  par : t.par = s.par
  cycle : t.cycle = s.cycle
  halted : t.halted = s.halted
  fault : t.fault = s.fault

theorem WritebackFrame.trans {s t u : State} (h : WritebackFrame s t) (k : WritebackFrame t u) : WritebackFrame s u := by
  cases h; cases k; constructor <;> simp_all

theorem afterWriteback_frame (l : PostLatch) (s : State) : WritebackFrame s (afterWriteback l s) := by
  unfold afterWriteback
  split <;> constructor <;> simp

theorem afterWriteback_post (l k : PostLatch) (s : State) :
    (afterWriteback l s).post k = if k = l then none else s.post k := by
  unfold afterWriteback
  split
  · split
    · subst_vars; rw [State.post_setPost_same]
    · rw [State.post_setPost_ne _ _ ‹_›]; cases k <;> simp
  · split
    · subst_vars; assumption
    · rfl

/-- A register after a latch was written back (R24, R116). -/
theorem afterWriteback_read (l : PostLatch) (s : State) (r : Reg) :
    (afterWriteback l s).read r =
      match s.post l with
      | some e => if r = (dstOf e.inst).getD 0 ∧ r ≠ 0 then e.result else s.read r
      | none => s.read r := by
  unfold afterWriteback
  split
  · rename_i e he
    rw [State.read_congr (State.setPost_x _ _ _), State.read_write]
    by_cases h : r = (dstOf e.inst).getD 0
    · rw [h]; rfl
    · simp only [h, false_and, if_false]; rfl
  · rfl

/-- A scoreboard bit after a latch was written back (R24, R116). -/
theorem afterWriteback_isPending (l : PostLatch) (s : State) (r : Reg) :
    (afterWriteback l s).isPending r =
      match s.post l with
      | some e => s.isPending r && !(decide (r = (dstOf e.inst).getD 0) && decide (r ≠ 0))
      | none => s.isPending r := by
  unfold afterWriteback
  split
  · rename_i e he
    rw [State.isPending_congr (State.setPost_willwrite _ _ _), State.isPending_write]
    by_cases h : r = (dstOf e.inst).getD 0
    · rw [h]; rfl
    · simp only [h, decide_false, Bool.false_and]; rfl
  · rfl

/-- Step 4 is its three latches in order (R116). -/
theorem writeback_next {s t : State} (h : writeback s = .next t) :
    t = afterWriteback .log (afterWriteback .add (afterWriteback .mem s)) ∧
    ∀ l e, s.post l = some e → latchOf e.inst = some l := by
  unfold writeback at h
  obtain ⟨a, ha, h⟩ := andThen_eq_next.mp h
  obtain ⟨b, hb, h⟩ := andThen_eq_next.mp h
  obtain ⟨rfl, h1⟩ := writebackLatch_next ha
  obtain ⟨rfl, h2⟩ := writebackLatch_next hb
  obtain ⟨rfl, h3⟩ := writebackLatch_next h
  refine ⟨rfl, fun l e he => ?_⟩
  cases l
  · exact h1 e he
  · exact h2 e (by rw [afterWriteback_post]; exact he)
  · exact h3 e (by rw [afterWriteback_post, if_neg (by decide), afterWriteback_post]; exact he)

theorem writeback_frame {s t : State} (h : writeback s = .next t) : WritebackFrame s t := by
  rw [(writeback_next h).1]
  exact ((afterWriteback_frame _ _).trans (afterWriteback_frame _ _)).trans (afterWriteback_frame _ _)

/-- Every post latch is empty after step 4 (R116). -/
theorem writeback_post {s t : State} (h : writeback s = .next t) (l : PostLatch) : t.post l = none := by
  rw [(writeback_next h).1, afterWriteback_post, afterWriteback_post, afterWriteback_post]
  cases l <;> rfl

/-! ### Step 5 -/

/-- What the memory stage can do (R117). -/
theorem memoryStage_next {s t : State} (h : memoryStage s = .next t) :
    (s.premem = none ∧ t = s) ∨
    (∃ m, s.premem = some m ∧ isLoad m.inst = true ∧ s.map.readable m.addr = true ∧
      t = { s with stage := .memory, postmem := some ⟨m.inst, s.mem.readWord m.addr.toNat⟩, premem := none }) ∨
    (∃ m, s.premem = some m ∧ isLoad m.inst = false ∧ (∃ rs1 rs2 imm, m.inst = .sw rs1 rs2 imm) ∧
      s.map.writable m.addr = true ∧
      t = { s with stage := .memory, mem := s.mem.writeWord m.addr.toNat m.val, premem := none }) := by
  unfold memoryStage at h
  cases hm : s.premem with
  | none => rw [hm] at h; exact .inl ⟨rfl, (Host.Outcome.next.inj h).symm⟩
  | some m =>
    rw [hm] at h
    obtain ⟨m', hm', hc⟩ := serve_memory_next h
    rw [hm] at hm'; cases hm'
    rcases hc with ⟨h1, h2, h3⟩ | ⟨h1, h2, h3, h4⟩
    · exact .inr (.inl ⟨m, rfl, h1, h2, h3⟩)
    · exact .inr (.inr ⟨m, rfl, h1, h2, h3, h4⟩)

/-- What the memory stage leaves alone (R100). -/
structure MemoryFrame (s t : State) : Prop where
  x : t.x = s.x
  willwrite : t.willwrite = s.willwrite
  pc : t.pc = s.pc
  wbr : t.wbr = s.wbr
  fx : t.fx = s.fx
  iq : t.iq = s.iq
  stg : t.stg = s.stg
  pre : t.pre = s.pre
  premem : t.premem = none
  postAdd : t.postAdd = s.postAdd
  postLog : t.postLog = s.postLog
  map : t.map = s.map
  par : t.par = s.par
  cycle : t.cycle = s.cycle
  halted : t.halted = s.halted
  fault : t.fault = s.fault

theorem memoryStage_frame {s t : State} (h : memoryStage s = .next t) : MemoryFrame s t := by
  rcases memoryStage_next h with ⟨h, rfl⟩ | ⟨_, _, _, _, rfl⟩ | ⟨_, _, _, _, _, rfl⟩ <;>
    constructor <;> first | rfl | assumption

/-! ### Step 6 -/

/-- What executing in one unit can do (R118). -/
theorem executeUnit_next {u : Alu} {s t : State} (h : executeUnit u s = .next t) :
    (s.pre.get u.unit = none ∧ t = s) ∨
    (∃ e v, s.pre.get u.unit = some e ∧ unitOf e.inst = some u.unit ∧ aluTable s.par.shamtBits e.inst e.a e.b = some v ∧
      t = State.setPost { s with stage := .execute u, pre := s.pre.set u.unit none } u.post (some ⟨e.inst, v⟩)) := by
  unfold executeUnit at h
  cases hp : s.pre.get u.unit with
  | none => rw [hp] at h; exact .inl ⟨rfl, (Host.Outcome.next.inj h).symm⟩
  | some e =>
    rw [hp] at h
    obtain ⟨hu, e', v, he', hv, rfl⟩ := serve_execute_next h
    rw [hp] at he'; cases he'
    exact .inr ⟨e, v, rfl, hu, hv, rfl⟩

/-- What the execute step leaves alone (R100). -/
structure ExecuteFrame (s t : State) : Prop where
  x : t.x = s.x
  willwrite : t.willwrite = s.willwrite
  pc : t.pc = s.pc
  wbr : t.wbr = s.wbr
  fx : t.fx = s.fx
  iq : t.iq = s.iq
  stg : t.stg = s.stg
  preAddr : t.pre.addr = s.pre.addr
  premem : t.premem = s.premem
  postmem : t.postmem = s.postmem
  mem : t.mem = s.mem
  map : t.map = s.map
  par : t.par = s.par
  cycle : t.cycle = s.cycle
  halted : t.halted = s.halted
  fault : t.fault = s.fault

/-- Step 6: both units' pre latches empty, their results in their post latches, the rest as it was (R118). -/
theorem execute_next {s t : State} (h : execute s = .next t) :
    ExecuteFrame s t ∧ t.pre.add = none ∧ t.pre.log = none ∧
    (s.pre.add = none → t.postAdd = s.postAdd) ∧ (s.pre.log = none → t.postLog = s.postLog) ∧
    (∀ e, s.pre.add = some e → ∃ v, aluTable s.par.shamtBits e.inst e.a e.b = some v ∧ t.postAdd = some ⟨e.inst, v⟩) ∧
    (∀ e, s.pre.log = some e → ∃ v, aluTable s.par.shamtBits e.inst e.a e.b = some v ∧ t.postLog = some ⟨e.inst, v⟩) := by
  unfold execute at h
  obtain ⟨m, hm, hn⟩ := andThen_eq_next.mp h
  clear h
  rcases executeUnit_next hm with ⟨h1, rfl⟩ | ⟨e, v, h1, _, hv, rfl⟩ <;>
    rcases executeUnit_next hn with ⟨h2, rfl⟩ | ⟨e', v', h2, _, hv', rfl⟩ <;>
    simp only [Alu.unit_add, Alu.unit_log, PerUnit.get_add, PerUnit.get_log, PerUnit.set_add, PerUnit.set_log,
      Alu.post_add, Alu.post_log, State.setPost_addLatch, State.setPost_logLatch] at h1 h2 ⊢
  · exact ⟨by constructor <;> rfl, h2, h1, fun _ => by trivial, fun _ => by trivial, by simp [h2], by simp [h1]⟩
  · exact ⟨by constructor <;> rfl, trivial, h1, by simp [h2], fun _ => by trivial,
      fun f hf => by rw [h2] at hf; cases hf; exact ⟨v', hv', rfl⟩, by simp [h1]⟩
  · exact ⟨by constructor <;> rfl, h2, trivial, fun _ => by trivial, by simp [h1], by simp [h2],
      fun f hf => by rw [h1] at hf; cases hf; exact ⟨v, hv, rfl⟩⟩
  · exact ⟨by constructor <;> rfl, trivial, trivial, by simp [h2], by simp [h1],
      fun f hf => by rw [h2] at hf; cases hf; exact ⟨v', hv', rfl⟩,
      fun f hf => by rw [h1] at hf; cases hf; exact ⟨v, hv, rfl⟩⟩

/-! ### Steps 7 to 9 -/

/-- What the address-unit advance can do (R119). -/
theorem addressAdvance_next {s t : State} (h : addressAdvance s = .next t) :
    (s.pre.addr = none ∧ t = s) ∨
    (∃ e m, s.pre.addr = some e ∧ unitOf e.inst = some .addr ∧ m.inst = e.inst ∧ m.val = e.b ∧
      (∀ rd rs1 rs2 imm, e.inst = .lw rd rs1 imm ∨ e.inst = .sw rs1 rs2 imm → m.addr = e.a + imm) ∧
      t = { s with stage := .advance, premem := some m, pre := s.pre.set .addr none }) := by
  unfold addressAdvance at h
  cases hp : s.pre.addr with
  | none => rw [hp] at h; exact .inl ⟨rfl, (Host.Outcome.next.inj h).symm⟩
  | some e =>
    rw [hp] at h
    obtain ⟨hu, e', m, he', h1, h2, h3, rfl⟩ := serve_advance_next h
    rw [hp] at he'; cases he'
    exact .inr ⟨e, m, rfl, hu, h1, h2, h3, rfl⟩

/-- What the address-unit advance leaves alone (R100). -/
structure AdvanceFrame (s t : State) : Prop where
  x : t.x = s.x
  willwrite : t.willwrite = s.willwrite
  pc : t.pc = s.pc
  wbr : t.wbr = s.wbr
  fx : t.fx = s.fx
  iq : t.iq = s.iq
  stg : t.stg = s.stg
  preAddr : t.pre.addr = none
  preAdd : t.pre.add = s.pre.add
  preLog : t.pre.log = s.pre.log
  postmem : t.postmem = s.postmem
  postAdd : t.postAdd = s.postAdd
  postLog : t.postLog = s.postLog
  mem : t.mem = s.mem
  map : t.map = s.map
  par : t.par = s.par
  cycle : t.cycle = s.cycle
  halted : t.halted = s.halted
  fault : t.fault = s.fault

theorem addressAdvance_frame {s t : State} (h : addressAdvance s = .next t) : AdvanceFrame s t := by
  rcases addressAdvance_next h with ⟨h, rfl⟩ | ⟨_, _, _, _, _, _, _, rfl⟩ <;> constructor <;> first | rfl | assumption

/-- The end of the cycle (R122). -/
theorem terminationTest_next {s t : State} (h : terminationTest s = .next t) :
    t = { s with stage := .fetch, halted := if s.fx = some .brk then true else s.halted } := by
  unfold terminationTest at h
  obtain ⟨m, hm, h⟩ := andThen_eq_next.mp h
  cases Host.Outcome.next.inj h
  split at hm
  · obtain ⟨_, rfl⟩ := serve_finish_next hm
    rw [if_pos ‹_›]
  · cases Host.Outcome.next.inj hm
    rw [if_neg ‹_›]

/-- The end of the cycle never stops it. -/
theorem terminationTest_total (s : State) : ∃ t, terminationTest s = .next t := by
  unfold terminationTest
  split
  · have h : serve .finish .brk s = .next { s with stage := .finish, halted := true } := rfl
    simp [h]
  · simp

end Sys2Proof.Machine
end

