-- ==== Sys2Proof/Laws/Image.lean ====
section
/-! SUPPORT. The laws of the code region's length: the scan stops at the first `break` word and nowhere else (R53). -/

namespace Sys2Proof.Machine

/-- A scan that ends has met a `break` word last and none before it, within the image. -/
theorem codeLength_some {e : Enc} {ws : List Word} {n : Nat} (h : codeLength e ws = some n) :
    1 ≤ n ∧ n ≤ ws.length ∧ (∃ w, ws[n - 1]? = some w ∧ isBreakWord e w = true) ∧
      ∀ j v, j < n - 1 → ws[j]? = some v → isBreakWord e v = false := by
  induction ws generalizing n with
  | nil => exact nomatch h
  | cons w ws ih =>
    unfold codeLength at h
    split at h
    · cases h
      exact ⟨le_refl 1, by simp, ⟨w, rfl, ‹_›⟩, fun j v hj _ => absurd hj (by omega)⟩
    · cases hc : codeLength e ws with
      | none => rw [hc] at h; exact nomatch h
      | some m =>
        rw [hc, Option.map_some, Option.some.injEq] at h
        obtain ⟨h1, h2, ⟨v, hv, hb⟩, h4⟩ := ih hc
        subst h
        refine ⟨by omega, by rw [List.length_cons]; omega, ⟨v, ?_, hb⟩, fun j u hj hu => ?_⟩
        · rw [show m + 1 - 1 = m - 1 + 1 by omega, List.getElem?_cons_succ]; exact hv
        · cases j with
          | zero =>
            rw [List.getElem?_cons_zero, Option.some.injEq] at hu
            subst hu
            exact Bool.eq_false_iff.mpr ‹_›
          | succ j => exact h4 j u (by omega) (by rwa [List.getElem?_cons_succ] at hu)

/-- A scan that does not end has met no `break` word. -/
theorem codeLength_none {e : Enc} {ws : List Word} (h : codeLength e ws = none) : ∀ w ∈ ws, isBreakWord e w = false := by
  induction ws with
  | nil => simp
  | cons w ws ih =>
    unfold codeLength at h
    split at h
    · exact nomatch h
    · intro v hv
      rcases List.mem_cons.mp hv with rfl | hv
      · exact Bool.eq_false_iff.mpr ‹_›
      · exact ih (by simpa using h) v hv

end Sys2Proof.Machine
end

