-- ==== Sys2Proof/Laws/Memory.lean ====
section
/-! SUPPORT. The laws of the memory list: every operation keeps the canonical form, a read after a write, and reads elsewhere
(R50, R57, R58). -/

namespace Sys2Proof.Machine

/-! ### The canonical form -/

theorem Memory.wfAbove_cons (k a : Nat) (b : Word) (m : Memory) :
    Memory.wfAbove k ((a, b) :: m) = true ↔ k ≤ a ∧ b ≠ Config.unlistedWord ∧ Memory.wfAbove (a + 1) m = true := by
  simp [Memory.wfAbove, and_assoc]

theorem Memory.wfAbove_mono {j k : Nat} {m : Memory} (hjk : j ≤ k) (h : Memory.wfAbove k m = true) :
    Memory.wfAbove j m = true := by
  cases m with
  | nil => rfl
  | cons c m =>
    obtain ⟨a, b⟩ := c
    rw [Memory.wfAbove_cons] at h ⊢
    exact ⟨by omega, h.2⟩

theorem Memory.consWord_wfAbove {k a : Nat} (b : Word) {m : Memory} (hk : k ≤ a)
    (h : Memory.wfAbove (a + 1) m = true) : Memory.wfAbove k (Memory.consWord a b m) = true := by
  unfold Memory.consWord
  split
  · exact Memory.wfAbove_mono (by omega) h
  · rw [Memory.wfAbove_cons]; exact ⟨hk, ‹_›, h⟩

theorem Memory.writeWord_wfAbove {k a : Nat} (b : Word) {m : Memory} (hk : k ≤ a) (h : Memory.wfAbove k m = true) :
    Memory.wfAbove k (m.writeWord a b) = true := by
  induction m generalizing k with
  | nil => exact Memory.consWord_wfAbove b hk rfl
  | cons c m ih =>
    obtain ⟨d, e⟩ := c
    rw [Memory.wfAbove_cons] at h
    unfold Memory.writeWord
    split
    · refine Memory.consWord_wfAbove b hk ?_
      rw [Memory.wfAbove_cons]
      exact ⟨by omega, h.2⟩
    · split
      · subst_vars; exact Memory.consWord_wfAbove b hk h.2.2
      · rw [Memory.wfAbove_cons]
        exact ⟨h.1, h.2.1, ih (by omega) h.2.2⟩

/-- Writing a word keeps the canonical form. -/
theorem Memory.writeWord_wf {m : Memory} (a : Nat) (b : Word) (h : m.wf = true) : (m.writeWord a b).wf = true :=
  Memory.writeWord_wfAbove b (Nat.zero_le a) h

/-- Writing words keeps the canonical form. -/
theorem Memory.writeWords_wf {m : Memory} (a : Nat) (ws : List Word) (h : m.wf = true) :
    (m.writeWords a ws).wf = true := by
  induction ws generalizing m a with
  | nil => exact h
  | cons w ws ih => exact ih _ (Memory.writeWord_wf a w h)

theorem State.reset_mem_wf : State.reset.mem.wf = true := rfl

/-! ### One word -/

theorem Memory.readWord_below {k a : Nat} {m : Memory} (h : Memory.wfAbove k m = true) (ha : a < k) :
    m.readWord a = Config.unlistedWord := by
  induction m generalizing k with
  | nil => rfl
  | cons c m ih =>
    obtain ⟨d, e⟩ := c
    rw [Memory.wfAbove_cons] at h
    unfold Memory.readWord
    rw [if_neg (by omega)]
    exact ih h.2.2 (by omega)

theorem Memory.readWord_consWord (a c : Nat) (b : Word) (m : Memory) :
    (Memory.consWord a b m).readWord c
      = if b = Config.unlistedWord then m.readWord c else if a = c then b else m.readWord c := by
  unfold Memory.consWord
  split <;> rfl

/-- Reading the word just written (R58). -/
theorem Memory.readWord_writeWord_same {k : Nat} {m : Memory} (a : Nat) (b : Word) (h : Memory.wfAbove k m = true) :
    (m.writeWord a b).readWord a = b := by
  induction m generalizing k with
  | nil =>
    unfold Memory.writeWord
    rw [Memory.readWord_consWord]
    split
    · exact Eq.symm ‹_›
    · simp
  | cons c m ih =>
    obtain ⟨d, e⟩ := c
    have h' := h
    rw [Memory.wfAbove_cons] at h
    unfold Memory.writeWord
    split
    · rw [Memory.readWord_consWord]
      split
      · rename_i hlt hb
        unfold Memory.readWord
        rw [if_neg (by omega), Memory.readWord_below h.2.2 (by omega), hb]
      · simp
    · split
      · subst_vars
        rw [Memory.readWord_consWord]
        split
        · rename_i hb; rw [Memory.readWord_below h.2.2 (by omega), hb]
        · simp
      · unfold Memory.readWord
        rw [if_neg (by omega)]
        exact ih h.2.2

/-- Reading another word than the one written. -/
theorem Memory.readWord_writeWord_ne (m : Memory) {a c : Nat} (b : Word) (h : c ≠ a) :
    (m.writeWord a b).readWord c = m.readWord c := by
  induction m with
  | nil =>
    unfold Memory.writeWord
    rw [Memory.readWord_consWord]
    split
    · rfl
    · rw [if_neg (Ne.symm h)]
  | cons p m ih =>
    obtain ⟨d, e⟩ := p
    unfold Memory.writeWord
    split
    · rw [Memory.readWord_consWord]
      split
      · rfl
      · rw [if_neg (Ne.symm h)]
    · split
      · subst_vars
        rw [Memory.readWord_consWord]
        have : Memory.readWord ((d, e) :: m) c = Memory.readWord m c := by
          rw [Memory.readWord, if_neg (Ne.symm h)]
        rw [this]
        split
        · rfl
        · rw [if_neg (Ne.symm h)]
      · rw [Memory.readWord, Memory.readWord]
        split
        · rfl
        · exact ih

/-! ### Consecutive words -/

/-- Consecutive writes leave a word below them as it was. -/
theorem Memory.readWord_writeWords_below (m : Memory) {a c : Nat} (ws : List Word) (h : c < a) :
    (m.writeWords a ws).readWord c = m.readWord c := by
  induction ws generalizing m a with
  | nil => rfl
  | cons w ws ih =>
    rw [Memory.writeWords, ih _ (by omega), Memory.readWord_writeWord_ne _ _ (by omega)]

/-- Word `k` of consecutive writes is read back (R54). -/
theorem Memory.readWord_writeWords {m : Memory} (a : Nat) (ws : List Word) (k : Nat) (w : Word) (h : m.wf = true)
    (hk : ws[k]? = some w) : (m.writeWords a ws).readWord (a + 4 * k) = w := by
  induction ws generalizing m a k with
  | nil => simp at hk
  | cons v ws ih =>
    rw [Memory.writeWords]
    cases k with
    | zero =>
      simp only [List.getElem?_cons_zero, Option.some.injEq] at hk
      rw [show a + 4 * 0 = a by omega, hk, Memory.readWord_writeWords_below _ _ (by omega),
        Memory.readWord_writeWord_same _ _ h]
    | succ k =>
      rw [List.getElem?_cons_succ] at hk
      have := ih (a + 4) k (Memory.writeWord_wf a v h) hk
      rw [show a + 4 * (k + 1) = a + 4 + 4 * k by omega]
      exact this

/-! ### Where the entries lie -/

/-- Every entry's address has a property. -/
def Memory.Within (p : Nat → Prop) (m : Memory) : Prop := ∀ c ∈ m, p c.1

theorem Memory.consWord_within {p : Nat → Prop} {a : Nat} (b : Word) {m : Memory} (ha : p a)
    (h : Memory.Within p m) : Memory.Within p (Memory.consWord a b m) := by
  unfold Memory.consWord
  split
  · exact h
  · intro c hc
    rcases List.mem_cons.mp hc with rfl | hc
    · exact ha
    · exact h c hc

theorem Memory.writeWord_within {p : Nat → Prop} {a : Nat} (b : Word) {m : Memory} (ha : p a)
    (h : Memory.Within p m) : Memory.Within p (m.writeWord a b) := by
  induction m with
  | nil => exact Memory.consWord_within b ha h
  | cons q m ih =>
    obtain ⟨d, e⟩ := q
    have hm : Memory.Within p m := fun c hc => h c (List.mem_cons_of_mem _ hc)
    unfold Memory.writeWord
    split
    · exact Memory.consWord_within b ha h
    · split
      · exact Memory.consWord_within b ha hm
      · intro c hc
        rcases List.mem_cons.mp hc with rfl | hc
        · exact h (d, e) List.mem_cons_self
        · exact ih hm c hc

theorem Memory.writeWords_within {p : Nat → Prop} {a : Nat} (ws : List Word) {m : Memory}
    (ha : ∀ k, k < ws.length → p (a + 4 * k)) (h : Memory.Within p m) : Memory.Within p (m.writeWords a ws) := by
  induction ws generalizing m a with
  | nil => exact h
  | cons w ws ih =>
    refine ih (fun k hk => ?_) (Memory.writeWord_within w (by simpa using ha 0 (by simp)) h)
    rw [show a + 4 + 4 * k = a + 4 * (k + 1) by omega]
    exact ha (k + 1) (by simpa using hk)

/-! ### The checks -/

/-- The check of an access, in words (R56 to R58). -/
theorem aligned4In_iff (lo hi : Nat) (addr : Word) :
    aligned4In lo hi addr = true ↔ addr.toNat % 4 = 0 ∧ lo ≤ addr.toNat ∧ addr.toNat < hi := by
  simp [aligned4In, and_assoc]

end Sys2Proof.Machine
end

