-- ==== Sys2Proof/Laws/PerInstr.lean ====
section
/-! SUPPORT. The per-instruction family: the opcode field of an encoded instruction holds its own opcode value and nothing of
its operands (R72, R78, R83). -/

namespace Sys2Proof.Laws.EncodeOpcode

open Sys2Proof

/-- The opcode field of `encode i` holds the value R78 gives the instruction. -/
def Statement (i : Instr) : Prop := bitField Config.enc.opc (encode i) = Config.enc.opcode i.mnemonic

/-- An encoding has its own opcode value where its operand fields leave the opcode field clear. -/
theorem of_fields {i : Instr} (h : bitField Config.enc.opc (encodeFields Config.enc i) = 0) : Statement i := by
  unfold Statement encode encodeWith
  rw [bitField_or, h, bitField_place_same _ (by decide) (by decide), Nat.zero_or]
  cases i <;> rfl

theorem field_S (rs1 rs2 : Reg) (imm : Word) : bitField Config.enc.opc (encodeS Config.enc rs1 rs2 imm) = 0 := by
  simp only [encodeS, bitField_or]
  rw [bitField_place_apart _ (by decide) (by decide), bitField_place_apart _ (by decide) (by decide),
    bitField_place_apart _ (by decide) (by decide), bitField_place_apart _ (by decide) (by decide)]
  rfl

theorem field_R (rd rs1 rs2 : Reg) : bitField Config.enc.opc (encodeR Config.enc rd rs1 rs2) = 0 := by
  simp only [encodeR, bitField_or]
  rw [bitField_place_apart _ (by decide) (by decide), bitField_place_apart _ (by decide) (by decide),
    bitField_place_apart _ (by decide) (by decide)]
  rfl

theorem field_I (rd rs1 : Reg) (imm : Word) : bitField Config.enc.opc (encodeI Config.enc rd rs1 imm) = 0 := by
  simp only [encodeI, bitField_or]
  rw [bitField_place_apart _ (by decide) (by decide), bitField_place_apart _ (by decide) (by decide),
    bitField_place_apart _ (by decide) (by decide)]
  rfl

theorem beq (rs1 rs2 : Reg) (imm : Word) : Statement (.beq rs1 rs2 imm) :=
  of_fields (field_S rs1 rs2 imm)

theorem bne (rs1 rs2 : Reg) (imm : Word) : Statement (.bne rs1 rs2 imm) :=
  of_fields (field_S rs1 rs2 imm)

theorem blt (rs1 rs2 : Reg) (imm : Word) : Statement (.blt rs1 rs2 imm) :=
  of_fields (field_S rs1 rs2 imm)

theorem sw (rs1 rs2 : Reg) (imm : Word) : Statement (.sw rs1 rs2 imm) :=
  of_fields (field_S rs1 rs2 imm)

theorem add (rd rs1 rs2 : Reg) : Statement (.add rd rs1 rs2) :=
  of_fields (field_R rd rs1 rs2)

theorem sub (rd rs1 rs2 : Reg) : Statement (.sub rd rs1 rs2) :=
  of_fields (field_R rd rs1 rs2)

theorem and (rd rs1 rs2 : Reg) : Statement (.and rd rs1 rs2) :=
  of_fields (field_R rd rs1 rs2)

theorem or (rd rs1 rs2 : Reg) : Statement (.or rd rs1 rs2) :=
  of_fields (field_R rd rs1 rs2)

theorem addi (rd rs1 : Reg) (imm : Word) : Statement (.addi rd rs1 imm) :=
  of_fields (field_I rd rs1 imm)

theorem andi (rd rs1 : Reg) (imm : Word) : Statement (.andi rd rs1 imm) :=
  of_fields (field_I rd rs1 imm)

theorem ori (rd rs1 : Reg) (imm : Word) : Statement (.ori rd rs1 imm) :=
  of_fields (field_I rd rs1 imm)

theorem sll (rd rs1 : Reg) (imm : Word) : Statement (.sll rd rs1 imm) :=
  of_fields (field_I rd rs1 imm)

theorem sra (rd rs1 : Reg) (imm : Word) : Statement (.sra rd rs1 imm) :=
  of_fields (field_I rd rs1 imm)

theorem lw (rd rs1 : Reg) (imm : Word) : Statement (.lw rd rs1 imm) :=
  of_fields (field_I rd rs1 imm)

theorem jal (rd : Reg) (imm : Word) : Statement (.jal rd imm) :=
  of_fields (by
    simp only [encodeFields, bitField_or]
    rw [bitField_place_apart _ (by decide) (by decide), bitField_place_apart _ (by decide) (by decide)]
    rfl)

theorem brk : Statement .brk :=
  of_fields rfl

end Sys2Proof.Laws.EncodeOpcode
end

