-- ==== Sys2Proof/Machine/Asm.lean ====
section
/-! DEFINITION. The assembler text of an instruction (R86, decision D5, log entry 24). The machine never reads it; there are
no pseudo-instructions, directives or labels (R87). -/

namespace Sys2Proof.Machine

/-- `x0` to `x31` (R86). -/
def regName (r : Reg) : String := "x" ++ toString r.val

/-- A signed decimal number. -/
def signedText (v : Word) : String := toString v.toInt

/-- `#` and the value of the `imm` field, not a byte offset (R86). -/
def immText (v : Word) : String := "#" ++ signedText v

/-- `op a, b, c`. -/
def form3 (op a b c : String) : String := op ++ " " ++ a ++ ", " ++ b ++ ", " ++ c

/-- `op r, imm(base)` (R86). -/
def formMem (op r : String) (imm : Word) (base : Reg) : String :=
  op ++ " " ++ r ++ ", " ++ signedText imm ++ "(" ++ regName base ++ ")"

/-- The operands in the order of R86's table. -/
def asmText (i : Instr) : String :=
  let op := i.mnemonic.name
  match i with
  | .beq rs1 rs2 imm => form3 op (regName rs1) (regName rs2) (immText imm)
  | .bne rs1 rs2 imm => form3 op (regName rs1) (regName rs2) (immText imm)
  | .blt rs1 rs2 imm => form3 op (regName rs1) (regName rs2) (immText imm)
  | .sw rs1 rs2 imm => formMem op (regName rs2) imm rs1
  | .add rd rs1 rs2 => form3 op (regName rd) (regName rs1) (regName rs2)
  | .sub rd rs1 rs2 => form3 op (regName rd) (regName rs1) (regName rs2)
  | .and rd rs1 rs2 => form3 op (regName rd) (regName rs1) (regName rs2)
  | .or rd rs1 rs2 => form3 op (regName rd) (regName rs1) (regName rs2)
  | .addi rd rs1 imm => form3 op (regName rd) (regName rs1) (immText imm)
  | .andi rd rs1 imm => form3 op (regName rd) (regName rs1) (immText imm)
  | .ori rd rs1 imm => form3 op (regName rd) (regName rs1) (immText imm)
  | .sll rd rs1 imm => form3 op (regName rd) (regName rs1) (immText imm)
  | .sra rd rs1 imm => form3 op (regName rd) (regName rs1) (immText imm)
  | .lw rd rs1 imm => formMem op (regName rd) imm rs1
  | .jal rd imm => op ++ " " ++ regName rd ++ ", " ++ immText imm
  | .brk => op

end Sys2Proof.Machine
end

