-- ==== Sys2Proof/Tests/Slice0.lean ====
section
/-! SUPPORT. The model's own tests, their values from spec/95_test_vectors.md or worked by hand from the rules, and for every
statement with hypotheses a concrete case that meets them. -/

namespace Sys2Proof.Tests

open Sys2Proof Sys2Proof.Machine

/-! ### Helpers -/

/-- The next state, if there is one. -/
def okOf {σ : Type} : Result σ → Option σ
  | .next s => some s
  | .fault _ => none
  | .refused _ => none

/-- The fault, if there is one. -/
def faultOf {σ : Type} : Result σ → Option Fault
  | .next _ => none
  | .fault r => some r
  | .refused _ => none

theorem next_of_okOf {σ : Type} {o : Result σ} {s : σ} (h : okOf o = some s) : o = .next s := by
  cases o <;> simp_all [okOf]

/-- A next state with a property, found by running. -/
theorem exists_next {σ : Type} {o : Result σ} (p : σ → Bool) (h : (okOf o).any p = true) :
    ∃ s, o = .next s ∧ p s = true := by
  cases o with
  | next s => exact ⟨s, rfl, by simpa [okOf] using h⟩
  | fault _ => simp [okOf] at h
  | refused _ => simp [okOf] at h

theorem fault_of_faultOf {σ : Type} {o : Result σ} {r : Fault} (h : faultOf o = some r) : o = .fault r := by
  cases o <;> simp_all [faultOf]

/-- Registers, all zero but `x1` and `x2`. -/
def regs (a b : Word) : Vector Word 32 := ((Vector.replicate 32 0).set 1 a).set 2 b

/-- A computing unit's result for captured operands: `alu` of R118, through `exec`. -/
def alu (u : Alu) (i : Instr) (a b : Word) : Option Word :=
  (okOf (exec i { State.reset with stage := .execute u, pre := noEntries.set u.unit (some ⟨i, a, b⟩) })).bind fun t =>
    (t.post u.post).map (·.result)

/-- The image of section 2.4: base 256, `break` at 268, data 10, -20, 30, -40 from 272 on. -/
def dataImage : Image := ⟨256, [0x00100382, 0x00000000, 0x00000483, 0x0000007F, 10, -20, 30, -40]⟩

/-- A launch of it with `x1 = 5` and `x2 = 3`. -/
def launched : State := State.launch Params.default dataImage (regs 5 3)

/-- That core with an address in the pre-memory latch, at the memory stage. -/
def accessing (i : Instr) (addr val : Word) : State :=
  { launched with stage := .memory, premem := some ⟨i, addr, val⟩ }

/-- A branch at `addr` at its resolution, with two register values: the `pc` afterwards. -/
def branchTo (i : Instr) (addr a b : Word) : Option Word :=
  (okOf (exec i { launched with
    stage := .resolve, x := regs a b, pc := addr + 4, wbr := some ⟨i, addr⟩ })).map (·.pc)

/-- The issue step on a queue and a scoreboard: the scoreboard and the queue after it. -/
def scan (ww : RegMask) (iq : List Instr) : Option (RegMask × List Instr) :=
  (okOf (issue { State.reset with willwrite := ww, iq := iq })).map fun t => (t.willwrite, t.iq)

/-! ### Decoding (sections 2.1, S3): a word of every constructor, bit by bit -/

theorem test_decode_beq : (decode 0b00000000001000001000001000000000).toOption = some (.beq 1 2 4) := by decide
theorem test_decode_bne : (decode 0b11111110000000001000110100000100).toOption = some (.bne 1 0 (-6)) := by decide
theorem test_decode_blt : (decode 0b11111110001000001000111010001000).toOption = some (.blt 1 2 (-3)) := by decide
theorem test_decode_sw : (decode 0b10000001111011111000000000001100).toOption = some (.sw 31 30 (-2048)) := by decide
theorem test_decode_add : (decode 0b00000000001000001000000110000001).toOption = some (.add 3 1 2) := by decide
theorem test_decode_sub : (decode 0b00000000001000001000000110000101).toOption = some (.sub 3 1 2) := by decide
theorem test_decode_and : (decode 0b00000000001000001000000110001001).toOption = some (.and 3 1 2) := by decide
theorem test_decode_or : (decode 0b00000000001000001000000110001101).toOption = some (.or 3 1 2) := by decide
theorem test_decode_addi : (decode 0b01111111111100000000000010000010).toOption = some (.addi 1 0 2047) := by decide
theorem test_decode_andi : (decode 0b11111111000000001000000110000110).toOption = some (.andi 3 1 (-16)) := by decide
theorem test_decode_ori : (decode 0b10000000000000001000000110001010).toOption = some (.ori 3 1 (-2048)) := by decide
theorem test_decode_sll : (decode 0b11111111111100100000000110001110).toOption = some (.sll 3 4 (-1)) := by decide
theorem test_decode_sra : (decode 0b00000001111100100000000110010010).toOption = some (.sra 3 4 31) := by decide
theorem test_decode_lw : (decode 0b11111111110001000000010010010110).toOption = some (.lw 9 8 (-4)) := by decide
theorem test_decode_jal : (decode 0b10000000000000000000111110000011).toOption = some (.jal 31 (-524288)) := by decide
theorem test_decode_break : (decode 0b10101011110011011111000001111111).toOption = some .brk := by decide

/-- Ignored bits 25 and 14 to 12 of an `add`. -/
theorem test_decode_ignored_bits : (decode 0x02007001).toOption = some (.add 0 0 0) := by decide

/-- Opcodes next to assigned ones are rejected. -/
theorem test_decode_invalid :
    [0x0000002B, 0x00000007, 0x00000010, 0x0000007E, 0xFFFFFF13].map (fun w => (decode w).toOption)
      = [none, none, none, none, none] := by decide

/-- The canonical words of section 2.1 and S3 are what the encoder writes. -/
theorem test_encode :
    [encode (.beq 1 2 (-2048)), encode (.sw 2 1 2047), encode (.addi 1 2 (-1)), encode (.add 3 1 2),
      encode (.jal 1 524287), encode .brk]
      = [0x80208000, 0x7E110F8C, 0xFFF10082, 0x00208181, 0x7FFFF083, 0x0000007F] := by decide

/-- The host's question about a table row. -/
theorem test_decodeTableWord : decodeTableWord 32 0x00208181 = some (.add 3 1 2) ∧ decodeTableWord 32 0x2B = none := by
  decide

/-! ### Well-formedness: an ill-formed term for each check -/

theorem test_illFormed_beq : [Instr.beq 1 2 2048, .beq 1 2 (-2049)].map (·.wellFormed) = [false, false] := by decide
theorem test_illFormed_bne : [Instr.bne 1 2 2048, .bne 1 2 (-2049)].map (·.wellFormed) = [false, false] := by decide
theorem test_illFormed_blt : [Instr.blt 1 2 2048, .blt 1 2 (-2049)].map (·.wellFormed) = [false, false] := by decide
theorem test_illFormed_sw : [Instr.sw 1 2 2048, .sw 1 2 (-2049)].map (·.wellFormed) = [false, false] := by decide
theorem test_illFormed_addi : [Instr.addi 1 2 2048, .addi 1 2 (-2049)].map (·.wellFormed) = [false, false] := by decide
theorem test_illFormed_andi : [Instr.andi 1 2 2048, .andi 1 2 (-2049)].map (·.wellFormed) = [false, false] := by decide
theorem test_illFormed_ori : [Instr.ori 1 2 2048, .ori 1 2 (-2049)].map (·.wellFormed) = [false, false] := by decide
theorem test_illFormed_sll : [Instr.sll 1 2 2048, .sll 1 2 (-2049)].map (·.wellFormed) = [false, false] := by decide
theorem test_illFormed_sra : [Instr.sra 1 2 2048, .sra 1 2 (-2049)].map (·.wellFormed) = [false, false] := by decide
theorem test_illFormed_lw : [Instr.lw 1 2 2048, .lw 1 2 (-2049)].map (·.wellFormed) = [false, false] := by decide
theorem test_illFormed_jal : [Instr.jal 1 524288, .jal 1 (-524289)].map (·.wellFormed) = [false, false] := by decide

/-- The ends of both ranges are well-formed. -/
theorem test_wellFormed_ends :
    [Instr.lw 1 2 2047, .sw 1 2 (-2048), .jal 1 524287, .jal 1 (-524288), .add 1 2 3, .brk].map (·.wellFormed)
      = [true, true, true, true, true, true] := by decide

/-! ### Computing units (sections 2.2, 2.3) -/

theorem test_add_wraps : alu .add (.add 3 1 2) 2147483647 1 = some 0x80000000 := by decide
theorem test_add_doubles : alu .add (.add 3 1 1) (-7) (-7) = some (-14) := by decide
theorem test_sub_order : alu .add (.sub 3 1 2) 3 5 = some (-2) := by decide
theorem test_sub_wraps : alu .add (.sub 3 1 2) 0 0x80000000 = some 0x80000000 := by decide
theorem test_addi_wraps : alu .add (.addi 1 2 2047) 2147483647 2047 = some 0x800007FE := by decide
theorem test_and : alu .log (.and 3 1 2) 252645135 (-16) = some 0x0F0F0F00 := by decide
theorem test_or : alu .log (.or 3 1 2) 252645135 (-16) = some (-1) := by decide
theorem test_andi_signExtended : alu .log (.andi 3 1 (-2048)) (-1) (-2048) = some 0xFFFFF800 := by decide
theorem test_ori_signExtended : alu .log (.ori 3 1 (-2048)) 5 (-2048) = some (-2043) := by decide
theorem test_sll_low_bits : alu .log (.sll 3 1 33) 3 33 = some 6 := by decide
theorem test_sll_negative : alu .log (.sll 3 1 (-1)) 1 (-1) = some 0x80000000 := by decide
theorem test_sra_floors : alu .log (.sra 3 1 1) (-7) 1 = some (-4) := by decide
theorem test_sra_low_bits : alu .log (.sra 3 1 (-2044)) (-16) (-2044) = some (-1) := by decide

/-! ### Address unit (section 2.4) -/

/-- A load of the last word; the address wraps before the check (`a = -4`, `imm = 280`). -/
theorem test_lw_value :
    ((okOf (exec (.lw 1 2 0) (accessing (.lw 1 2 0) 284 0))).bind (·.postmem)).map (·.result) = some (-40) ∧
    ((okOf (exec (.lw 1 2 280) { launched with stage := .advance, pre := noEntries.set .addr (some ⟨.lw 1 2 280, -4, 280⟩) })).bind
      (·.premem)).map (·.addr) = some 276 := by decide

theorem test_lw_faults :
    faultOf (exec (.lw 1 2 0) (accessing (.lw 1 2 0) 288 0)) = some (.memFault 288 .read) ∧
    faultOf (exec (.lw 1 2 0) (accessing (.lw 1 2 0) 252 0)) = some (.memFault 252 .read) ∧
    faultOf (exec (.lw 1 2 0) (accessing (.lw 1 2 0) 274 0)) = some (.memFault 274 .read) := by decide

/-- A store at the data boundary, with its neighbour unchanged. -/
theorem test_sw_value :
    (okOf (exec (.sw 0 1 0) (accessing (.sw 0 1 0) 272 99))).map (fun t => (t.mem.readWord 272, t.mem.readWord 276))
      = some (99, -20) := by decide

theorem test_sw_faults :
    faultOf (exec (.sw 0 1 0) (accessing (.sw 0 1 0) 268 1)) = some (.memFault 268 .write) ∧
    faultOf (exec (.sw 0 1 0) (accessing (.sw 0 1 0) 288 1)) = some (.memFault 288 .write) ∧
    faultOf (exec (.sw 0 1 0) (accessing (.sw 0 1 0) 273 1)) = some (.memFault 273 .write) := by decide

/-! ### Fetch unit (section 2.5) -/

theorem test_beq : branchTo (.beq 1 2 4) 264 5 5 = some 276 ∧ branchTo (.beq 1 2 4) 264 5 6 = some 268 := by decide
theorem test_bne : branchTo (.bne 1 0 (-6)) 272 2 0 = some 264 ∧ branchTo (.bne 1 0 (-6)) 272 0 0 = some 276 := by decide

/-- Signed comparison. -/
theorem test_blt :
    branchTo (.blt 1 2 2) 256 (-1) 0 = some 264 ∧ branchTo (.blt 1 2 2) 256 0 (-1) = some 260 ∧
    branchTo (.blt 1 2 2) 256 0x80000000 2147483647 = some 264 := by decide

theorem test_jal :
    (okOf (exec (.jal 1 (-524288)) { launched with pc := 1048836 })).map (fun t => (t.read 1, t.pc)) = some (1048840, 264) := by
  decide

/-- A core with another `JAL_BASE_OFFSET`: the target is relative to the `jal` itself, the link is as before (R173, D8). -/
theorem test_jal_offset_zero :
    (okOf (exec (.jal 1 2) { launched with par := { Params.default with jalBaseOffset := 0 } })).map (fun t => (t.read 1, t.pc))
      = some (260, 260) := by decide

/-- A core with another `SHAMT_BITS` (R164, U5). -/
theorem test_sll_six_bits :
    (okOf (exec (.sll 3 1 33) { launched with
        par := { Params.default with shamtBits := 6 }, stage := .execute .log
        pre := noEntries.set .log (some ⟨.sll 3 1 33, 3, 33⟩) })).bind (·.postLog)
      = some ⟨.sll 3 1 33, 0⟩ := by decide

theorem test_break :
    (okOf (step { launched with pc := 268 })).map (fun t => (t.fx, t.pc, t.halted)) = some (some .brk, 268, true) := by decide

/-! ### The issue scan (section 2.6) -/

theorem test_issue_three_units : scan 0 [.lw 1 0 300, .add 2 3 4, .ori 5 0 1] = some (0x26, []) := by decide
theorem test_issue_class_order :
    scan 0x20 [.add 2 5 0, .addi 3 0 1, .and 4 0 0] = some (0x30, [.add 2 5 0, .addi 3 0 1]) := by decide
theorem test_issue_write_after_read :
    scan 0x20 [.sw 5 6 0, .lw 7 0 300, .ori 6 0 1, .ori 8 6 1]
      = some (0x20, [.sw 5 6 0, .lw 7 0 300, .ori 6 0 1, .ori 8 6 1]) := by decide
theorem test_issue_register_zero : scan 0xFFFFFFFE [.addi 0 0 1, .ori 0 0 1] = some (0xFFFFFFFE, []) := by decide
theorem test_issue_blocked_writer :
    scan 0x200 [.addi 1 9 0, .or 1 0 0, .lw 3 1 0] = some (0x200, [.addi 1 9 0, .or 1 0 0, .lw 3 1 0]) := by decide

/-! ### Faults of a cycle (section 2.8), the loader, the assembler text -/

/-- A faulting cycle leaves the last observable state, with the reason (R8, R182). -/
theorem test_fault_recorded :
    let s := { launched with pc := 272 }
    (advance s).1 = { s with fault := some (.fetchFault 272) } ∧ (advance (advance s).1).2 = .nothing := by decide

/-- R55: everything but `0` and `1` is ignored; the first bit is the most significant. -/
theorem test_load_text :
    (load Config.enc 256 "0000000000 0000000000 0000000000\n00\n00000000000000000000000001111111".toList).map (·.words) = some [0, 0x7F] ∧
    load Config.enc 256 "0101".toList = none ∧
    load Config.enc 256 "00000000000000000000000000000000".toList = none := by decide

theorem test_asm :
    [asmText (.addi 1 0 5), asmText (.sw 0 1 0), asmText (.lw 2 0 (-4)), asmText (.bne 1 0 (-6)), asmText .brk]
      = ["addi x1, x0, #5", "sw x1, 0(x0)", "lw x2, -4(x0)", "bne x1, x0, #-6", "break"] := by decide

/-- The host's placement from reset: the next step runs the `add` and takes it into the queue. -/
theorem test_withFetchWord :
    (okOf (step (State.reset.withFetchWord 32 0x00208181))).map (fun t => (t.iq, t.cycle, t.fault)) = some ([.add 3 1 2], 1, none) ∧
    (okOf (step (State.reset.withFetchWord 32 0x7F))).map (·.halted) = some true := by decide

/-! ### Witnesses: for each statement with hypotheses, a case that meets them -/

/-- A legal state in the middle of a run: a `sub` queued, a store and an `add` about to execute, a load at the memory stage,
an `ori` at writeback. -/
def busy : State :=
  { launched with
    willwrite := 0b1110000
    iq := [.sub 8 1 2]
    pre := ⟨some ⟨.sw 0 1 272, 0, 5⟩, some ⟨.add 4 1 2, 5, 3⟩, none⟩
    premem := some ⟨.lw 5 0 276, 276, 276⟩
    postLog := some ⟨.ori 6 0 9, 9⟩
    cycle := 3 }

/-- The same with a branch waiting for `x4`, which the `add` will write. -/
def waiting : State := { busy with wbr := some ⟨.bne 4 0 (-6), 264⟩, pc := 268 }

/-- The same with a branch waiting whose registers are free. -/
def ready : State := { busy with wbr := some ⟨.blt 2 1 (-4), 264⟩, pc := 268 }

/-- The same about to fetch a `jal` that links to a register nothing names. -/
def linking : State := { busy with pc := 264 }

/-- The same about to fetch the `break`. -/
def ending : State := { busy with pc := 268 }

theorem launched_map : launched.map = ⟨256, 272, 288⟩ := by decide

theorem launched_map_legal : launched.map.Legal := by
  rw [launched_map]; constructor <;> decide

/-- A legal state: the premises of the statements over legal states (EveryStepKeepsTheInvariant,
LegalStatesStepOrFaultByName, MemFaultsComeFromThePreMemoryLatch). -/
theorem busy_inv : Inv busy where
  noFault := rfl
  haltedIff := by decide
  resting := rfl
  stagingEmpty := rfl
  queueShort := by decide
  queueKinds := by decide
  waitingKind := nofun
  waitingFallThrough := nofun
  fetchExecutedKind := nofun
  preKinds := by rintro (_ | _ | _) e ⟨⟩ <;> rfl
  prememKind := by rintro m ⟨⟩; rfl
  postmemKind := nofun
  postAddKind := nofun
  postLogKind := by rintro e ⟨⟩; rfl
  heldWellFormed := by decide
  zeroRegister := by decide
  zeroBit := by decide
  pendingHasWriter := by decide
  memCanonical := by decide
  memInside := by decide
  mapLegal := launched_map_legal
  encValid := by decide

/-- Where no branch waits the invariant says nothing about where the core fetches. -/
theorem inv_pc {s : State} (h : Inv s) (hw : s.wbr = none) (p : Word) : Inv { s with pc := p } :=
  { h with waitingFallThrough := fun _ hb => nomatch hw.symm.trans hb }

theorem busy_exact : ScoreboardExact busy := by unfold ScoreboardExact; decide

theorem witness_RegisterWriteStoresAndClears :
    (busy.write 0 9 = busy ∧ (busy.write 4 9).read 4 = 9 ∧ busy.isPending 4 = true ∧ (busy.write 4 9).isPending 4 = false) ∧
    ((5 : Reg) ≠ 4 ∧ (busy.write 4 9).isPending 5 = true) := by decide

theorem witness_MarkPendingSetsOneBit :
    busy.markPending 0 = busy ∧ busy.isPending 31 = false ∧ (busy.markPending 31).isPending 31 = true ∧ (4 : Reg) ≠ 31 := by
  decide

/-- The image has a boundary, and words at both ends. -/
theorem witness_LaunchSetsEveryPieceOfState :
    (31 : Reg) ≠ 0 ∧ launched.read 1 = 5 ∧ dataImage.boundary Config.enc = some 272 ∧ launched.map.boundary = 272 ∧
    dataImage.words[7]? = some (-40 : Word) ∧ launched.mem.readWord 284 = -40 := by decide

/-- Another record that R85 allows: every field of `ENC` in another place, and other opcode values, with 0 for `jal`. -/
def otherEnc : Enc where
  opc := ⟨3, 0⟩
  rd := ⟨8, 4⟩
  rs1 := ⟨13, 9⟩
  rs2 := ⟨18, 14⟩
  immSHi := ⟨28, 19⟩
  immSLo := ⟨31, 30⟩
  opcodes :=
    { beq := 2, bne := 3, blt := 4, sw := 5, add := 6, sub := 7, and := 8, or := 9, addi := 10, andi := 11, ori := 12
      sll := 13, sra := 14, lw := 15, jal := 0, brk := 1 }

/-- Parameters other than the defaults in all three places (R5). -/
def otherParams : Params := ⟨otherEnc, 0, 6⟩

/-- A core with those parameters: its own words for `jal x1, #2`, an unreached word and `break`; the `jal` is relative to
itself, and the data boundary is after the `break` of its own encoding. -/
theorem test_otherParams :
    let s := State.launch otherParams ⟨256, [0x00002010, 0x0000007F, 0x00000001]⟩ (regs 0 0)
    s.map.boundary = 268 ∧
    (okOf (step s)).map (fun t => (t.fx, t.read 1, t.pc)) = some (some (.jal 1 2), 260, 260) ∧
    (okOf (step (s.withFetchWord 32 0x00000001))).map (·.halted) = some true := by decide

/-- The first and the last word of a valid image. -/
theorem witness_LaunchHoldsTheImage :
    dataImage.valid Config.enc = true ∧ dataImage.words[0]? = some (0x00100382 : Word) ∧ dataImage.words[7]? = some (-40 : Word) ∧
    okOf (launched.memRead 284) = some (-40) := by decide

theorem witness_BoundaryFollowsFirstBreak :
    Config.enc.valid = true ∧ dataImage.boundary Config.enc = some 272 ∧ (⟨256, [1, 2]⟩ : Image).boundary Config.enc = none ∧
    (⟨256, [1, 2]⟩ : Image).boundary otherEnc = some 260 := by decide

/-- Two canonical memories; a zero is written and read. -/
theorem witness_MemoryIsAnArrayOfWords :
    launched.mem.wf = true ∧ (launched.mem.writeWord 272 0).wf = true ∧
    [268, 272, 276].map (fun a => (launched.mem.writeWord 272 0).readWord a) = [0x7F, 0, -20] ∧
    (launched.mem.writeWord 272 0).writeWord 272 10 = launched.mem := by decide

/-- Both checks at their ends: 256 and 284 can be loaded, 272 and 284 stored to; 288, 252, 268 (store) and 258 cannot. -/
theorem witness_DataAccessesAreChecked :
    [256, 284, 288, 252, 258].map (fun a => (okOf (launched.memRead a)).isSome) = [true, true, false, false, false] ∧
    [272, 284, 288, 268, 274].map (fun a => (okOf (launched.memWrite a 1)).isSome) = [true, true, false, false, false] := by
  decide

theorem witness_StoreThenLoadReturnsValue :
    launched.map.Legal ∧ launched.mem.wf = true ∧ (∃ t, launched.memWrite 284 7 = .next t) ∧ (272 : Word) ≠ 284 :=
  ⟨launched_map_legal, by decide, (exists_next (fun _ => true) (by decide)).imp fun _ h => h.1, by decide⟩

/-- Two valid records, one whose `rd` runs into the J immediate, and immediates at the ends of their ranges. -/
theorem witness_DecodeInvertsEncode :
    Config.enc.valid = true ∧ otherEnc.valid = true ∧ ({ Config.enc with rd := ⟨12, 8⟩ }).valid = false ∧
    [Instr.jal 31 (-524288), .sw 31 30 (-2048), .lw 1 2 2047, .brk].map (·.wellFormed) = [true, true, true, true] ∧
    (decodeWith otherEnc (encodeWith otherEnc (.sw 31 30 (-2048)))).toOption = some (.sw 31 30 (-2048)) := by decide

/-- A word of each mask: S, R with junk, J, N with junk. -/
theorem witness_EncodeInvertsDecodeUpToIgnoredBits :
    [0xFE20FF8C, 0x02007001, 0x80000F83, 0xABCDF07F].map (fun w => ((decode w).toOption).isSome) = [true, true, true, true] := by
  decide

theorem witness_DecodeGivesWellFormed : (decode 0x80000F83).toOption = some (.jal 31 (-524288)) := by decide

/-- At the fetch stage with an ordinary instruction, a branch, a jal and a break (OrdinaryInstructionsJoinTheQueue,
BranchesAreLatchedAtFetch, JalLinksAndJumpsAtFetch, BreakIsRecordedThenHalts). -/
theorem witness_atFetch :
    busy.stage = .fetch ∧ (Instr.sub 8 1 2).mnemonic ∈ [Mnemonic.sw, .lw, .add, .sub, .addi, .and, .or, .andi, .ori, .sll, .sra] ∧
    (okOf (exec (.jal 0 (-4)) { launched with pc := 272 })).map (fun t => (t.x, t.pc)) = some (launched.x, 268) ∧
    ({ ending with stage := .finish }).stage = .finish := by decide

theorem witness_IssueCapturesOperandsAndMarks : ({ busy with stage := .issue }).stage = .issue := by decide

/-- The execute stage of each unit with its pre latch full (AddSubUnitComputes, LogicUnitComputesBitwise,
ShiftsComputeByShamtBits). -/
theorem witness_atExecute :
    ({ busy with stage := .execute .add }).stage = .execute .add ∧ busy.pre.add = some ⟨.add 4 1 2, 5, 3⟩ ∧
    ({ launched with stage := .execute .log, pre := noEntries.set .log (some ⟨.sll 3 1 31, 1, 31⟩) }).pre.log
      = some ⟨.sll 3 1 31, 1, 31⟩ := by decide

/-- A destination and `x0` at writeback. -/
theorem witness_WritebackWritesTheDestination :
    dstOf (.ori 6 0 9) = some 6 ∧ dstOf (.ori 0 0 9) = some 0 ∧ latchOf (.ori 6 0 9) = some .log ∧ ({ busy with stage := .writeback .log }).post .log = some ⟨.ori 6 0 9, 9⟩ := by
  decide

theorem witness_AddressUnitFormsTheAddress :
    ({ busy with stage := .advance }).stage = .advance ∧ busy.pre.addr = some ⟨.sw 0 1 272, 0, 5⟩ := by decide

/-- Both sides of both checks (LoadReadsTheWordOrFaults, StoreWritesTheWordOrFaults). -/
theorem witness_atMemory :
    ({ busy with stage := .memory }).stage = .memory ∧ busy.mem.wf = true ∧
    [284, 288].map (fun a => (accessing (.lw 1 2 0) a 0).map.readable a) = [true, false] ∧
    [272, 268].map (fun a => (accessing (.sw 0 1 0) a 0).map.writable a) = [true, false] := by decide

theorem witness_BranchesCompareAndRedirect :
    ({ ready with stage := .resolve }).stage = .resolve ∧ ready.wbr = some ⟨.blt 2 1 (-4), 264⟩ := by decide

/-- Stages off an instruction's path: another unit's execute stage and another latch's writeback among them. -/
theorem witness_OffPathStagesAreStuck :
    Stage.execute .log ∉ pathOf (.add 1 2 3) ∧ Stage.writeback .mem ∉ pathOf (.add 1 2 3) ∧ Stage.writeback .mem ∉ pathOf (.sw 1 2 3) ∧
    Stage.issue ∉ pathOf .brk ∧ Stage.resolve ∉ pathOf (.jal 1 2) ∧
    faultOf (exec (.add 4 1 2) { busy with stage := .execute .log, pre := ⟨none, none, busy.pre.add⟩ })
      = some (.misplaced (.execute .log) (.add 4 1 2)) := by decide

/-- A load that completes its memory stage; its destination is another register than `x4`. -/
theorem witness_RegisterWritersFrame :
    isQueued (.lw 5 0 276) = true ∧ dstOf (.lw 5 0 276) = some 5 ∧ (4 : Reg) ≠ 5 ∧ ∃ t, exec (.lw 5 0 276) { busy with stage := .memory } = .next t :=
  ⟨rfl, rfl, by decide, (exists_next (fun _ => true) (by decide)).imp fun _ h => h.1⟩

theorem witness_StoreFrame :
    (∃ t, exec (.sw 0 1 0) (accessing (.sw 0 1 0) 272 99) = .next t) ∧
    ∃ t, exec (.sw 0 1 0) { busy with stage := .issue } = .next t :=
  ⟨(exists_next (fun _ => true) (by decide)).imp fun _ h => h.1, (exists_next (fun _ => true) (by decide)).imp fun _ h => h.1⟩

theorem witness_FetchUnitFrame :
    isQueued (.jal 9 0) = false ∧ (∀ imm, Instr.jal 9 0 ≠ .jal 8 imm) ∧ ∃ t, exec (.jal 9 0) busy = .next t :=
  ⟨rfl, fun _ h => absurd (Instr.jal.inj h).1 (by decide), (exists_next (fun _ => true) (by decide)).imp fun _ h => h.1⟩

/-- A queue of four that a pending register keeps in place. -/
def full : State := { launched with willwrite := 16, iq := [.sub 8 4 2, .sub 9 4 2, .or 10 4 2, .or 11 4 2] }

/-- A live core whose issue step leaves a free slot and whose `pc` names an instruction, and one whose queue stays full and
whose `pc` names a `jal`: it fetches nothing. -/
theorem witness_StepRunsTheFetchedInstruction :
    busy.halted = false ∧ busy.fault = none ∧ busy.wbr = none ∧
    (∃ s1, issue { busy with cycle := busy.cycle + 1, fx := none } = .next s1 ∧
      (decide (s1.iq.length < 4) && decide (okOf (s1.fetch s1.pc) = some 0x00100382)) = true) ∧
    (decodeWith busy.par.enc 0x00100382).toOption = some (.addi 7 0 1) ∧
    (∃ s1, issue { full with cycle := full.cycle + 1, fx := none } = .next s1 ∧ decide (4 ≤ s1.iq.length) = true) ∧
    ∃ t, step { full with pc := 264 } = .next t ∧ (decide (t.iq = full.iq) && decide (t.fx = none) && decide (t.pc = 264)) = true :=
  ⟨rfl, rfl, rfl, exists_next _ (by decide), rfl, exists_next _ (by decide), exists_next _ (by decide)⟩

/-- Every latch full somewhere, and every latch empty somewhere. -/
theorem witness_StagesRunTheHeldInstruction :
    branchReady ready (.blt 2 1 (-4)) = true ∧ busy.post .log = some ⟨.ori 6 0 9, 9⟩ ∧ busy.premem.isSome = true ∧
    busy.pre.get Alu.add.unit = some ⟨.add 4 1 2, 5, 3⟩ ∧ busy.pre.addr.isSome = true ∧ launched.wbr = none ∧
    launched.post .mem = none ∧ launched.premem = none ∧ launched.pre.get Alu.log.unit = none ∧ launched.pre.addr = none := by
  decide

/-- A launch of an `addi` that writes `x1`, then a branch, then `break`. -/
def branching (w : Word) : State := State.launch Params.default ⟨256, [0x00100082, w, 0x7F]⟩ (regs 0 0)

/-- A waiting branch that resolves and one that does not, in cycles that complete (WaitingBranchSuspendsFetch,
WaitingBranchResolvesWhenStable); and branches fetched in the cycle: one that waits for the word fetched just before it, one
that resolves at once. -/
theorem witness_waitingBranch :
    (∃ t, step ready = .next t ∧ (decide (t.wbr = none) && decide (t.fx = some (.blt 2 1 (-4))) && decide (t.pc = 260)) = true) ∧
    (∃ t, step waiting = .next t ∧ (decide (t.wbr = waiting.wbr) && decide (t.fx = none)) = true) ∧
    (∃ s1, issue { waiting with cycle := waiting.cycle + 1, fx := none } = .next s1 ∧
      (s1.isPending 4 && (okOf (fetchDecode s1)).isSome) = true) ∧
    (∃ s1, issue { ready with cycle := ready.cycle + 1, fx := none } = .next s1 ∧
      (!s1.isPending 1 && !s1.isPending 2 && decide ((okOf (fetchDecode s1)).bind (·.wbr) = ready.wbr)) = true) ∧
    (∃ s1, issue { branching 0x00008204 with cycle := 1, fx := none } = .next s1 ∧
      (decide ((okOf (fetchDecode s1)).map (·.iq) = some [.addi 1 0 1]) &&
        decide (((okOf (fetchDecode s1)).bind (·.wbr)).isSome)) = true) ∧
    (okOf (step (branching 0x00008204))).map (fun t => (t.wbr, t.pc, t.fx)) = some (some ⟨.bne 1 0 4, 260⟩, 264, none) ∧
    (okOf (step (branching 0x00010200))).map (fun t => (t.wbr, t.pc, t.fx)) = some (none, 272, some (.beq 2 0 4)) :=
  ⟨exists_next _ (by decide), exists_next _ (by decide), exists_next _ (by decide), exists_next _ (by decide),
    exists_next _ (by decide), by decide, by decide⟩

/-- A cycle that issues the `sub`. -/
theorem witness_IssueIsInOrderAndHazardFree :
    busy.stg = noEntries ∧ ∃ t, step busy = .next t ∧ decide (t.pre.get .add = some ⟨.sub 8 1 2, 5, 3⟩) = true :=
  ⟨rfl, exists_next _ (by decide)⟩

/-- An older reader of a younger entry's destination, both issued in one cycle: the clause of R103 (e). -/
theorem witness_issue_olderReader :
    ∃ t, step { launched with iq := [.add 2 1 1, .ori 1 0 9] } = .next t ∧
      (decide (t.pre.get .add = some ⟨.add 2 1 1, 5, 5⟩) && decide (t.pre.get .log = some ⟨.ori 1 0 9, 0, 9⟩)) = true :=
  exists_next _ (by decide)

/-- A queue whose oldest entry waits for `x4`: behind it a `sub` of the same unit waits, and behind both an `or` and a `lw`
issue in one cycle; and an `ori` behind an entry that reads its destination and issues with it. -/
def behind : State := { busy with iq := [.sub 8 4 2, .sub 9 1 2, .or 10 1 2, .lw 11 1 0], premem := none }

theorem witness_Issuable :
    Issuable behind [.sub 8 4 2, .sub 9 1 2] (.or 10 1 2) ∧ Issuable behind [.sub 8 4 2, .sub 9 1 2, .or 10 1 2] (.lw 11 1 0) ∧
    Issuable launched [.add 2 1 1] (.ori 1 0 9) := by
  refine ⟨.intro (u := .log) rfl (by decide) (by decide) ?_, .intro (u := .addr) rfl (by decide) (by decide) ?_,
    .intro (u := .log) rfl (by decide) (by decide) ?_⟩
  · rintro before o after h ⟨r, _, hr, he⟩
    have ho : o ∈ [Instr.sub 8 4 2, .sub 9 1 2] := by rw [h]; simp
    rw [show r = 10 from (Option.some.inj he).symm] at hr
    exact absurd hr ((by decide : ∀ o ∈ [Instr.sub 8 4 2, .sub 9 1 2], (10 : Reg) ∉ srcOf o) o ho)
  · rintro before o after h ⟨r, _, hr, he⟩
    have ho : o ∈ [Instr.sub 8 4 2, .sub 9 1 2, .or 10 1 2] := by rw [h]; simp
    rw [show r = 11 from (Option.some.inj he).symm] at hr
    exact absurd hr ((by decide : ∀ o ∈ [Instr.sub 8 4 2, .sub 9 1 2, .or 10 1 2], (11 : Reg) ∉ srcOf o) o ho)
  · rintro before o after h -
    cases before with
    | nil =>
      cases h
      exact .intro (u := .add) rfl nofun (by decide) fun b o a h => by cases b <;> exact nomatch h
    | cons _ b => cases b <;> simp at h

/-- The cycles of those queues, a cycle in which the oldest entry issues, one in which it waits for the `add` of `x4`, one with
nothing pending, and a legal state after a jal conflict: a writer of `x4` is in flight and its bit is clear. -/
theorem witness_FreeEntriesIssueAndOldestWaitsOnlyForInFlight :
    behind.stg = noEntries ∧ Inv busy ∧ busy.iq = [.sub 8 1 2] ∧ launched.stg = noEntries ∧ launched.willwrite = 0 ∧
    (∃ t, step behind = .next t ∧ (decide (t.pre.get .log = some ⟨.or 10 1 2, 5, 3⟩) &&
      decide (t.pre.get .addr = some ⟨.lw 11 1 0, 5, 0⟩) && t.pre.add.isNone) = true) ∧
    (∃ t, step { launched with iq := [.add 2 1 1, .ori 1 0 9] } = .next t ∧
      decide (t.preInsts = [.add 2 1 1, .ori 1 0 9]) = true) ∧
    (∃ t, step busy = .next t ∧ t.pre.add.isSome = true) ∧
    (∃ t, step { busy with iq := [.sub 8 4 2] } = .next t ∧ t.pre.add.isNone = true) ∧
    (∃ t, step { launched with iq := [.sw 0 1 272, .lw 3 0 272] } = .next t ∧
      decide (t.pre.get .addr = some ⟨.sw 0 1 272, 0, 5⟩) = true) ∧
    Inv { busy with willwrite := 0b1100000 } :=
  ⟨rfl, busy_inv, rfl, rfl, by decide, exists_next _ (by decide), exists_next _ (by decide), exists_next _ (by decide),
    exists_next _ (by decide), exists_next _ (by decide),
    { busy_inv with zeroBit := by decide, pendingHasWriter := by decide }⟩

/-- A blocked entry between two that issue, and a word fetched behind it (the `beq` at 260 ends the fetch). -/
theorem witness_QueueKeepsItsOrder :
    launched.stg = noEntries ∧
    (∃ t, step { launched with willwrite := 16, iq := [.sub 8 1 2, .sub 9 4 2, .or 10 1 2] } = .next t ∧
      (decide (t.iq = [.sub 9 4 2, .addi 7 0 1]) && decide (t.preInsts = [.sub 8 1 2, .or 10 1 2])) = true) ∧
    Interleaves [.sub 9 4 2] [.sub 8 1 2, .or 10 1 2] [.sub 8 1 2, .sub 9 4 2, .or 10 1 2] :=
  ⟨rfl, exists_next _ (by decide), .right (.left (.right .nil))⟩

/-- Each way a fetch ends: a branch that resolves at once, one that waits, a `jal`, a `break`, two words taken, a full queue. -/
theorem witness_PcAfterACycle :
    launched.stg = noEntries ∧ launched.wbr = none ∧
    (okOf (step launched)).map (fun t => (t.pc, t.iq.length, t.fx)) = some (264, 1, some (.beq 0 0 0)) ∧
    (okOf (step { launched with pc := 264 })).map (fun t => (t.pc, t.fx)) = some (268, some (.jal 9 0)) ∧
    (okOf (step ending)).map (fun t => (t.pc, t.fx)) = some (268, some .brk) ∧
    (okOf (step full)).map (fun t => (t.pc, t.iq.length)) = some (256, 4) ∧
    (okOf (step (State.launch Params.default ⟨256, [0x00100082, 0x00100102, 0x7F]⟩ (regs 0 0)))).map
      (fun t => (t.pc, t.iq.length)) = some (264, 2) ∧
    (okOf (step (State.launch Params.default ⟨256, [0x00100082, 0x00008204, 0x7F]⟩ (regs 0 0)))).map
      (fun t => (t.pc, t.wbr.isSome)) = some (264, true) := by decide

/-- A cycle of a busy core completes: the premise of the statements about what a cycle leaves (PreLatchesReachPostLatches, AddressPathAdvancesOneLatch, RegistersAfterACycle, MemoryAfterACycle, CodeRegionNeverChanges,
CyclesAreCounted, RunEndsExactlyAtBreak, EveryStepKeepsTheInvariant, ScoreboardStaysExactWithoutJalConflict). -/
theorem witness_step :
    busy.mem.wf = true ∧ busy.iq.length ≤ 4 ∧ busy.pre.log = none ∧ busy.premem.isSome = true ∧
    ∃ t, step busy = .next t ∧
      (decide (t.postAdd = some ⟨.add 4 1 2, 8⟩) && decide (t.postmem = some ⟨.lw 5 0 276, -20⟩) &&
        decide (t.premem = some ⟨.sw 0 1 272, 272, 5⟩) && decide (t.read 6 = 9) && !t.isPending 6) = true :=
  ⟨by decide, by decide, rfl, rfl, exists_next _ (by decide)⟩

/-- A cycle whose store writes, one that halts, one that links. -/
theorem witness_step_store_break_jal :
    (∃ t, step { launched with premem := some ⟨.sw 0 1 272, 272, 5⟩ } = .next t ∧ decide (t.mem.readWord 272 = 5) = true) ∧
    (∃ t, step ending = .next t ∧ t.halted = true) ∧
    ∃ t, step linking = .next t ∧ (decide (t.fx = some (.jal 9 0)) && decide (t.read 9 = 268)) = true :=
  ⟨exists_next _ (by decide), exists_next _ (by decide), exists_next _ (by decide)⟩

/-- Two latches that name one register: the later one in the order of R116 stays, here the logic/shift unit's; and the link of
a `jal` to a register that a latch names is overwritten in the same cycle (R125). -/
theorem witness_RegistersAfterACycle :
    (okOf (step { busy with postmem := some ⟨.lw 6 0 0, 1⟩, postAdd := some ⟨.add 6 1 2, 2⟩ })).map (·.read 6) = some 9 ∧
    (okOf (step { busy with postmem := some ⟨.lw 3 0 0, 1⟩, postAdd := some ⟨.add 3 1 2, 2⟩ })).map (·.read 3) = some 2 ∧
    (okOf (step { linking with postmem := some ⟨.lw 9 0 0, 1⟩ })).map (·.read 9) = some 1 := by decide

/-- The `jal` of `linking` names a register that nothing queued or in flight writes, and the scoreboard is exact. -/
theorem witness_ScoreboardStaysExactWithoutJalConflict :
    Inv linking ∧ ScoreboardExact linking ∧ (9 : Reg) ≠ 0 ∧ ∀ i ∈ linking.iq ++ linking.inFlight, dstOf i ≠ some 9 :=
  ⟨inv_pc busy_inv rfl _, by unfold ScoreboardExact; decide, by decide, by decide⟩

/-- Execute, advance and rotate in cycles that complete. -/
theorem witness_RotationMovesStagingToPre :
    (∃ s6, execute { busy with postLog := none } = .next s6 ∧ (okOf (addressAdvance { s6 with premem := none })).isSome = true) ∧
    (∃ s1, issue { busy with cycle := busy.cycle + 1, fx := none } = .next s1 ∧ s1.stg.add.isSome = true) ∧
    ∃ t, step busy = .next t ∧ true = true :=
  ⟨exists_next _ (by decide), exists_next _ (by decide), exists_next (fun _ => true) (by decide)⟩

/-- `pc` at the ends of what may not be fetched, an invalid word in the code region, and the same for the second slot: an
image whose first word is an `addi` and whose second is invalid, and a legal `pc` whose next word is past the boundary (only a
state that no run reaches: the last code word is then no `break`). -/
theorem witness_FetchSideFaultsStopTheCycle :
    [272, 252, 258].map (fun a => faultOf (step { busy with pc := a }))
      = [some (.fetchFault 272), some (.fetchFault 252), some (.fetchFault 258)] ∧
    faultOf (step (State.launch Params.default ⟨256, [0x0000002B, 0x7F]⟩ (regs 0 0))) = some (.decodeFault 256 0x2B) ∧
    (okOf (issue { busy with pc := 272, cycle := busy.cycle + 1, fx := none })).map (·.iq.length) = some 0 ∧
    faultOf (step (State.launch Params.default ⟨256, [0x00100082, 0x0000002B, 0x7F]⟩ (regs 0 0))) = some (.decodeFault 260 0x2B) ∧
    faultOf (step { launched with map := ⟨256, 260, 288⟩ }) = some (.fetchFault 260) := by decide

theorem witness_NoStepAfterTheEnd :
    ({ busy with halted := true }).halted = true ∧ ({ busy with fault := some (.fetchFault 0) }).fault.isSome = true := by decide

theorem witness_LegalStatesStepOrFaultByName : Inv busy ∧ busy.halted = false := ⟨busy_inv, rfl⟩

/-- A legal state whose memory stage faults, a store to the last code word, and its issue and fetch steps complete. -/
def storing : State := { launched with premem := some ⟨.sw 0 1 268, 268, 5⟩ }

theorem witness_MemFaultsComeFromThePreMemoryLatch :
    Inv storing ∧ step storing = .fault (.memFault 268 .write) ∧ storing.halted = false ∧
    (∃ s1, issue { storing with cycle := storing.cycle + 1, fx := none } = .next s1 ∧ (okOf (fetchDecode s1)).isSome = true) ∧
    ¬storing.map.InRange ⟨.sw 0 1 268, 268, 5⟩ ∧ ¬storing.map.InRange ⟨.lw 1 0 288, 288, 288⟩ := by
  refine ⟨?_, fault_of_faultOf (by decide), rfl, exists_next _ (by decide), ?_, ?_⟩
  · exact
      { noFault := rfl, haltedIff := by decide, resting := rfl, stagingEmpty := rfl, queueShort := by decide
        queueKinds := by decide, waitingKind := nofun, waitingFallThrough := nofun, fetchExecutedKind := nofun
        preKinds := by rintro (_ | _ | _) e ⟨⟩
        prememKind := by rintro m ⟨⟩; rfl
        postmemKind := nofun, postAddKind := nofun, postLogKind := nofun, heldWellFormed := by decide
        zeroRegister := by decide, zeroBit := by decide, pendingHasWriter := by decide, memCanonical := by decide, memInside := by decide
        mapLegal := launched_map_legal, encValid := by decide }
  · unfold MemMap.InRange; decide
  · unfold MemMap.InRange; decide

/-- At the first and at the last code word. -/
theorem witness_OnlyTransfersLeaveTheCodeRegion :
    Inv busy ∧ CodeEndsInBreak busy ∧ busy.map.fetchable busy.pc = true ∧ Inv ending ∧ CodeEndsInBreak ending ∧
    ending.map.fetchable ending.pc = true :=
  ⟨busy_inv, by unfold CodeEndsInBreak; decide, by decide, inv_pc busy_inv rfl _, by unfold CodeEndsInBreak; decide, by decide⟩

/-- Every code word of the image decodes, and the load at the memory stage is in range. -/
theorem witness_LegalStatesCompleteWhenTheContractHolds :
    Inv busy ∧ busy.halted = false ∧ CodeEndsInBreak busy ∧ busy.map.fetchable busy.pc = true ∧
    (∀ a : Word, busy.map.fetchable a = true → ∃ i, decodeWith busy.par.enc (busy.mem.readWord a.toNat) = .ok i) ∧
    (∀ m, busy.premem = some m → if isLoad m.inst then busy.map.readable m.addr = true else busy.map.writable m.addr = true) := by
  refine ⟨busy_inv, rfl, by unfold CodeEndsInBreak; decide, by decide, fun a ha => ?_, by rintro m ⟨⟩; decide⟩
  have h := (aligned4In_iff _ _ a).mp ha
  rw [show busy.map.base = 256 by decide, show busy.map.boundary = 272 by decide] at h
  have hc : a.toNat = 256 ∨ a.toNat = 260 ∨ a.toNat = 264 ∨ a.toNat = 268 := by omega
  rcases hc with e | e | e | e <;> rw [e]
  · exact ⟨.addi 7 0 1, by rfl⟩
  · exact ⟨.beq 0 0 0, by rfl⟩
  · exact ⟨.jal 9 0, by rfl⟩
  · exact ⟨.brk, by rfl⟩

theorem witness_LaunchMeetsTheInvariant :
    Config.enc.valid = true ∧ dataImage.valid Config.enc = true ∧ otherParams.enc.valid = true ∧
    (⟨256, [0x00002010, 0x0000007F, 0x00000001]⟩ : Image).valid otherParams.enc = true := by decide

/-- Empty latches; an operation that completes and one that faults. -/
theorem witness_StagesComposeToTheOperation :
    launched.wbr = none ∧ launched.stg = noEntries ∧ launched.pre = noEntries ∧ launched.premem = none ∧
    launched.postmem = none ∧ launched.postAdd = none ∧ launched.postLog = none ∧
    (∃ t, operation (.lw 3 0 276) launched = .next t ∧ decide (t.read 3 = -20) = true) ∧
    operation (.sw 0 1 268) launched = .fault (.memFault 268 .write) :=
  ⟨rfl, rfl, rfl, rfl, rfl, rfl, rfl, exists_next _ (by decide), fault_of_faultOf (by decide)⟩

/-- Two branches alike but for their address; four data words, in one row; a queue slot that is full and one that is not. -/
theorem witness_SnapshotShowsTheVisibleStateOnly :
    (⟨.beq 1 2 4, 256⟩ : BranchEntry).inst = (⟨.beq 1 2 4, 260⟩ : BranchEntry).inst ∧
    launched.snapshot.data = [10, -20, 30, -40] ∧ launched.snapshot.dataRows = [[10, -20, 30, -40]] ∧
    launched.snapshot.regRows.length = 4 ∧ busy.snapshot.queue = [some (.sub 8 1 2), none, none, none] ∧
    busy.snapshot.postLog = some (.ori 6 0 9) := by decide

/-- Reset, and an aligned `pc` at the very top of the address space. -/
theorem witness_PlacedWordIsFetchedNext :
    State.reset.mem.wf = true ∧ State.reset.pc.toNat % 4 = 0 ∧
    okOf ((({ State.reset with pc := 0xFFFFFFFC }).withFetchWord 32 0x7F).fetch 0xFFFFFFFC) = some 0x7F := by decide

end Sys2Proof.Tests
end

section
/-! The pipeline engine: what a cycle keeps from branch resolution on, and the statements about the waiting branch, the end of
the run, rotation and the queue's tail (R108, R110, R120, R122, R126). -/

namespace Sys2Proof.PipelineEngine

open Sys2Proof Sys2Proof.Machine

/-! ### An instruction at the fetch stage -/

/-- `exec` is what `serve` hands an instruction to, so the laws of `serve` speak of it at the stage the cursor names. -/
theorem exec_eq_serve {p : Stage} {s : State} (hp : s.stage = p) (i : Instr) : exec i s = serve p i s := by
  subst hp; rfl

/-- The eleven ordinary instructions are those of the functional units (R88). -/
theorem isQueued_iff_mnemonic_mem (i : Instr) :
    isQueued i = true ↔ i.mnemonic ∈ [.sw, .lw, .add, .sub, .addi, .and, .or, .andi, .ori, .sll, .sra] := by
  cases i <;> simp [isQueued, unitOf, Instr.mnemonic]

/-- R110: of the four things an instruction can do at fetch, an ordinary one joins the queue. -/
theorem serve_fetch_of_isQueued {i : Instr} (hq : isQueued i = true) (s : State) :
    serve .fetch i s = .next { s with stage := .fetch, iq := s.iq ++ [i], pc := nextPc s.pc } := by
  obtain ⟨t, ht⟩ := serve_fetch_total i s
  rcases serve_fetch_next ht with ⟨_, rfl⟩ | ⟨hb, _⟩ | ⟨rd, imm, rfl, _⟩ | ⟨rfl, _⟩
  · exact ht
  · rw [isQueued_of_isBranch hb] at hq; exact nomatch hq
  · exact nomatch hq
  · exact nomatch hq

/-- Settles O16: the cursor stands at fetch already, so only the queue and `pc` change. -/
theorem ordinaryInstructionsJoinTheQueue : Obligations.OrdinaryInstructionsJoinTheQueue := by
  intro i s hi hs
  rw [exec_eq_serve hs, serve_fetch_of_isQueued ((isQueued_iff_mnemonic_mem i).mpr hi), ← hs]
  rfl

/-! ### Steps 4 to 9 as one frame -/

/-- What steps 4 to 9 make of the state that branch resolution left: nothing of the fetch unit or the queue changes, the
staging latches become the pre latches, and `break` in the fetch-executed slot ends the run (R116 to R122). -/
structure TailFrame (s t : State) : Prop where
  pc : t.pc = s.pc
  wbr : t.wbr = s.wbr
  fx : t.fx = s.fx
  iq : t.iq = s.iq
  pre : t.pre = s.stg
  halted : t.halted = if s.fx = some .brk then true else s.halted

theorem tailFrame_of_steps {s3 s4 s5 s6 s7 t : State} (h4 : writeback s3 = .next s4) (h5 : memoryStage s4 = .next s5)
    (h6 : execute s5 = .next s6) (h7 : addressAdvance s6 = .next s7) (h8 : terminationTest (rotate s7) = .next t) :
    TailFrame s3 t := by
  have f4 := writeback_frame h4
  have f5 := memoryStage_frame h5
  have f6 := (execute_next h6).1
  have f7 := addressAdvance_frame h7
  rw [terminationTest_next h8]
  exact
    { pc := by simp [f7.pc, f6.pc, f5.pc, f4.pc]
      wbr := by simp [f7.wbr, f6.wbr, f5.wbr, f4.wbr]
      fx := by simp [f7.fx, f6.fx, f5.fx, f4.fx]
      iq := by simp [f7.iq, f6.iq, f5.iq, f4.iq]
      pre := by simp [f7.stg, f6.stg, f5.stg, f4.stg]
      halted := by simp [f7.fx, f6.fx, f5.fx, f4.fx, f7.halted, f6.halted, f5.halted, f4.halted] }

/-- A completed cycle is issue, fetch and branch resolution, and then the frame of the later steps. -/
theorem step_next_front {s t : State} (h : step s = .next t) :
    ended s = false ∧ ∃ s1 s2 s3, issue (housekeeping s) = .next s1 ∧ fetchDecode s1 = .next s2 ∧
      branchStage s2 = .next s3 ∧ TailFrame s3 t := by
  obtain ⟨he, s1, s2, s3, s4, s5, s6, s7, h1, h2, h3, h4, h5, h6, h7, h8⟩ := step_eq_next.mp h
  exact ⟨he, s1, s2, s3, h1, h2, h3, tailFrame_of_steps h4 h5 h6 h7 h8⟩

/-! ### The waiting branch (R108) -/

theorem fetchDecode_of_waiting {s : State} {b : BranchEntry} (hb : s.wbr = some b) : fetchDecode s = .next s := by
  simp [fetchDecode, hb]

theorem fetchDecode_of_not_waiting {s : State} (hb : s.wbr = none) : fetchDecode s = fetchSlots 2 s := by
  simp [fetchDecode, hb, Config.fetchWidth]

/-- The issue step only takes entries out of the queue (R105). -/
theorem issue_queue_sublist {s t : State} (h : issue s = .next t) : t.iq.Sublist s.iq := by
  obtain ⟨kept, hk, hs⟩ := (issue_next h).queue
  simpa [hk, Scan.start] using hs

/-- A waiting branch keeps the cycle from fetching: the queue only shrinks, and `pc` moves only by the branch's own
resolution. -/
theorem step_of_waiting {s t : State} {b : BranchEntry} (hb : s.wbr = some b) (h : step s = .next t) :
    t.iq.Sublist s.iq ∧ (t.wbr = s.wbr ∧ t.pc = s.pc ∨ t.wbr = none ∧ t.fx = some b.inst) := by
  obtain ⟨_, s1, s2, s3, h1, h2, h3, tail⟩ := step_next_front h
  have f1 := (issue_next h1).frame
  have hb1 : s1.wbr = some b := f1.wbr.trans hb
  obtain rfl : s1 = s2 := Host.Outcome.next.inj ((fetchDecode_of_waiting hb1).symm.trans h2)
  refine ⟨?_, ?_⟩
  · rw [tail.iq, (branchStage_frame h3).iq]
    simpa using issue_queue_sublist h1
  · rcases branchStage_next h3 with ⟨hn, _⟩ | ⟨_, _, _, rfl⟩ | ⟨b', pc, hb', _, _, rfl⟩
    · rw [hb1] at hn; exact nomatch hn
    · exact .inl ⟨tail.wbr.trans f1.wbr, tail.pc.trans f1.pc⟩
    · obtain rfl : b = b' := Option.some.inj (hb1.symm.trans hb')
      exact .inr ⟨tail.wbr, tail.fx⟩

/-- Settles O35: a clause each for the fetch step while a branch waits, the whole cycle, and the fetch step without one. -/
theorem waitingBranchSuspendsFetch : Obligations.WaitingBranchSuspendsFetch :=
  ⟨fun _ _ => fetchDecode_of_waiting, fun _ _ _ => step_of_waiting, fun _ => fetchDecode_of_not_waiting⟩

/-! ### The end of the run (R122, R126) -/

/-- Only the termination test halts a run, and it looks at the fetch-executed slot alone. -/
theorem step_halted_iff {s t : State} (h : step s = .next t) : t.halted = true ↔ t.fx = some .brk := by
  obtain ⟨he, s1, s2, s3, h1, h2, h3, tail⟩ := step_next_front h
  have live : s3.halted = false :=
    calc s3.halted = s2.halted := (branchStage_frame h3).halted
      _ = s1.halted := (fetchDecode_frame h2).halted
      _ = s.halted := (issue_next h1).frame.halted
      _ = false := (ended_eq_false.mp he).1
  simp [tail.halted, tail.fx, live]

theorem step_of_halted {s : State} (h : s.halted = true) : step s = .fault .noStep := by
  simp [step, cycleStep, ended, h]

theorem advance_of_next {s t : State} (h : step s = .next t) : advance s = (t, .cycle t.snapshot t.halted) := by
  simp [advance, h]

theorem advance_of_noStep {s : State} (h : step s = .fault .noStep) : advance s = (s, .nothing) := by
  simp [advance, h]

/-- Settles O47: after `break` the state is over, so both `step` and `advance` answer by that alone. -/
theorem runEndsExactlyAtBreak : Obligations.RunEndsExactlyAtBreak := by
  intro s t h
  refine ⟨step_halted_iff h, advance_of_next h, fun ht => ?_⟩
  have stopped : step t = .fault .noStep := step_of_halted ht
  exact ⟨stopped, advance_of_noStep stopped⟩

/-! ### Rotation (R120) -/

/-- Steps 6 and 7 empty every pre latch, so rotation overwrites nothing. -/
theorem pre_empty_before_rotation {s s6 s7 : State} (h6 : execute s = .next s6) (h7 : addressAdvance s6 = .next s7) :
    s7.pre = noEntries := by
  obtain ⟨_, hadd, hlog, _⟩ := execute_next h6
  have f7 := addressAdvance_frame h7
  apply eq_noEntries
  intro u
  cases u with
  | addr => exact f7.preAddr
  | add => exact f7.preAdd.trans hadd
  | log => exact f7.preLog.trans hlog

/-- Between issue and rotation nothing touches the staging latches. -/
theorem step_pre_eq_issued {s s1 t : State} (h1 : issue (housekeeping s) = .next s1) (h : step s = .next t) :
    t.pre = s1.stg := by
  obtain ⟨_, s1', s2, s3, h1', h2, h3, tail⟩ := step_next_front h
  obtain rfl : s1 = s1' := Host.Outcome.next.inj (h1.symm.trans h1')
  calc t.pre = s3.stg := tail.pre
    _ = s2.stg := (branchStage_frame h3).stg
    _ = s1.stg := (fetchDecode_frame h2).stg

/-- Settles O48: the snapshot reads the pre latches, which hold what issue staged. -/
theorem rotationMovesStagingToPre : Obligations.RotationMovesStagingToPre := by
  refine ⟨fun s => ⟨rotate_pre s, rotate_stg s⟩, fun _ _ _ => pre_empty_before_rotation, fun s s1 t h1 h => ?_⟩
  have hpre : t.pre = s1.stg := step_pre_eq_issued h1 h
  simp [State.snapshot, hpre]

end Sys2Proof.PipelineEngine
end

section
/-! Decoding and encoding (R70 to R85): a word of placed fields read back under any record R85 allows, and the default record's
opcode map, ignored bits and immediate ranges. -/

namespace Sys2Proof.Codec

open Sys2Proof Sys2Proof.Machine

/-! ### A word as a list of placed fields -/

/-- The word that holds each value in its field and zero elsewhere. -/
def placeAll (ps : List (Field × Nat)) : Word := ps.foldr (fun p w => place p.1 p.2 ||| w) 0

@[simp] theorem placeAll_nil : placeAll [] = 0 := rfl

@[simp] theorem placeAll_cons (p : Field × Nat) (ps : List (Field × Nat)) :
    placeAll (p :: ps) = place p.1 p.2 ||| placeAll ps := rfl

theorem allApart_cons {f : Field} {fs : List Field} :
    Field.allApart (f :: fs) = true ↔
      f.lo ≤ f.hi ∧ f.hi ≤ 31 ∧ (∀ g ∈ fs, f.apart g = true) ∧ Field.allApart fs = true := by
  simp [Field.allApart, and_assoc]

/-- A field apart from all placed ones reads 0. -/
theorem bitField_placeAll_apart {f : Field} {ps : List (Field × Nat)} (hf : ∀ p ∈ ps, f.apart p.1 = true)
    (hps : Field.allApart (ps.map Prod.fst) = true) : bitField f (placeAll ps) = 0 := by
  induction ps with
  | nil => exact bitField_zero f
  | cons p ps ih =>
    obtain ⟨hlo, _, _, hrest⟩ := allApart_cons.mp hps
    rw [placeAll_cons, bitField_or, bitField_place_apart _ hlo (hf p List.mem_cons_self),
      ih (fun q hq => hf q (List.mem_cons_of_mem _ hq)) hrest, Nat.or_zero]

/-- Each of several fields apart from each other reads what was placed in it (R83, R85). -/
theorem bitField_placeAll {f : Field} {v : Nat} {ps : List (Field × Nat)} (hps : Field.allApart (ps.map Prod.fst) = true)
    (hf : (f, v) ∈ ps) : bitField f (placeAll ps) = v % 2 ^ f.width := by
  induction ps with
  | nil => exact nomatch hf
  | cons p ps ih =>
    obtain ⟨hlo, hhi, hapart, hrest⟩ := allApart_cons.mp hps
    rw [placeAll_cons, bitField_or]
    rcases List.mem_cons.mp hf with rfl | hf
    · rw [bitField_place_same _ hlo hhi, bitField_placeAll_apart (fun q hq => hapart _ (List.mem_map_of_mem hq)) hrest,
        Nat.or_zero]
    · have hfp : f.apart p.1 = true := by
        rw [Field.apart_comm]; exact hapart f (List.mem_map_of_mem hf)
      rw [bitField_place_apart _ hlo hfp, ih hrest hf, Nat.zero_or]

/-! ### What R85 asks of a record -/

/-- The clauses of `Enc.valid`, by name. -/
structure Allowed (e : Enc) : Prop where
  distinct : (Mnemonic.all.map e.opcode).Nodup
  fits : ∀ m, e.opcode m < 2 ^ e.opc.width
  rdWidth : e.rd.width = 5
  rs1Width : e.rs1.width = 5
  rs2Width : e.rs2.width = 5
  immWidths : e.immSHi.width + e.immSLo.width = 12
  shapeS : Field.allApart [e.opc, e.rs1, e.rs2, e.immSHi, e.immSLo] = true
  shapeR : Field.allApart [e.opc, e.rd, e.rs1, e.rs2] = true
  shapeI : Field.allApart [e.opc, e.rd, e.rs1, Config.immIField] = true
  shapeJ : Field.allApart [e.opc, e.rd, Config.immJField] = true

theorem allowed_of_valid {e : Enc} (h : e.valid = true) : Allowed e := by
  simp only [Enc.valid, Bool.and_eq_true, decide_eq_true_eq, List.all_eq_true, beq_iff_eq] at h
  obtain ⟨⟨⟨⟨⟨⟨⟨⟨⟨⟨distinct, fits⟩, _⟩, rdWidth⟩, rs1Width⟩, rs2Width⟩, immWidths⟩, shapeS⟩, shapeR⟩, shapeI⟩, shapeJ⟩ := h
  exact { distinct, fits := fun m => fits m m.mem_all, rdWidth, rs1Width, rs2Width, immWidths, shapeS, shapeR, shapeI, shapeJ }

/-! ### Fields read back -/

/-- A register placed in a 5-bit field reads back. -/
theorem regField_eq {f : Field} {w : Word} {r : Reg} (hw : f.width = 5) (h : bitField f w = r.val % 2 ^ f.width) :
    regField f w = r := by
  apply Fin.ext
  have hr := r.isLt
  simp [regField, Fin.ofNat, h, hw]

/-- The two parts of a number of `a + b` bits put together again. -/
theorem split_join (x : Nat) {a b n : Nat} (hn : a + b = n) :
    x % 2 ^ n / 2 ^ b % 2 ^ a * 2 ^ b + x % 2 ^ b = x % 2 ^ n := by
  subst hn
  have hlt : x % 2 ^ (a + b) / 2 ^ b < 2 ^ a := by
    rw [Nat.div_lt_iff_lt_mul (Nat.two_pow_pos b), ← pow_add]
    exact Nat.mod_lt _ (Nat.two_pow_pos _)
  have hmod : x % 2 ^ b = x % 2 ^ (a + b) % 2 ^ b := (Nat.mod_mod_of_dvd x (pow_dvd_pow 2 (Nat.le_add_left b a))).symm
  rw [Nat.mod_eq_of_lt hlt, hmod, Nat.div_add_mod']

/-- A 12-bit immediate of the range of the S and I shapes is its low 12 bits sign-extended (R73, R74). -/
theorem sext_imm12 {imm : Word} (h : imm12Ok imm = true) : sext 12 (imm.toNat % 2 ^ 12) = imm := by
  simp only [imm12Ok, Bool.and_eq_true, decide_eq_true_eq] at h
  exact sext_toNat (by decide) (by decide) (by omega) (by omega)

/-- A 20-bit immediate of the range of the J shape is its low 20 bits sign-extended (R76). -/
theorem sext_imm20 {imm : Word} (h : imm20Ok imm = true) : sext 20 (imm.toNat % 2 ^ 20) = imm := by
  simp only [imm20Ok, Bool.and_eq_true, decide_eq_true_eq] at h
  exact sext_toNat (by decide) (by decide) (by omega) (by omega)

/-! ### Decoding an encoding -/

/-- A word whose opcode field holds a variant's value decodes to that variant with the word's fields (R77). -/
theorem decodeWith_of_opcode {e : Enc} (he : Allowed e) {w : Word} {m : Mnemonic}
    (h : bitField e.opc w = e.opcode m % 2 ^ e.opc.width) : decodeWith e w = .ok (fieldsOf e w m) := by
  rw [decodeWith, h, Nat.mod_eq_of_lt (he.fits m), mnemonicOf_opcode he.distinct]

section Shapes

variable {e : Enc} (he : Allowed e) {m : Mnemonic} {w : Word} {rd rs1 rs2 : Reg} {imm : Word}
include he

/-- The fields of an S-shape word. -/
theorem read_shapeS (hw : w = encodeS e rs1 rs2 imm ||| place e.opc (e.opcode m)) (hi : imm12Ok imm = true) :
    decodeWith e w = .ok (fieldsOf e w m) ∧ regField e.rs1 w = rs1 ∧ regField e.rs2 w = rs2 ∧ immS e w = imm := by
  have hp : w = placeAll [(e.opc, e.opcode m), (e.rs1, rs1.val), (e.rs2, rs2.val),
      (e.immSHi, imm.toNat % 2 ^ 12 / 2 ^ e.immSLo.width), (e.immSLo, imm.toNat)] := by
    simp only [hw, encodeS, placeAll_cons, placeAll_nil, BitVec.ofNat_eq_ofNat, BitVec.or_zero]
    ac_rfl
  have read : ∀ f v, (f, v) ∈ _ → bitField f w = v % 2 ^ f.width := fun f v => by
    rw [hp]; exact bitField_placeAll he.shapeS
  refine ⟨decodeWith_of_opcode he (read _ _ (by simp)), regField_eq he.rs1Width (read _ _ (by simp)),
    regField_eq he.rs2Width (read _ _ (by simp)), ?_⟩
  rw [immS, read e.immSHi (imm.toNat % 2 ^ 12 / 2 ^ e.immSLo.width) (by simp), read e.immSLo imm.toNat (by simp),
    split_join _ he.immWidths, sext_imm12 hi]

/-- The fields of an R-shape word. -/
theorem read_shapeR (hw : w = encodeR e rd rs1 rs2 ||| place e.opc (e.opcode m)) :
    decodeWith e w = .ok (fieldsOf e w m) ∧ regField e.rd w = rd ∧ regField e.rs1 w = rs1 ∧ regField e.rs2 w = rs2 := by
  have hp : w = placeAll [(e.opc, e.opcode m), (e.rd, rd.val), (e.rs1, rs1.val), (e.rs2, rs2.val)] := by
    simp only [hw, encodeR, placeAll_cons, placeAll_nil, BitVec.ofNat_eq_ofNat, BitVec.or_zero]
    ac_rfl
  have read : ∀ f v, (f, v) ∈ _ → bitField f w = v % 2 ^ f.width := fun f v => by
    rw [hp]; exact bitField_placeAll he.shapeR
  exact ⟨decodeWith_of_opcode he (read _ _ (by simp)), regField_eq he.rdWidth (read _ _ (by simp)),
    regField_eq he.rs1Width (read _ _ (by simp)), regField_eq he.rs2Width (read _ _ (by simp))⟩

/-- The fields of an I-shape word. -/
theorem read_shapeI (hw : w = encodeI e rd rs1 imm ||| place e.opc (e.opcode m)) (hi : imm12Ok imm = true) :
    decodeWith e w = .ok (fieldsOf e w m) ∧ regField e.rd w = rd ∧ regField e.rs1 w = rs1 ∧ immI w = imm := by
  have hp : w = placeAll [(e.opc, e.opcode m), (e.rd, rd.val), (e.rs1, rs1.val), (Config.immIField, imm.toNat)] := by
    simp only [hw, encodeI, placeAll_cons, placeAll_nil, BitVec.ofNat_eq_ofNat, BitVec.or_zero]
    ac_rfl
  have read : ∀ f v, (f, v) ∈ _ → bitField f w = v % 2 ^ f.width := fun f v => by
    rw [hp]; exact bitField_placeAll he.shapeI
  refine ⟨decodeWith_of_opcode he (read _ _ (by simp)), regField_eq he.rdWidth (read _ _ (by simp)),
    regField_eq he.rs1Width (read _ _ (by simp)), ?_⟩
  rw [immI, read _ imm.toNat (by simp)]
  exact sext_imm12 hi

/-- The fields of a J-shape word. -/
theorem read_shapeJ (hw : w = place Config.immJField imm.toNat ||| place e.rd rd ||| place e.opc (e.opcode m))
    (hi : imm20Ok imm = true) : decodeWith e w = .ok (fieldsOf e w m) ∧ regField e.rd w = rd ∧ immJ w = imm := by
  have hp : w = placeAll [(e.opc, e.opcode m), (e.rd, rd.val), (Config.immJField, imm.toNat)] := by
    simp only [hw, placeAll_cons, placeAll_nil, BitVec.ofNat_eq_ofNat, BitVec.or_zero]
    ac_rfl
  have read : ∀ f v, (f, v) ∈ _ → bitField f w = v % 2 ^ f.width := fun f v => by
    rw [hp]; exact bitField_placeAll he.shapeJ
  refine ⟨decodeWith_of_opcode he (read _ _ (by simp)), regField_eq he.rdWidth (read _ _ (by simp)), ?_⟩
  rw [immJ, read _ imm.toNat (by simp)]
  exact sext_imm20 hi

/-- The word of `break` holds its opcode value. -/
theorem read_shapeN (hw : w = 0 ||| place e.opc (e.opcode m)) : decodeWith e w = .ok (fieldsOf e w m) := by
  obtain ⟨hlo, hhi, _⟩ := allApart_cons.mp he.shapeJ
  apply decodeWith_of_opcode he
  rw [hw, bitField_or, bitField_zero, Nat.zero_or, bitField_place_same _ hlo hhi]

end Shapes

/-- R83: the shapes' laws, one for each variant. -/
theorem decodeWith_encodeWith {e : Enc} (he : Allowed e) (i : Instr) (hi : i.wellFormed = true) :
    decodeWith e (encodeWith e i) = .ok i := by
  generalize hw : encodeWith e i = w
  cases i with
  | beq | bne | blt | sw =>
    obtain ⟨hd, h1, h2, h3⟩ := read_shapeS he hw.symm hi
    exact hd.trans (by simp only [fieldsOf, Instr.mnemonic, h1, h2, h3])
  | add | sub | and | or =>
    obtain ⟨hd, h1, h2, h3⟩ := read_shapeR he hw.symm
    exact hd.trans (by simp only [fieldsOf, Instr.mnemonic, h1, h2, h3])
  | addi | andi | ori | sll | sra | lw =>
    obtain ⟨hd, h1, h2, h3⟩ := read_shapeI he hw.symm hi
    exact hd.trans (by simp only [fieldsOf, Instr.mnemonic, h1, h2, h3])
  | jal =>
    obtain ⟨hd, h1, h2⟩ := read_shapeJ he hw.symm hi
    exact hd.trans (by simp only [fieldsOf, Instr.mnemonic, h1, h2])
  | brk => exact read_shapeN he hw.symm

/-- Settles O12: under any allowed record the fields of a shape are apart, so each reads back what was placed in it. -/
theorem decodeInvertsEncode : Obligations.DecodeInvertsEncode := fun _ i hv hi =>
  decodeWith_encodeWith (allowed_of_valid hv) i hi

/-! ### What the decoder gives -/

/-- The decoder gives the fields of the one variant whose opcode value the word holds (R77). -/
theorem decodeWith_ok {e : Enc} {w : Word} {i : Instr} (h : decodeWith e w = .ok i) :
    ∃ m, e.opcode m = bitField e.opc w ∧ i = fieldsOf e w m := by
  unfold decodeWith at h
  split at h
  · rename_i m hm
    exact ⟨m, by simpa using List.find?_some hm, (Except.ok.inj h).symm⟩
  · exact nomatch h

@[simp] theorem mnemonic_fieldsOf (e : Enc) (w : Word) (m : Mnemonic) : (fieldsOf e w m).mnemonic = m := by
  cases m <;> rfl

/-- A word is rejected exactly if its opcode field holds no variant's value (R79). -/
theorem decodeWith_error_iff (e : Enc) (w : Word) :
    (∃ err, decodeWith e w = .error err) ↔ ∀ m, e.opcode m ≠ bitField e.opc w := by
  unfold decodeWith
  cases hm : mnemonicOf e (bitField e.opc w) with
  | none =>
    have hnone : ∀ m ∈ Mnemonic.all, ¬(e.opcode m == bitField e.opc w) = true := List.find?_eq_none.mp hm
    simpa using fun m => hnone m m.mem_all
  | some m =>
    have heq : e.opcode m = bitField e.opc w := by simpa using List.find?_some hm
    simpa using ⟨m, heq⟩

/-! ### Immediate ranges -/

/-- A value sign-extended from `n` bits is in the range of `n` bits (R10). -/
theorem sext_bounds {n : Nat} (hn : n ≤ 32) (v : Nat) :
    -(2 ^ (n - 1) : Int) ≤ (sext n v).toInt ∧ (sext n v).toInt < 2 ^ (n - 1) := by
  rw [sext, BitVec.toInt_signExtend_of_le hn]
  have hlt := BitVec.toInt_lt (x := BitVec.ofNat n v)
  have hle := BitVec.le_toInt (BitVec.ofNat n v)
  exact ⟨hle, hlt⟩

theorem imm12Ok_sext (v : Nat) : imm12Ok (sext 12 v) = true := by
  obtain ⟨h1, h2⟩ := sext_bounds (n := 12) (by decide) v
  simp only [imm12Ok, Bool.and_eq_true, decide_eq_true_eq]
  omega

theorem imm20Ok_sext (v : Nat) : imm20Ok (sext 20 v) = true := by
  obtain ⟨h1, h2⟩ := sext_bounds (n := 20) (by decide) v
  simp only [imm20Ok, Bool.and_eq_true, decide_eq_true_eq]
  omega

theorem wellFormed_fieldsOf (e : Enc) (w : Word) (m : Mnemonic) : (fieldsOf e w m).wellFormed = true := by
  cases m with
  | add | sub | and | or | brk => rfl
  | jal => exact imm20Ok_sext _
  | beq | bne | blt | sw | addi | andi | ori | sll | sra | lw => exact imm12Ok_sext _

theorem wellFormed_of_decodeWith {e : Enc} {w : Word} {i : Instr} (h : decodeWith e w = .ok i) : i.wellFormed = true := by
  obtain ⟨m, _, rfl⟩ := decodeWith_ok h
  exact wellFormed_fieldsOf e w m

/-- Settles O15: the decoder's immediates are sign-extended from 12 or 20 bits. -/
theorem decodeGivesWellFormed : Obligations.DecodeGivesWellFormed := fun _ _ _ => wellFormed_of_decodeWith

/-! ### The default record -/

/-- Settles O14: the opcode field of the default record is the low seven bits. -/
theorem decodeRejectsExactlyOtherOpcodes : Obligations.DecodeRejectsExactlyOtherOpcodes := by
  intro w
  have hfield : bitField Config.enc.opc w = w.toNat % 128 := by simp [bitField, Config.enc, Field.width]
  rw [decode, decodeWith_error_iff, hfield]
  constructor
  · intro h hmem
    have hvalue : ∃ m, Config.enc.opcode m = w.toNat % 128 :=
      (by decide : ∀ v ∈ [0x00, 0x01, 0x02, 0x03, 0x04, 0x05, 0x06, 0x08, 0x09, 0x0A, 0x0C, 0x0D, 0x0E, 0x12, 0x16, 0x7F],
        ∃ m ∈ Mnemonic.all, Config.enc.opcode m = v) _ hmem |>.imp fun _ h => h.2
    obtain ⟨m, hm⟩ := hvalue
    exact h m hm
  · intro h m hm
    rw [← hm] at h
    exact h (by cases m <;> decide)

/-- Settles O11: each word is decoded by evaluating the decoder. -/
theorem sampleWordsDecode : Obligations.SampleWordsDecode :=
  ⟨rfl, rfl, rfl, rfl, rfl, rfl, rfl, rfl, rfl, rfl, rfl, rfl, rfl, rfl, rfl, rfl, rfl, rfl, rfl⟩

/-! ### Encoding what was decoded -/

/-- The bits of a field, all set. -/
def fieldMask (f : Field) : Word := place f (2 ^ f.width - 1)

/-- Placing a field's own value keeps the word's bits in that field (R83). -/
theorem place_bitField {f : Field} (h : f.lo ≤ f.hi) (w : Word) : place f (bitField f w) = w &&& fieldMask f := by
  apply BitVec.eq_of_getLsbD_eq
  intro k hk
  rw [fieldMask, BitVec.getLsbD_and, getLsbD_place _ _ h, getLsbD_place _ _ h, testBit_bitField, Nat.testBit_two_pow_sub_one]
  by_cases h1 : f.lo ≤ k
  · rw [show f.lo + (k - f.lo) = k by omega, Bool.and_comm (w.getLsbD k)]
    simp only [Bool.and_assoc]
  · simp [h1]

/-- Only a value's low bits are placed. -/
theorem place_congr {f : Field} {u v : Nat} (h : u % 2 ^ f.width = v % 2 ^ f.width) : place f u = place f v := by
  rw [place, place, h]

theorem bitField_lt (f : Field) (w : Word) : bitField f w < 2 ^ f.width := Nat.mod_lt _ (Nat.two_pow_pos _)

theorem place_regField {f : Field} (hle : f.lo ≤ f.hi) (hw : f.width = 5) (w : Word) :
    place f (regField f w).val = w &&& fieldMask f := by
  have hval : (regField f w).val = bitField f w :=
    Nat.mod_eq_of_lt (show bitField f w < 32 by have := bitField_lt f w; rwa [hw] at this)
  rw [hval, place_bitField hle]

/-- The low `n` bits of a sign-extended value are the value's. -/
theorem sext_toNat_mod {n : Nat} (hn : n ≤ 32) (v : Nat) : (sext n v).toNat % 2 ^ n = v % 2 ^ n := by
  have h : (sext n v).setWidth n = BitVec.ofNat n v := by
    apply BitVec.eq_of_getLsbD_eq
    intro k hk
    rw [BitVec.getLsbD_setWidth, sext, BitVec.getLsbD_signExtend]
    simp [hk, show k < 32 by omega]
  simpa using congrArg BitVec.toNat h

theorem place_immI (w : Word) : place Config.immIField (immI w).toNat = w &&& fieldMask Config.immIField := by
  rw [← place_bitField (by decide)]
  exact place_congr (sext_toNat_mod (n := 12) (by decide) _)

theorem place_immJ (w : Word) : place Config.immJField (immJ w).toNat = w &&& fieldMask Config.immJField := by
  rw [← place_bitField (by decide)]
  exact place_congr (sext_toNat_mod (n := 20) (by decide) _)

/-- The low 12 bits of the split immediate are its two fields (R73). -/
theorem immS_toNat_mod (w : Word) :
    (immS Config.enc w).toNat % 2 ^ 12 = bitField Config.enc.immSHi w * 2 ^ 5 + bitField Config.enc.immSLo w := by
  have hhi := bitField_lt Config.enc.immSHi w
  have hlo := bitField_lt Config.enc.immSLo w
  rw [show Config.enc.immSHi.width = 7 by decide] at hhi
  rw [show Config.enc.immSLo.width = 5 by decide] at hlo
  rw [immS, sext_toNat_mod (by decide), show Config.enc.immSLo.width = 5 by decide]
  exact Nat.mod_eq_of_lt (by omega)

theorem place_immSHi (w : Word) :
    place Config.enc.immSHi ((immS Config.enc w).toNat % 2 ^ 12 / 2 ^ Config.enc.immSLo.width)
      = w &&& fieldMask Config.enc.immSHi := by
  have hlo := bitField_lt Config.enc.immSLo w
  rw [show Config.enc.immSLo.width = 5 by decide] at hlo ⊢
  rw [← place_bitField (by decide), immS_toNat_mod]
  congr 1
  omega

theorem place_immSLo (w : Word) :
    place Config.enc.immSLo (immS Config.enc w).toNat = w &&& fieldMask Config.enc.immSLo := by
  have hlo := bitField_lt Config.enc.immSLo w
  have himm := immS_toNat_mod w
  rw [← place_bitField (by decide)]
  apply place_congr
  rw [show Config.enc.immSLo.width = 5 by decide] at hlo ⊢
  omega

section Masks

variable {w : Word} {m : Mnemonic} (hm : Config.enc.opcode m = bitField Config.enc.opc w)
include hm

theorem place_opcode : place Config.enc.opc (Config.enc.opcode m) = w &&& fieldMask Config.enc.opc := by
  rw [hm, place_bitField (by decide)]

theorem encode_shapeS :
    encodeS Config.enc (regField Config.enc.rs1 w) (regField Config.enc.rs2 w) (immS Config.enc w)
      ||| place Config.enc.opc (Config.enc.opcode m) = w &&& 0xFFFF8FFF := by
  rw [encodeS, place_immSHi, place_immSLo, place_regField (by decide) (by decide), place_regField (by decide) (by decide),
    place_opcode hm]
  simp only [← BitVec.and_or_distrib_left]
  congr 1

theorem encode_shapeR :
    encodeR Config.enc (regField Config.enc.rd w) (regField Config.enc.rs1 w) (regField Config.enc.rs2 w)
      ||| place Config.enc.opc (Config.enc.opcode m) = w &&& 0x01FF8FFF := by
  rw [encodeR, place_regField (by decide) (by decide), place_regField (by decide) (by decide),
    place_regField (by decide) (by decide), place_opcode hm]
  simp only [← BitVec.and_or_distrib_left]
  congr 1

theorem encode_shapeI :
    encodeI Config.enc (regField Config.enc.rd w) (regField Config.enc.rs1 w) (immI w)
      ||| place Config.enc.opc (Config.enc.opcode m) = w &&& 0xFFFF8FFF := by
  rw [encodeI, place_immI, place_regField (by decide) (by decide), place_regField (by decide) (by decide), place_opcode hm]
  simp only [← BitVec.and_or_distrib_left]
  congr 1

theorem encode_shapeJ :
    place Config.immJField (immJ w).toNat ||| place Config.enc.rd (regField Config.enc.rd w).val
      ||| place Config.enc.opc (Config.enc.opcode m) = w &&& 0xFFFFFFFF := by
  rw [place_immJ, place_regField (by decide) (by decide), place_opcode hm]
  simp only [← BitVec.and_or_distrib_left]
  congr 1

theorem encode_shapeN : 0 ||| place Config.enc.opc (Config.enc.opcode m) = w &&& 0x0000007F := by
  rw [place_opcode hm, BitVec.ofNat_eq_ofNat, BitVec.zero_or]
  congr 1

end Masks

/-- Settles O13: the encoder puts every field back where the decoder read it, and nothing elsewhere. -/
theorem encodeInvertsDecodeUpToIgnoredBits : Obligations.EncodeInvertsDecodeUpToIgnoredBits := by
  intro w i h
  obtain ⟨m, hm, rfl⟩ := decodeWith_ok h
  rw [mnemonic_fieldsOf]
  cases m with
  | beq | bne | blt | sw => exact encode_shapeS hm
  | add | sub | and | or => exact encode_shapeR hm
  | addi | andi | ori | sll | sra | lw => exact encode_shapeI hm
  | jal => exact encode_shapeJ hm
  | brk => exact encode_shapeN hm

end Sys2Proof.Codec
end

section
/-! The register file and the scoreboard (R22 to R26), the memory as an array of words and its checks (R50 to R63), and the
launch of an image (R43, R53, R54, R200). -/

namespace Sys2Proof.Storage

open Sys2Proof Sys2Proof.Machine

/-! ### Registers and scoreboard -/

/-- Settles O1: reading looks at the stored registers alone. -/
theorem registerReadIsZeroOrStored : Obligations.RegisterReadIsZeroOrStored := fun _ _ _ => ⟨rfl, rfl⟩

/-- A register write touches the stored registers and the scoreboard, and nothing else. -/
theorem write_eq (s : State) (r : Reg) (v : Word) :
    s.write r v = { s with x := (s.write r v).x, willwrite := (s.write r v).willwrite } := by
  unfold State.write
  split <;> rfl

/-- Settles O2: from the laws of a read and of a bit after a write. -/
theorem registerWriteStoresAndClears : Obligations.RegisterWriteStoresAndClears := by
  intro s r v
  refine ⟨?_, fun hr => ⟨s.read_write_same hr v, ?_⟩, fun q hq => ⟨s.read_write_ne hq v, ?_⟩, write_eq s r v⟩
  · rintro rfl; exact s.write_zero v
  · simp [State.isPending_write, hr]
  · simp [State.isPending_write, hq]

/-- Settles O3: from the law of a bit after marking. -/
theorem markPendingSetsOneBit : Obligations.MarkPendingSetsOneBit := by
  intro s r
  refine ⟨?_, fun hr => ?_, fun q hq => ?_, rfl⟩
  · rintro rfl
    rw [State.markPending_eq, regBit_zero, BitVec.ofNat_eq_ofNat, BitVec.or_zero]
  · simp [State.isPending_markPending, hr]
  · simp [State.isPending_markPending, hq]

/-- Neither a write nor a mark makes register 0 pending, or not pending. -/
theorem isPending_zero_writeOrMark (s : State) (o : Reg × Option Word) :
    (match o.2 with | some v => s.write o.1 v | none => s.markPending o.1).isPending 0 = s.isPending 0 := by
  obtain ⟨r, v | _⟩ := o
  · by_cases hr : r = 0 <;> simp [State.isPending_markPending, hr, eq_comm]
  · by_cases hr : r = 0 <;> simp [State.isPending_write, hr, eq_comm]

/-- Settles O4: by induction on the sequence. -/
theorem registerZeroStaysZeroAndUnmarked : Obligations.RegisterZeroStaysZeroAndUnmarked := by
  intro s ops
  refine ⟨State.read_zero _, ?_⟩
  induction ops generalizing s with
  | nil => rfl
  | cons o ops ih => exact (ih _).trans (isPending_zero_writeOrMark s o)

/-! ### Memory -/

theorem readWord_nil (a : Nat) : Memory.readWord [] a = Config.unlistedWord := rfl

theorem readWord_cons (k a : Nat) (v : Word) (m : Memory) :
    Memory.readWord ((k, v) :: m) a = if k = a then v else m.readWord a := rfl

/-- Two canonical memories that hold the same words are the same list (log entry 4). -/
theorem eq_of_readWord {k : Nat} {m n : Memory} (hm : Memory.wfAbove k m = true) (hn : Memory.wfAbove k n = true)
    (h : ∀ a, m.readWord a = n.readWord a) : m = n := by
  induction m generalizing k n with
  | nil =>
    cases n with
    | nil => rfl
    | cons d n =>
      obtain ⟨b, w⟩ := d
      have hb := h b
      rw [readWord_nil, readWord_cons, if_pos rfl] at hb
      exact absurd hb.symm ((Memory.wfAbove_cons _ _ _ _).mp hn).2.1
  | cons c m ih =>
    obtain ⟨a, v⟩ := c
    obtain ⟨_, hv, hm'⟩ := (Memory.wfAbove_cons _ _ _ _).mp hm
    have ha := h a
    rw [readWord_cons, if_pos rfl] at ha
    cases n with
    | nil => exact absurd ha hv
    | cons d n =>
      obtain ⟨b, w⟩ := d
      obtain ⟨_, hw, hn'⟩ := (Memory.wfAbove_cons _ _ _ _).mp hn
      have hb := h b
      rw [readWord_cons b b, if_pos rfl, readWord_cons] at hb
      rw [readWord_cons] at ha
      rcases lt_trichotomy a b with hlt | rfl | hlt
      · rw [if_neg (by omega), Memory.readWord_below hn' (by omega)] at ha
        exact absurd ha hv
      · rw [if_pos rfl] at ha
        subst ha
        congr 1
        refine ih hm' hn' fun c => ?_
        have hc := h c
        rw [readWord_cons, readWord_cons] at hc
        by_cases hac : a = c
        · subst hac
          rw [Memory.readWord_below hm' (by omega), Memory.readWord_below hn' (by omega)]
        · rwa [if_neg hac, if_neg hac] at hc
      · rw [if_neg (by omega), Memory.readWord_below hm' (by omega)] at hb
        exact absurd hb.symm hw

/-- One word after a write (R57, R58). -/
theorem readWord_writeWord {m : Memory} (hm : m.wf = true) (a b : Nat) (v : Word) :
    (m.writeWord a v).readWord b = if b = a then v else m.readWord b := by
  split
  · subst_vars; exact Memory.readWord_writeWord_same _ v hm
  · exact Memory.readWord_writeWord_ne m v ‹_›

/-- Settles O10: the word laws, and that a canonical list is its words. -/
theorem memoryIsAnArrayOfWords : Obligations.MemoryIsAnArrayOfWords :=
  ⟨fun _ a b v hm => ⟨Memory.writeWord_wf a v hm, readWord_writeWord hm a b v⟩, fun _ _ => eq_of_readWord⟩

/-! ### The checks of an access -/

theorem memRead_of_readable {s : State} {addr : Word} (h : s.map.readable addr = true) :
    s.memRead addr = .next (s.mem.readWord addr.toNat) := if_pos h

theorem memRead_of_not_readable {s : State} {addr : Word} (h : ¬s.map.readable addr = true) :
    s.memRead addr = .fault (.memFault addr .read) := if_neg h

theorem memWrite_of_writable {s : State} {addr : Word} (v : Word) (h : s.map.writable addr = true) :
    s.memWrite addr v = .next { s with mem := s.mem.writeWord addr.toNat v } := if_pos h

theorem memWrite_of_not_writable {s : State} {addr : Word} (v : Word) (h : ¬s.map.writable addr = true) :
    s.memWrite addr v = .fault (.memFault addr .write) := if_neg h

/-- A store that completes was in its range and wrote its word. -/
theorem memWrite_next {s t : State} {addr v : Word} (h : s.memWrite addr v = .next t) :
    s.map.writable addr = true ∧ t = { s with mem := s.mem.writeWord addr.toNat v } := by
  by_cases hw : s.map.writable addr = true
  · rw [memWrite_of_writable v hw] at h; exact ⟨hw, (Host.Outcome.next.inj h).symm⟩
  · rw [memWrite_of_not_writable v hw] at h; exact nomatch h

/-- Settles O8: the two checks and their failures. -/
theorem dataAccessesAreChecked : Obligations.DataAccessesAreChecked := by
  intro s addr v
  simp only [← aligned4In_iff]
  exact ⟨memRead_of_readable, memRead_of_not_readable, memWrite_of_writable v, memWrite_of_not_writable v⟩

/-- What may be stored to may be loaded (R52). -/
theorem readable_of_writable {p : MemMap} (hp : p.Legal) {addr : Word} (h : p.writable addr = true) :
    p.readable addr = true := by
  obtain ⟨h1, h2, h3⟩ := (aligned4In_iff _ _ _).mp h
  exact (aligned4In_iff _ _ _).mpr ⟨h1, hp.baseLe.trans h2, h3⟩

/-- Settles O9: the word laws under the two checks. -/
theorem storeThenLoadReturnsValue : Obligations.StoreThenLoadReturnsValue := by
  intro s t addr v hp hm h
  obtain ⟨hw, rfl⟩ := memWrite_next h
  constructor
  · have hr := readable_of_writable hp hw
    exact (memRead_of_readable (s := { s with mem := s.mem.writeWord addr.toNat v }) hr).trans
      (congrArg _ (Memory.readWord_writeWord_same _ v hm))
  · intro b hb
    have hne : b.toNat ≠ addr.toNat := fun hc => hb (BitVec.eq_of_toNat_eq hc)
    simp only [State.memRead, Memory.readWord_writeWord_ne _ _ hne]

/-! ### The code region of an image -/

/-- Under an allowed record a `break` word is one that decodes to `break` (R53, R77). -/
theorem isBreakWord_iff {e : Enc} (he : e.valid = true) (w : Word) :
    isBreakWord e w = true ↔ decodeWith e w = .ok .brk := by
  have allowed := Codec.allowed_of_valid he
  rw [isBreakWord, beq_iff_eq]
  constructor
  · intro h
    exact Codec.decodeWith_of_opcode allowed (h.trans (Nat.mod_eq_of_lt (allowed.fits .brk)).symm)
  · intro h
    obtain ⟨m, hm, hi⟩ := Codec.decodeWith_ok h
    have : Mnemonic.brk = m := (congrArg Instr.mnemonic hi).trans (Codec.mnemonic_fieldsOf e w m)
    rw [← hm, this]

/-- The scan's answer, both ways (R53). -/
theorem codeLength_eq_some_iff {e : Enc} {ws : List Word} {n : Nat} :
    codeLength e ws = some n ↔ ∃ k w, ws[k]? = some w ∧ isBreakWord e w = true ∧ n = k + 1 ∧
      ∀ (j : Nat) (v : Word), j < k → ws[j]? = some v → isBreakWord e v = false := by
  constructor
  · intro h
    obtain ⟨h1, _, ⟨w, hw, hb⟩, hbefore⟩ := codeLength_some h
    exact ⟨n - 1, w, hw, hb, by omega, hbefore⟩
  · rintro ⟨k, w, hw, hb, rfl, hbefore⟩
    cases hc : codeLength e ws with
    | none =>
      have := codeLength_none hc w (List.mem_of_getElem? hw)
      rw [hb] at this; exact nomatch this
    | some m =>
      obtain ⟨h1, _, ⟨v, hv, hbv⟩, hbefore'⟩ := codeLength_some hc
      rcases lt_trichotomy k (m - 1) with hlt | heq | hlt
      · rw [hbefore' k w hlt hw] at hb; exact nomatch hb
      · rw [heq]; congr 1; omega
      · rw [hbefore _ v hlt hv] at hbv; exact nomatch hbv

/-- Settles O7: the scan stops at the first word that decodes to `break`. -/
theorem boundaryFollowsFirstBreak : Obligations.BoundaryFollowsFirstBreak := by
  intro e im b he
  simp only [Image.boundary, Option.map_eq_some_iff, codeLength_eq_some_iff, ← isBreakWord_iff he, ne_eq, Bool.not_eq_true]
  constructor
  · rintro ⟨_, ⟨k, w, hw, hb, rfl, hbefore⟩, rfl⟩
    exact ⟨k, w, hw, hb, by omega, hbefore⟩
  · rintro ⟨k, w, hw, hb, rfl, hbefore⟩
    exact ⟨k + 1, ⟨k, w, hw, hb, rfl, hbefore⟩, by omega⟩

/-! ### Launch -/

/-- What `Image.valid` asks, with the length of the code region. -/
structure ValidImage (im : Image) (e : Enc) (n : Nat) : Prop where
  code : codeLength e im.words = some n
  boundary : im.boundary e = some (im.base + 4 * n)
  aligned : im.base % 4 = 0
  limit : im.limit ≤ 2 ^ 32

theorem validImage_of_valid {im : Image} {e : Enc} (h : im.valid e = true) : ∃ n, ValidImage im e n := by
  simp only [Image.valid, Bool.and_eq_true, beq_iff_eq, decide_eq_true_eq] at h
  obtain ⟨⟨hb, aligned⟩, limit⟩ := h
  rw [Image.boundary, Option.isSome_map] at hb
  obtain ⟨n, code⟩ := Option.isSome_iff_exists.mp hb
  exact ⟨n, code, by rw [Image.boundary, code]; rfl, aligned, limit⟩

/-- Word `k` of a launched image stands at its address (R54). -/
theorem launch_readWord (par : Params) (im : Image) (regInit : Vector Word 32) {k : Nat} {w : Word}
    (hk : im.words[k]? = some w) : (State.launch par im regInit).mem.readWord (im.base + 4 * k) = w :=
  Memory.readWord_writeWords im.base im.words k w rfl hk

/-- Only words of the image are held (R50). -/
theorem launch_mem_within (par : Params) (im : Image) (regInit : Vector Word 32) :
    Memory.Within (fun a => ∃ k, k < im.words.length ∧ a = im.base + 4 * k) (State.launch par im regInit).mem :=
  Memory.writeWords_within im.words (fun k hk => ⟨k, hk, rfl⟩) (fun _ hc => nomatch hc)

theorem launch_mem_wf (par : Params) (im : Image) (regInit : Vector Word 32) :
    (State.launch par im regInit).mem.wf = true := Memory.writeWords_wf _ _ rfl

theorem launch_read (par : Params) (im : Image) (regInit : Vector Word 32) {r : Reg} (hr : r ≠ 0) :
    (State.launch par im regInit).read r = regInit[r] := by
  have hne : 0 ≠ r.val := fun hc => hr (Fin.ext hc.symm)
  rw [State.read, if_neg hr]
  exact Vector.getElem_set_ne (by decide) r.isLt hne

/-- Settles O5: every field is written out in `State.launch`, and the memory's laws give what it holds. -/
theorem launchSetsEveryPieceOfState : Obligations.LaunchSetsEveryPieceOfState := by
  intro par im regInit
  refine ⟨State.read_zero _, fun r => launch_read par im regInit, rfl, rfl, rfl, rfl, rfl, rfl, rfl, rfl, rfl, rfl, rfl, rfl,
    rfl, rfl, rfl, rfl, fun b hb => ?_, fun k w => launch_readWord par im regInit, launch_mem_within par im regInit,
    launch_mem_wf par im regInit, rfl, rfl⟩
  show (im.boundary par.enc).getD im.base = b
  rw [hb]; rfl

/-- Settles O6: the word's address is in the image, whose addresses have 32 bits. -/
theorem launchHoldsTheImage : Obligations.LaunchHoldsTheImage := by
  intro par im regInit k w hv hk
  obtain ⟨n, valid⟩ := validImage_of_valid hv
  have haligned := valid.aligned
  have hlimit := valid.limit
  have hlen : k < im.words.length := (List.getElem?_eq_some_iff.mp hk).1
  rw [Image.limit] at hlimit
  have haddr : (BitVec.ofNat 32 (im.base + 4 * k)).toNat = im.base + 4 * k := by
    rw [BitVec.toNat_ofNat]; exact Nat.mod_eq_of_lt (by omega)
  rw [memRead_of_readable, haddr, launch_readWord par im regInit hk]
  refine (aligned4In_iff _ _ _).mpr ?_
  rw [haddr]
  show _ ∧ im.base ≤ _ ∧ _ < im.base + 4 * im.words.length
  omega

/-- The addresses of a valid image are legal (R50 to R54). -/
theorem launch_map_legal {im : Image} {e : Enc} {n : Nat} (valid : ValidImage im e n) : (im.map e).Legal := by
  obtain ⟨_, hn, _⟩ := codeLength_some valid.code
  have haligned := valid.aligned
  have hlimit := valid.limit
  rw [Image.limit] at hlimit
  rw [Image.map, valid.boundary, Option.getD_some, Image.limit]
  constructor <;> simp only <;> omega

theorem launch_inFlight (par : Params) (im : Image) (regInit : Vector Word 32) :
    (State.launch par im regInit).inFlight = [] := rfl

theorem launch_isPending (par : Params) (im : Image) (regInit : Vector Word 32) (r : Reg) :
    (State.launch par im regInit).isPending r = false := BitVec.getLsbD_zero

/-- A state with empty latches, queue and scoreboard is legal if its memory, addresses and encoding are. -/
theorem inv_launch {par : Params} {im : Image} {regInit : Vector Word 32} (henc : par.enc.valid = true)
    (hmap : (State.launch par im regInit).map.Legal)
    (hinside : ∀ c ∈ (State.launch par im regInit).mem, c.1 % 4 = 0 ∧ im.base ≤ c.1 ∧ c.1 < im.limit) :
    Inv (State.launch par im regInit) where
  noFault := rfl
  haltedIff := by constructor <;> exact nofun
  resting := rfl
  stagingEmpty := rfl
  queueShort := Nat.zero_le _
  queueKinds := nofun
  waitingKind := nofun
  waitingFallThrough := nofun
  fetchExecutedKind := nofun
  preKinds := by rintro (_ | _ | _) e ⟨⟩
  prememKind := nofun
  postmemKind := nofun
  postAddKind := nofun
  postLogKind := nofun
  heldWellFormed := nofun
  zeroRegister := Vector.getElem_set_self _
  zeroBit := BitVec.getLsbD_zero
  pendingHasWriter := fun r hr => by rw [launch_isPending] at hr; exact nomatch hr
  memCanonical := launch_mem_wf par im regInit
  memInside := hinside
  mapLegal := hmap
  encValid := henc

/-- The no-argument reset is the launch of an image of no words (log entry 1). -/
theorem reset_eq_launch :
    State.reset = State.launch Params.default ⟨Config.memBase, []⟩ (Vector.replicate 32 0) := by decide

theorem launch_scoreboardExact (par : Params) (im : Image) (regInit : Vector Word 32) :
    ScoreboardExact (State.launch par im regInit) := by
  intro r _
  simp [State.writersInFlight, launch_inFlight, launch_isPending]

/-- The boundary scan leaves a `break` as the last code word (R53). -/
theorem launch_codeEndsInBreak {par : Params} {im : Image} (regInit : Vector Word 32) {n : Nat}
    (valid : ValidImage im par.enc n) : CodeEndsInBreak (State.launch par im regInit) := by
  obtain ⟨hn, _, ⟨w, hw, hb⟩, _⟩ := codeLength_some valid.code
  have hboundary : (State.launch par im regInit).map.boundary = im.base + 4 * n := by
    show (im.boundary par.enc).getD im.base = _
    rw [valid.boundary]; rfl
  have hlast : im.base + 4 * n - 4 = im.base + 4 * (n - 1) := by omega
  refine ⟨?_, ?_⟩
  · rw [hboundary]; show im.base + 4 ≤ _; omega
  · rw [hboundary, hlast, launch_readWord par im regInit hw]; exact hb

/-- Settles O55: a launch leaves every latch and the scoreboard empty, and a valid image's memory and addresses are legal. -/
theorem launchMeetsTheInvariant : Obligations.LaunchMeetsTheInvariant := by
  constructor
  · rw [reset_eq_launch]
    refine inv_launch (by decide) ?_ nofun
    constructor <;> decide
  · intro par im regInit henc hv
    obtain ⟨n, valid⟩ := validImage_of_valid hv
    refine ⟨inv_launch henc (launch_map_legal valid) fun c hc => ?_, launch_scoreboardExact par im regInit,
      launch_codeEndsInBreak regInit valid⟩
    obtain ⟨k, hk, hck⟩ := launch_mem_within par im regInit c hc
    have haligned := valid.aligned
    rw [hck, Image.limit]
    omega

/-! ### The host's placement (log entry 2) -/

/-- The boundary of the three placed words lies past the first of them. -/
theorem placed_boundary (e : Enc) (a : Nat) (w : Word) :
    let im : Image := ⟨a, fetchWords e w⟩
    a + 4 ≤ (im.boundary e).getD im.limit := by
  intro im
  cases hc : codeLength e im.words with
  | none =>
    rw [Image.boundary, hc, Option.map_none, Option.getD_none]
    show a + 4 ≤ a + 4 * 3
    omega
  | some n =>
    obtain ⟨hn, _⟩ := codeLength_some hc
    rw [Image.boundary, hc, Option.map_some, Option.getD_some]
    show a + 4 ≤ a + 4 * n
    omega

/-- Settles O60: the first placed word stands at `pc`, below the boundary set after it. -/
theorem placedWordIsFetchedNext : Obligations.PlacedWordIsFetchedNext := by
  intro s w hm hpc
  refine ⟨rfl, rfl, rfl, ?_⟩
  have hw : BitVec.ofNat 32 (w.toNat % 2 ^ 32) = w := by
    rw [Nat.mod_eq_of_lt w.isLt, BitVec.ofNat_toNat, BitVec.setWidth_eq]
  have hboundary := placed_boundary s.par.enc s.pc.toNat w
  rw [State.withFetchWord, hw]
  have hfetch : (s.placeAtPc w).map.fetchable s.pc = true := by
    refine (aligned4In_iff _ _ _).mpr ⟨hpc, ?_, ?_⟩
    · exact Nat.min_le_right _ _
    · exact Nat.lt_of_lt_of_le (by omega) hboundary
  have hword : (s.placeAtPc w).mem.readWord s.pc.toNat = w :=
    Memory.readWord_writeWords s.pc.toNat (fetchWords s.par.enc w) 0 w hm rfl
  show (if (s.placeAtPc w).map.fetchable s.pc then _ else _) = _
  rw [if_pos hfetch]
  exact congrArg _ hword

end Sys2Proof.Storage
end

section
/-! A completed cycle as the chain of its steps, with what the fetch step took and what steps 4 to 9 leave (R100 to R122), and
the statements about what a cycle leaves in latches, memory, counters and parameters. -/

namespace Sys2Proof.CycleLaws

open Sys2Proof Sys2Proof.Machine Sys2Proof.PipelineEngine

/-! ### The words of one fetch step (R109 to R113) -/

/-- The address `k` words after `pc`. -/
def wordAfter (pc : Word) (k : Nat) : Word := pc + 4 * BitVec.ofNat 32 k

@[simp] theorem wordAfter_zero (pc : Word) : wordAfter pc 0 = pc := by simp [wordAfter]

theorem wordAfter_succ (pc : Word) (k : Nat) : wordAfter pc (k + 1) = wordAfter (nextPc pc) k := by
  simp only [wordAfter, nextPc, BitVec.ofNat_add, BitVec.mul_add, BitVec.add_assoc]
  congr 1
  rw [BitVec.add_comm]
  rfl

/-- The word at `a` is a code word and is the instruction `i` under the core's `ENC`. -/
def FetchesAt (s : State) (a : Word) (i : Instr) : Prop :=
  s.map.fetchable a = true ∧ decodeWith s.par.enc (s.mem.readWord a.toNat) = .ok i

/-- What fetching depends on is the code, the addresses and the encoding. -/
theorem fetchesAt_congr {s t : State} (hmap : t.map = s.map) (hpar : t.par = s.par) (hmem : t.mem = s.mem) (a : Word)
    (i : Instr) : FetchesAt t a i ↔ FetchesAt s a i := by
  rw [FetchesAt, FetchesAt, hmap, hpar, hmem]

/-- The fetch unit's part of a state, and registers and scoreboard as in `r`. -/
structure FrontIs (t : State) (pc : Word) (wbr : Option BranchEntry) (fx : Option Instr) (r : State) : Prop where
  pc : t.pc = pc
  wbr : t.wbr = wbr
  fx : t.fx = fx
  x : t.x = r.x
  willwrite : t.willwrite = r.willwrite

/-- How a fetch step that came to the address `q` ended: `exhausted` says that it had no slot or no room left. -/
inductive FetchEnd (s t : State) (q : Word) (exhausted : Prop) : Prop
  | stopped : exhausted → FrontIs t q s.wbr s.fx s → FetchEnd s t q exhausted
  | branch {i : Instr} : isBranch i = true → FetchesAt s q i → FrontIs t (nextPc q) (some ⟨i, q⟩) s.fx s →
      FetchEnd s t q exhausted
  | jal {rd : Reg} {imm : Word} : FetchesAt s q (.jal rd imm) →
      FrontIs t (jalTarget s.par.jalBaseOffset q imm) s.wbr (some (.jal rd imm)) (s.write rd (nextPc q)) →
      FetchEnd s t q exhausted
  | brk : FetchesAt s q .brk → FrontIs t q s.wbr (some .brk) s → FetchEnd s t q exhausted

/-- What at most `n` fetch slots did: `new` was taken into the queue, one word after another, and then the step ended. -/
structure FetchedWords (n : Nat) (s t : State) (new : List Instr) : Prop where
  queue : t.iq = s.iq ++ new
  count : new.length ≤ n
  words : ∀ (k : Nat) (i : Instr), new[k]? = some i → isQueued i = true ∧ FetchesAt s (wordAfter s.pc k) i
  ended : FetchEnd s t (wordAfter s.pc new.length) (new.length = n ∨ Config.iqDepth ≤ t.iq.length)

/-- A fetch step that takes nothing and ends at once. -/
theorem FetchedWords.of_end {n : Nat} {s t : State} (hq : t.iq = s.iq)
    (h : FetchEnd s t s.pc (0 = n ∨ Config.iqDepth ≤ t.iq.length)) : FetchedWords n s t [] where
  queue := by rw [hq, List.append_nil]
  count := Nat.zero_le n
  words := nofun
  ended := by simpa using h

/-- A fetch step that takes a word and goes on. -/
theorem FetchedWords.cons {n : Nat} {s t : State} {i : Instr} {new : List Instr} (hi : FetchesAt s s.pc i)
    (hq : isQueued i = true)
    (h : FetchedWords n { s with stage := .fetch, iq := s.iq ++ [i], pc := nextPc s.pc } t new) :
    FetchedWords (n + 1) s t (i :: new) where
  queue := by rw [h.queue]; simp
  count := Nat.succ_le_succ h.count
  words k j hj := by
    cases k with
    | zero => cases hj; rw [wordAfter_zero]; exact ⟨hq, hi⟩
    | succ k => rw [wordAfter_succ]; exact h.words k j hj
  ended := by
    rw [List.length_cons, wordAfter_succ]
    cases h.ended with
    | stopped he hf => exact .stopped (he.imp (congrArg (· + 1)) id) { hf with }
    | branch hb hi hf => exact .branch hb hi { hf with }
    | jal hi hf => exact .jal hi ⟨hf.pc, hf.wbr, hf.fx, by rw [hf.x]; unfold State.write; split <;> rfl,
        by rw [hf.willwrite]; unfold State.write; split <;> rfl⟩
    | brk hi hf => exact .brk hi { hf with }

theorem fetchSlots_words {n : Nat} {s t : State} (h : fetchSlots n s = .next t) : ∃ new, FetchedWords n s t new := by
  induction n generalizing s with
  | zero =>
    cases Host.Outcome.next.inj h
    exact ⟨[], .of_end rfl (.stopped (.inl rfl) ⟨rfl, rfl, rfl, rfl, rfl⟩)⟩
  | succ n ih =>
    unfold fetchSlots at h
    split at h
    · rename_i hfull
      cases Host.Outcome.next.inj h
      exact ⟨[], .of_end rfl (.stopped (.inr (by simpa [queueFull] using hfull)) ⟨rfl, rfl, rfl, rfl, rfl⟩)⟩
    · obtain ⟨i, hi, h⟩ := andThen_eq_next.mp h
      replace hi : FetchesAt s s.pc i := fetchDecoded_next.mp hi
      obtain ⟨m, hm, h⟩ := andThen_eq_next.mp h
      rcases serve_fetch_next hm with ⟨hq, rfl⟩ | ⟨hb, rfl⟩ | ⟨rd, imm, rfl, rfl⟩ | ⟨rfl, rfl⟩
      · rw [if_pos hq] at h
        obtain ⟨new, hnew⟩ := ih h
        exact ⟨i :: new, hnew.cons hi hq⟩
      · rw [isQueued_of_isBranch hb] at h
        cases Host.Outcome.next.inj h
        exact ⟨[], .of_end rfl (.branch hb hi ⟨rfl, rfl, rfl, rfl, rfl⟩)⟩
      · cases Host.Outcome.next.inj h
        refine ⟨[], .of_end (State.write_iq _ _ _) (.jal hi ⟨rfl, State.write_wbr _ _ _, rfl, ?_, ?_⟩)⟩
        · unfold State.write; split <;> rfl
        · unfold State.write; split <;> rfl
      · cases Host.Outcome.next.inj h
        exact ⟨[], .of_end rfl (.brk hi ⟨rfl, rfl, rfl, rfl, rfl⟩)⟩

/-- Step 2 does nothing while a branch waits, and is at most two fetch slots otherwise (R108, R109). -/
theorem fetchDecode_words {s t : State} (h : fetchDecode s = .next t) :
    ((∃ b, s.wbr = some b) ∧ t = s) ∨ (s.wbr = none ∧ ∃ new, FetchedWords 2 s t new) := by
  cases hb : s.wbr with
  | some b =>
    exact .inl ⟨⟨b, rfl⟩, (Host.Outcome.next.inj ((fetchDecode_of_waiting hb).symm.trans h)).symm⟩
  | none =>
    rw [fetchDecode_of_not_waiting hb] at h
    exact .inr ⟨rfl, fetchSlots_words h⟩

/-! ### Steps 4 to 9 -/

/-- The state after step 4 (R116). -/
def written (s : State) : State := afterWriteback .log (afterWriteback .add (afterWriteback .mem s))

/-- The memory after step 5 (R117). -/
def stored (s : State) : Memory :=
  match s.premem with
  | some m => if isLoad m.inst then s.mem else s.mem.writeWord m.addr.toNat m.val
  | none => s.mem

/-- What step 5 puts in the post-memory latch (R117). -/
def loaded (s : State) : Option ResEntry :=
  s.premem.bind fun m => if isLoad m.inst then some ⟨m.inst, s.mem.readWord m.addr.toNat⟩ else none

/-- The access that step 5 completes is a load of a word of the image or a store to a data word (R117). -/
def AccessOk (p : MemMap) (m : MemEntry) : Prop :=
  (isLoad m.inst = true ∧ p.readable m.addr = true) ∨
  (isLoad m.inst = false ∧ (∃ rs1 rs2 imm, m.inst = .sw rs1 rs2 imm) ∧ p.writable m.addr = true)

/-- What steps 4 to 9 make of the state that branch resolution left (R116 to R122). -/
structure BackEnd (s t : State) : Prop extends TailFrame s t where
  stg : t.stg = noEntries
  stage : t.stage = .fetch
  map : t.map = s.map
  par : t.par = s.par
  cycle : t.cycle = s.cycle
  fault : t.fault = s.fault
  x : t.x = (written s).x
  willwrite : t.willwrite = (written s).willwrite
  retires : ∀ l e, s.post l = some e → latchOf e.inst = some l
  access : ∀ m, s.premem = some m → AccessOk s.map m
  mem : t.mem = stored s
  postmem : t.postmem = loaded s
  postAdd_none : s.pre.add = none → t.postAdd = none
  postLog_none : s.pre.log = none → t.postLog = none
  postAdd_some : ∀ e, s.pre.add = some e →
    ∃ v, aluTable s.par.shamtBits e.inst e.a e.b = some v ∧ t.postAdd = some ⟨e.inst, v⟩
  postLog_some : ∀ e, s.pre.log = some e →
    ∃ v, aluTable s.par.shamtBits e.inst e.a e.b = some v ∧ t.postLog = some ⟨e.inst, v⟩
  premem_none : s.pre.addr = none → t.premem = none
  premem_some : ∀ e, s.pre.addr = some e → ∃ m, t.premem = some m ∧ unitOf e.inst = some .addr ∧ m.inst = e.inst ∧
    m.val = e.b ∧ ∀ rd rs1 rs2 imm, e.inst = .lw rd rs1 imm ∨ e.inst = .sw rs1 rs2 imm → m.addr = e.a + imm

/-- Step 5 from a state whose post-memory latch step 4 has emptied. -/
theorem memoryStage_effect {s t : State} (h : memoryStage s = .next t) (hp : s.postmem = none) :
    t.mem = stored s ∧ t.postmem = loaded s ∧ ∀ m, s.premem = some m → AccessOk s.map m := by
  rcases memoryStage_next h with ⟨hm, rfl⟩ | ⟨m, hm, hl, hr, rfl⟩ | ⟨m, hm, hl, hi, hw, rfl⟩
  · refine ⟨by rw [stored, hm], by rw [loaded, hm, hp]; rfl, fun m hm' => ?_⟩
    rw [hm] at hm'; exact nomatch hm'
  · refine ⟨by rw [stored, hm]; simp [hl], by rw [loaded, hm]; simp [hl], fun m' hm' => ?_⟩
    rw [hm] at hm'; cases hm'
    exact .inl ⟨hl, hr⟩
  · refine ⟨by rw [stored, hm]; simp [hl], by rw [loaded, hm]; simp [hl, hp], fun m' hm' => ?_⟩
    rw [hm] at hm'; cases hm'
    exact .inr ⟨hl, hi, hw⟩

/-- Step 7 from a state whose pre-memory latch step 5 has emptied. -/
theorem addressAdvance_effect {s t : State} (h : addressAdvance s = .next t) (hm : s.premem = none) :
    (s.pre.addr = none → t.premem = none) ∧
    ∀ e, s.pre.addr = some e → ∃ m, t.premem = some m ∧ unitOf e.inst = some .addr ∧ m.inst = e.inst ∧ m.val = e.b ∧
      ∀ rd rs1 rs2 imm, e.inst = .lw rd rs1 imm ∨ e.inst = .sw rs1 rs2 imm → m.addr = e.a + imm := by
  rcases addressAdvance_next h with ⟨hp, rfl⟩ | ⟨e, m, hp, hu, hi, hv, ha, rfl⟩
  · refine ⟨fun _ => hm, fun e he => ?_⟩
    rw [hp] at he; exact nomatch he
  · refine ⟨fun hn => ?_, fun e' he' => ?_⟩
    · rw [hp] at hn; exact nomatch hn
    · rw [hp] at he'; cases he'
      exact ⟨m, rfl, hu, hi, hv, ha⟩

theorem backEnd_of_steps {s3 s4 s5 s6 s7 t : State} (h4 : writeback s3 = .next s4) (h5 : memoryStage s4 = .next s5)
    (h6 : execute s5 = .next s6) (h7 : addressAdvance s6 = .next s7) (h8 : terminationTest (rotate s7) = .next t) :
    BackEnd s3 t := by
  have tail := tailFrame_of_steps h4 h5 h6 h7 h8
  obtain ⟨hwritten, retires⟩ := writeback_next h4
  have f4 := writeback_frame h4
  have f5 := memoryStage_frame h5
  obtain ⟨f6, _, _, add_none, log_none, add_some, log_some⟩ := execute_next h6
  have f7 := addressAdvance_frame h7
  obtain ⟨memEq, postmemEq, access⟩ := memoryStage_effect h5 (writeback_post h4 .mem)
  obtain ⟨premem_none, premem_some⟩ := addressAdvance_effect h7 (f6.premem.trans f5.premem)
  have hpre : s5.pre = s3.pre := f5.pre.trans f4.pre
  have hpar : s5.par = s3.par := f5.par.trans f4.par
  have hstored : stored s4 = stored s3 := by rw [stored, stored, f4.premem, f4.mem]
  have hloaded : loaded s4 = loaded s3 := by rw [loaded, loaded, f4.premem, f4.mem]
  rw [f6.preAddr, hpre] at premem_none premem_some
  rw [hpre, hpar] at add_some log_some
  rw [hpre] at add_none log_none
  have ht := terminationTest_next h8
  exact
    { tail with
      stg := by rw [ht]; rfl
      stage := by rw [ht]
      map := by simp [ht, f7.map, f6.map, f5.map, f4.map]
      par := by simp [ht, f7.par, f6.par, f5.par, f4.par]
      cycle := by simp [ht, f7.cycle, f6.cycle, f5.cycle, f4.cycle]
      fault := by simp [ht, f7.fault, f6.fault, f5.fault, f4.fault]
      x := by simp [ht, f7.x, f6.x, f5.x, hwritten, written]
      willwrite := by simp [ht, f7.willwrite, f6.willwrite, f5.willwrite, hwritten, written]
      retires
      access := by rwa [f4.premem, f4.map] at access
      mem := by simp [ht, f7.mem, f6.mem, memEq, hstored]
      postmem := by simp [ht, f7.postmem, f6.postmem, postmemEq, hloaded]
      postAdd_none := fun hn => by
        have he : s4.postAdd = none := writeback_post h4 .add
        simp [ht, f7.postAdd, add_none hn, f5.postAdd, he]
      postLog_none := fun hn => by
        have he : s4.postLog = none := writeback_post h4 .log
        simp [ht, f7.postLog, log_none hn, f5.postLog, he]
      postAdd_some := fun e he => by
        obtain ⟨v, hv, hp⟩ := add_some e he
        exact ⟨v, hv, by simp [ht, f7.postAdd, hp]⟩
      postLog_some := fun e he => by
        obtain ⟨v, hv, hp⟩ := log_some e he
        exact ⟨v, hv, by simp [ht, f7.postLog, hp]⟩
      premem_none := fun hn => by simp [ht, premem_none hn]
      premem_some := fun e he => by
        obtain ⟨m, hm, rest⟩ := premem_some e he
        exact ⟨m, by simp [ht, hm], rest⟩ }

/-! ### A completed cycle -/

/-- The states a completed cycle passes: after issue, after fetch, after branch resolution, and the next one (R100). -/
structure Completed (s s1 s2 s3 t : State) : Prop where
  live : ended s = false
  issued : issue (housekeeping s) = .next s1
  fetched : fetchDecode s1 = .next s2
  resolved : branchStage s2 = .next s3
  rest : BackEnd s3 t

theorem step_completed {s t : State} (h : step s = .next t) : ∃ s1 s2 s3, Completed s s1 s2 s3 t := by
  obtain ⟨he, s1, s2, s3, s4, s5, s6, s7, h1, h2, h3, h4, h5, h6, h7, h8⟩ := step_eq_next.mp h
  exact ⟨s1, s2, s3, he, h1, h2, h3, backEnd_of_steps h4 h5 h6 h7 h8⟩

/-- What steps 0 to 3 leave alone: everything that steps 4 to 9 read beside registers and scoreboard. -/
structure FrontFrame (s t : State) : Prop where
  pre : t.pre = s.pre
  premem : t.premem = s.premem
  postmem : t.postmem = s.postmem
  postAdd : t.postAdd = s.postAdd
  postLog : t.postLog = s.postLog
  mem : t.mem = s.mem
  map : t.map = s.map
  par : t.par = s.par
  cycle : t.cycle = s.cycle + 1
  halted : t.halted = s.halted
  fault : t.fault = s.fault

section

variable {s s1 s2 s3 t : State}

/-- Step 1 begins with the queue of the cycle's start. -/
theorem Completed.scanned (h : Completed s s1 s2 s3 t) : Scanned Scan.start (housekeeping s) s.iq s1 := issue_next h.issued

theorem Completed.issueFrame (h : Completed s s1 s2 s3 t) : IssueFrame (housekeeping s) s1 := h.scanned.frame

theorem Completed.issueFront (h : Completed s s1 s2 s3 t) : FrontFrame s s1 :=
  have f := h.issueFrame
  ⟨f.pre, f.premem, f.postmem, f.postAdd, f.postLog, f.mem, f.map, f.par, f.cycle, f.halted, f.fault⟩

theorem Completed.fetchFront (h : Completed s s1 s2 s3 t) : FrontFrame s s2 :=
  have a := h.issueFront
  have f := fetchDecode_frame h.fetched
  ⟨f.pre.trans a.pre, f.premem.trans a.premem, f.postmem.trans a.postmem, f.postAdd.trans a.postAdd,
    f.postLog.trans a.postLog, f.mem.trans a.mem, f.map.trans a.map, f.par.trans a.par, f.cycle.trans a.cycle,
    f.halted.trans a.halted, f.fault.trans a.fault⟩

theorem Completed.front (h : Completed s s1 s2 s3 t) : FrontFrame s s3 :=
  have a := h.fetchFront
  have f := branchStage_frame h.resolved
  ⟨f.pre.trans a.pre, f.premem.trans a.premem, f.postmem.trans a.postmem, f.postAdd.trans a.postAdd,
    f.postLog.trans a.postLog, f.mem.trans a.mem, f.map.trans a.map, f.par.trans a.par, f.cycle.trans a.cycle,
    f.halted.trans a.halted, f.fault.trans a.fault⟩

theorem FrontFrame.post {s t : State} (h : FrontFrame s t) (l : PostLatch) : t.post l = s.post l := by
  cases l
  · exact h.postmem
  · exact h.postAdd
  · exact h.postLog

/-- The map, the parameters, the counter and the memory after a cycle, from its start. -/
theorem Completed.map (h : Completed s s1 s2 s3 t) : t.map = s.map := h.rest.map.trans h.front.map
theorem Completed.par (h : Completed s s1 s2 s3 t) : t.par = s.par := h.rest.par.trans h.front.par
theorem Completed.fault (h : Completed s s1 s2 s3 t) : t.fault = s.fault := h.rest.fault.trans h.front.fault
theorem Completed.cycle (h : Completed s s1 s2 s3 t) : t.cycle = s.cycle + 1 := h.rest.cycle.trans h.front.cycle

theorem Completed.mem (h : Completed s s1 s2 s3 t) : t.mem = stored s := by
  rw [h.rest.mem, stored, stored, h.front.premem, h.front.mem]

theorem Completed.postmem (h : Completed s s1 s2 s3 t) : t.postmem = loaded s := by
  rw [h.rest.postmem, loaded, loaded, h.front.premem, h.front.mem]

theorem Completed.access (h : Completed s s1 s2 s3 t) : ∀ m, s.premem = some m → AccessOk s.map m := by
  rw [← h.front.premem, ← h.front.map]; exact h.rest.access

/-- The pre latches after a cycle are what it issued (R120). -/
theorem Completed.pre (h : Completed s s1 s2 s3 t) : t.pre = s1.stg :=
  calc t.pre = s3.stg := h.rest.pre
    _ = s2.stg := (branchStage_frame h.resolved).stg
    _ = s1.stg := (fetchDecode_frame h.fetched).stg

/-- Branch resolution and the later steps leave the queue alone. -/
theorem Completed.iq (h : Completed s s1 s2 s3 t) : t.iq = s2.iq := h.rest.iq.trans (branchStage_frame h.resolved).iq

end

/-! ### What a cycle leaves in latches, memory and counters -/

/-- Settles O41: steps 1 to 3 leave the pre latches alone, and step 6 computes from them. -/
theorem preLatchesReachPostLatches : Obligations.PreLatchesReachPostLatches := by
  intro s t h
  obtain ⟨s1, s2, s3, c⟩ := step_completed h
  rw [← c.front.pre, ← c.front.par]
  exact ⟨c.rest.postAdd_none, c.rest.postLog_none, c.rest.postAdd_some, c.rest.postLog_some⟩

theorem loaded_of_load {s : State} {m : MemEntry} (hm : s.premem = some m) (hl : isLoad m.inst = true) :
    loaded s = some ⟨m.inst, s.mem.readWord m.addr.toNat⟩ := by simp [loaded, hm, hl]

theorem loaded_of_store {s : State} {m : MemEntry} (hm : s.premem = some m) (hl : isLoad m.inst = false) :
    loaded s = none := by simp [loaded, hm, hl]

theorem loaded_of_none {s : State} (hm : s.premem = none) : loaded s = none := by simp [loaded, hm]

/-- Settles O42: step 7 moves the pre latch on and step 5 the pre-memory latch, each before the other's latch fills. -/
theorem addressPathAdvancesOneLatch : Obligations.AddressPathAdvancesOneLatch := by
  intro s t h
  obtain ⟨s1, s2, s3, c⟩ := step_completed h
  rw [c.postmem, ← c.front.pre]
  refine ⟨c.rest.stg, c.rest.premem_none, fun e he => ?_, loaded_of_none,
    fun m hm => ⟨loaded_of_load hm, loaded_of_store hm⟩⟩
  obtain ⟨m, hm, _, hi, hv, ha⟩ := c.rest.premem_some e he
  exact ⟨m, hm, hi, hv, ha⟩

theorem stored_of_store {s : State} {m : MemEntry} (hm : s.premem = some m) (hl : isLoad m.inst = false) :
    stored s = s.mem.writeWord m.addr.toNat m.val := by simp [stored, hm, hl]

/-- Memory after step 5 is the old one, or the old one with the pre-memory store's word. -/
theorem stored_cases {s : State} (hacc : ∀ m, s.premem = some m → AccessOk s.map m) :
    stored s = s.mem ∨ ∃ m rs1 rs2 imm, s.premem = some m ∧ m.inst = .sw rs1 rs2 imm ∧ s.map.writable m.addr = true ∧
      stored s = s.mem.writeWord m.addr.toNat m.val := by
  cases hm : s.premem with
  | none => left; simp [stored, hm]
  | some m =>
    rcases hacc m hm with ⟨hl, _⟩ | ⟨hl, ⟨rs1, rs2, imm, hi⟩, hw⟩
    · left; simp [stored, hm, hl]
    · exact .inr ⟨m, rs1, rs2, imm, rfl, hi, hw, stored_of_store hm hl⟩

/-- Settles O44: the memory after a cycle is that after step 5. -/
theorem memoryAfterACycle : Obligations.MemoryAfterACycle := by
  intro s t hwf h
  obtain ⟨s1, s2, s3, c⟩ := step_completed h
  rw [c.mem]
  refine ⟨fun m rs1 rs2 imm hm hi => ?_, fun a ha => ?_⟩
  · rw [stored_of_store hm (by rw [hi]; rfl)]
    exact Memory.readWord_writeWord_same _ _ hwf
  · rcases stored_cases c.access with he | ⟨m, rs1, rs2, imm, hm, hi, _, he⟩
    · rw [he]
    · rw [he, Memory.readWord_writeWord_ne _ _ (ha m rs1 rs2 imm hm hi)]

/-- A store goes to a data word, so no word below the boundary changes (R52, R58). -/
theorem stored_readWord_below {s : State} (hacc : ∀ m, s.premem = some m → AccessOk s.map m) {a : Nat}
    (ha : a < s.map.boundary) : (stored s).readWord a = s.mem.readWord a := by
  rcases stored_cases hacc with he | ⟨m, _, _, _, _, _, hw, he⟩
  · rw [he]
  · obtain ⟨_, hle, _⟩ := (aligned4In_iff _ _ _).mp hw
    rw [he, Memory.readWord_writeWord_ne _ _ (by omega)]

/-- Settles O45: of the memory only a data word can have changed, and the later steps pass the rest on. -/
theorem codeRegionNeverChanges : Obligations.CodeRegionNeverChanges := by
  intro s t h
  obtain ⟨s1, s2, s3, c⟩ := step_completed h
  exact ⟨c.map, c.par, fun a ha => by rw [c.mem, stored_readWord_below c.access ha]⟩

/-- Settles O46: housekeeping counts, and forgets the old fetch-executed instruction before any step reads it. -/
theorem cyclesAreCounted : Obligations.CyclesAreCounted := by
  intro s
  refine ⟨fun t h => ?_, fun f => rfl⟩
  obtain ⟨s1, s2, s3, c⟩ := step_completed h
  exact c.cycle

end Sys2Proof.CycleLaws
end

section
/-! The issue scan (R102 to R107): what a scan in progress knows of the entries it has passed, when an entry is free to issue,
and the split of the queue into what issued and what stays. -/

namespace Sys2Proof.IssueScan

open Sys2Proof Sys2Proof.Machine Sys2Proof.PipelineEngine Sys2Proof.CycleLaws

/-! ### One entry -/

/-- An entry of unit `u` that no condition of R103 holds back. -/
structure Free (sc : Scan) (s : State) (i : Instr) (u : FU) : Prop where
  latch : s.stg.get u = none
  held : sc.held.get u = false
  notPending : ∀ r : Reg, r ≠ 0 → r ∈ srcOf i ∨ dstOf i = some r → s.isPending r = false
  notAwaited : ∀ r : Reg, r ≠ 0 → r ∈ srcOf i ∨ dstOf i = some r → sc.blkW.getLsbD r = false
  notRead : ∀ r : Reg, r ≠ 0 → dstOf i = some r → sc.blkR.getLsbD r = false

/-- The registers a mask of sources or of a destination meets. -/
theorem srcMask_not_meets_iff (i : Instr) (m : RegMask) :
    meets (srcMask i) m = false ↔ ∀ r : Reg, r ≠ 0 → r ∈ srcOf i → m.getLsbD r = false := by
  simp only [not_meets_iff, getLsbD_srcMask, Bool.and_eq_true, decide_eq_true_eq]
  exact forall_congr' fun r => ⟨fun h h0 hr => h ⟨hr, h0⟩, fun h hr => h hr.2 hr.1⟩

theorem dstMask_not_meets_iff (i : Instr) (m : RegMask) :
    meets (dstMask i) m = false ↔ ∀ r : Reg, r ≠ 0 → dstOf i = some r → m.getLsbD r = false := by
  simp only [not_meets_iff, getLsbD_dstMask, Bool.and_eq_true, decide_eq_true_eq]
  exact forall_congr' fun r => ⟨fun h h0 hr => h ⟨hr, h0⟩, fun h hr => h hr.2 hr.1⟩

/-- R103: the test of the scan is that nothing holds the entry back. -/
theorem blocked_eq_false_iff {sc : Scan} {s : State} {i : Instr} {u : FU} (hu : unitOf i = some u) :
    blocked sc s i = false ↔ Free sc s i u := by
  simp only [blocked, hu, unitBusy, classHeld, readAfterWrite, writeAfterWrite, writeAfterRead, Bool.or_eq_false_iff,
    srcMask_not_meets_iff, dstMask_not_meets_iff, BitVec.getLsbD_or, Option.isSome_eq_false_iff, Option.isNone_iff_eq_none]
  constructor
  · rintro ⟨⟨⟨⟨latch, held⟩, src⟩, dst⟩, notRead⟩
    exact ⟨latch, held, fun r h0 h => h.elim (fun h => (src r h0 h).1) fun h => (dst r h0 h).1,
      fun r h0 h => h.elim (fun h => (src r h0 h).2) fun h => (dst r h0 h).2, notRead⟩
  · intro f
    exact ⟨⟨⟨⟨f.latch, f.held⟩, fun r h0 h => ⟨f.notPending r h0 (.inl h), f.notAwaited r h0 (.inl h)⟩⟩,
      fun r h0 h => ⟨f.notPending r h0 (.inr h), f.notAwaited r h0 (.inr h)⟩⟩, f.notRead⟩

/-! ### The temporaries after an entry -/

theorem block_blkW (sc : Scan) (i : Instr) (r : Reg) :
    (sc.block i).blkW.getLsbD r = (sc.blkW.getLsbD r || (decide (dstOf i = some r) && decide (r ≠ 0))) := by
  simp only [Scan.block, BitVec.getLsbD_or, getLsbD_dstMask]

theorem block_blkR (sc : Scan) (i : Instr) (r : Reg) :
    (sc.block i).blkR.getLsbD r = (sc.blkR.getLsbD r || (decide (r ∈ srcOf i) && decide (r ≠ 0))) := by
  simp only [Scan.block, BitVec.getLsbD_or, getLsbD_srcMask]

theorem block_held (sc : Scan) (i : Instr) (u : FU) :
    (sc.block i).held.get u = (sc.held.get u || decide (unitOf i = some u)) := by
  unfold Scan.block
  cases hi : unitOf i with
  | none => simp
  | some v =>
    by_cases huv : u = v
    · subst huv; simp
    · simp [PerUnit.get_set_ne _ _ huv, Ne.symm huv]

theorem afterIssue_isPending (u : FU) (i : Instr) (s : State) (r : Reg) :
    (afterIssue u i s).isPending r = (s.isPending r || (decide (dstOf i = some r) && decide (r ≠ 0))) := by
  simp only [State.isPending, afterIssue, BitVec.getLsbD_or, getLsbD_dstMask]

theorem afterIssue_stg_same (u : FU) (i : Instr) (s : State) :
    (afterIssue u i s).stg.get u = some ⟨i, (capturedOperands i s).1, (capturedOperands i s).2⟩ := PerUnit.get_set_same _ _ _

theorem afterIssue_stg_ne (i : Instr) (s : State) {u v : FU} (h : v ≠ u) :
    (afterIssue u i s).stg.get v = s.stg.get v := PerUnit.get_set_ne _ _ h

/-! ### A scan in progress -/

/-- The scan has passed the entries `es`, blocking or issuing each, and its temporaries and state are now `sc'` and `s'`. -/
inductive Passed : Scan → State → List Instr → Scan → State → Prop
  | nil (sc : Scan) (s : State) : Passed sc s [] sc s
  | kept {sc sc' : Scan} {s s' : State} {i : Instr} {es : List Instr} :
      blocked sc s i = true → Passed (sc.block i) s es sc' s' → Passed sc s (i :: es) sc' s'
  | issued {sc sc' : Scan} {s s' : State} {i : Instr} {es : List Instr} {u : FU} :
      blocked sc s i = false → unitOf i = some u → Passed sc (afterIssue u i s) es sc' s' → Passed sc s (i :: es) sc' s'

/-- A scan that completes has passed any older part of the entries and goes on from there. -/
theorem passed_of_scanned {sc : Scan} {s t : State} {older rest : List Instr} (h : Scanned sc s (older ++ rest) t) :
    ∃ sc' s', Passed sc s older sc' s' ∧ Scanned sc' s' rest t := by
  induction older generalizing sc s with
  | nil => exact ⟨sc, s, .nil sc s, h⟩
  | cons o older ih =>
    cases h with
    | kept hb h =>
      obtain ⟨sc', s', hp, hr⟩ := ih h
      exact ⟨sc', s', .kept hb hp, hr⟩
    | issued hb hu h =>
      obtain ⟨sc', s', hp, hr⟩ := ih h
      exact ⟨sc', s', .issued hb hu hp, hr⟩

/-- What passing entries never takes back: masks and held units grow, a filled staging latch stays, registers stay. -/
structure Grows (sc : Scan) (s : State) (sc' : Scan) (s' : State) : Prop where
  blkW : ∀ r : Reg, sc.blkW.getLsbD r = true → sc'.blkW.getLsbD r = true
  blkR : ∀ r : Reg, sc.blkR.getLsbD r = true → sc'.blkR.getLsbD r = true
  held : ∀ u, sc.held.get u = true → sc'.held.get u = true
  pending : ∀ r : Reg, s.isPending r = true → s'.isPending r = true
  stg : ∀ u e, s.stg.get u = some e → s'.stg.get u = some e
  x : s'.x = s.x

theorem grows_block (sc : Scan) (s : State) (i : Instr) : Grows sc s (sc.block i) s where
  blkW r h := by simp only [block_blkW, h, Bool.true_or]
  blkR r h := by simp only [block_blkR, h, Bool.true_or]
  held u h := by simp only [block_held, h, Bool.true_or]
  pending _ h := h
  stg _ _ h := h
  x := rfl

theorem grows_afterIssue {sc : Scan} {s : State} {i : Instr} {u : FU} (f : Free sc s i u) :
    Grows sc s sc (afterIssue u i s) where
  blkW _ h := h
  blkR _ h := h
  held _ h := h
  pending r h := by simp only [afterIssue_isPending, h, Bool.true_or]
  stg v e h := by
    have hne : v ≠ u := fun hc => by rw [hc, f.latch] at h; exact nomatch h
    rwa [afterIssue_stg_ne i s hne]
  x := rfl

theorem Grows.trans {sc sc' sc'' : Scan} {s s' s'' : State} (h : Grows sc s sc' s') (k : Grows sc' s' sc'' s'') :
    Grows sc s sc'' s'' where
  blkW r hr := k.blkW r (h.blkW r hr)
  blkR r hr := k.blkR r (h.blkR r hr)
  held u hu := k.held u (h.held u hu)
  pending r hr := k.pending r (h.pending r hr)
  stg u e he := k.stg u e (h.stg u e he)
  x := k.x.trans h.x

theorem Passed.grows {sc sc' : Scan} {s s' : State} {es : List Instr} (h : Passed sc s es sc' s') : Grows sc s sc' s' := by
  induction h with
  | nil sc s => exact ⟨fun _ => id, fun _ => id, fun _ => id, fun _ => id, fun _ _ => id, rfl⟩
  | kept _ _ ih => exact (grows_block _ _ _).trans ih
  | issued hb hu _ ih => exact (grows_afterIssue ((blocked_eq_false_iff hu).mp hb)).trans ih

/-- A staging latch filled during a scan is still filled at its end. -/
theorem Scanned.stg_stays {sc : Scan} {s t : State} {es : List Instr} (h : Scanned sc s es t) :
    ∀ u e, s.stg.get u = some e → t.stg.get u = some e := by
  induction h with
  | done => exact fun _ _ => id
  | kept _ _ ih => exact ih
  | issued hb hu _ ih => exact fun v e he => ih v e ((grows_afterIssue ((blocked_eq_false_iff hu).mp hb)).stg v e he)

/-- Passing the entries of a split list is passing its older part, then the entry, then the younger part. -/
theorem Passed.split {sc sc' : Scan} {s s' : State} {before after : List Instr} {o : Instr}
    (h : Passed sc s (before ++ o :: after) sc' s') :
    ∃ scm sm, Passed sc s before scm sm ∧
      (blocked scm sm o = true ∧ Passed (scm.block o) sm after sc' s' ∨
        blocked scm sm o = false ∧ ∃ u, unitOf o = some u ∧ Passed scm (afterIssue u o sm) after sc' s') := by
  induction before generalizing sc s with
  | nil =>
    refine ⟨sc, s, .nil sc s, ?_⟩
    cases h with
    | kept hb h => exact .inl ⟨hb, h⟩
    | issued hb hu h => exact .inr ⟨hb, _, hu, h⟩
  | cons j before ih =>
    cases h with
    | kept hb h =>
      obtain ⟨scm, sm, hp, rest⟩ := ih h
      exact ⟨scm, sm, .kept hb hp, rest⟩
    | issued hb hu h =>
      obtain ⟨scm, sm, hp, rest⟩ := ih h
      exact ⟨scm, sm, .issued hb hu hp, rest⟩

/-- What a scan knows of an entry it has passed: its masks and unit if it was blocked, its bit and latch if it issued. -/
theorem Passed.knows {sc sc' : Scan} {s s' : State} {es : List Instr} (h : Passed sc s es sc' s') {o : Instr} (ho : o ∈ es) :
    ((∀ r : Reg, r ≠ 0 → dstOf o = some r → sc'.blkW.getLsbD r = true) ∧
      (∀ r : Reg, r ≠ 0 → r ∈ srcOf o → sc'.blkR.getLsbD r = true) ∧ (∀ u, unitOf o = some u → sc'.held.get u = true)) ∨
    ((∀ r : Reg, r ≠ 0 → dstOf o = some r → s'.isPending r = true) ∧
      ∃ u e, unitOf o = some u ∧ s'.stg.get u = some e ∧ e.inst = o) := by
  obtain ⟨before, after, rfl⟩ := List.append_of_mem ho
  obtain ⟨scm, sm, _, ⟨_, hp⟩ | ⟨_, u, hu, hp⟩⟩ := h.split
  · refine .inl ⟨fun r h0 hr => hp.grows.blkW r ?_, fun r h0 hr => hp.grows.blkR r ?_, fun u hu => hp.grows.held u ?_⟩
    · simp [block_blkW, hr, h0]
    · simp [block_blkR, hr, h0]
    · simp [block_held, hu]
  · refine .inr ⟨fun r h0 hr => hp.grows.pending r ?_, u, _, hu, hp.grows.stg u _ (afterIssue_stg_same u o sm), rfl⟩
    simp [afterIssue_isPending, hr, h0]

/-- Where what a scan knows comes from: the start of the scan or an entry it has passed, for `blkR` a blocked one. -/
structure Sources (sc : Scan) (s : State) (es : List Instr) (sc' : Scan) (s' : State) : Prop where
  blkW : ∀ r : Reg, sc'.blkW.getLsbD r = true → sc.blkW.getLsbD r = true ∨ ∃ o ∈ es, dstOf o = some r
  blkR : ∀ r : Reg, sc'.blkR.getLsbD r = true → sc.blkR.getLsbD r = true ∨ ∃ before o after scm sm,
    es = before ++ o :: after ∧ Passed sc s before scm sm ∧ blocked scm sm o = true ∧ r ∈ srcOf o
  held : ∀ u, sc'.held.get u = true → sc.held.get u = true ∨ ∃ o ∈ es, unitOf o = some u
  pending : ∀ r : Reg, s'.isPending r = true → s.isPending r = true ∨ ∃ o ∈ es, dstOf o = some r
  stg : ∀ u e, s'.stg.get u = some e → s.stg.get u = some e ∨ unitOf e.inst = some u ∧ e.inst ∈ es

theorem Passed.sources {sc sc' : Scan} {s s' : State} {es : List Instr} (h : Passed sc s es sc' s') :
    Sources sc s es sc' s' := by
  induction h with
  | nil sc s => exact ⟨fun _ => .inl, fun _ => .inl, fun _ => .inl, fun _ => .inl, fun _ _ => .inl⟩
  | @kept sc sc' s s' i es hb hp ih =>
    refine ⟨fun r hr => ?_, fun r hr => ?_, fun u hu => ?_, fun r hr => ?_, fun u e he => ?_⟩
    · rcases ih.blkW r hr with h | ⟨o, ho, h⟩
      · simp only [block_blkW, Bool.or_eq_true, Bool.and_eq_true, decide_eq_true_eq] at h
        exact h.imp id fun h => ⟨i, List.mem_cons_self, h.1⟩
      · exact .inr ⟨o, List.mem_cons_of_mem _ ho, h⟩
    · rcases ih.blkR r hr with h | ⟨before, o, after, scm, sm, rfl, hpass, hblk, h⟩
      · simp only [block_blkR, Bool.or_eq_true, Bool.and_eq_true, decide_eq_true_eq] at h
        exact h.imp id fun h => ⟨[], i, es, sc, s, rfl, .nil sc s, hb, h.1⟩
      · exact .inr ⟨i :: before, o, after, scm, sm, rfl, .kept hb hpass, hblk, h⟩
    · rcases ih.held u hu with h | ⟨o, ho, h⟩
      · simp only [block_held, Bool.or_eq_true, decide_eq_true_eq] at h
        exact h.imp id fun h => ⟨i, List.mem_cons_self, h⟩
      · exact .inr ⟨o, List.mem_cons_of_mem _ ho, h⟩
    · exact (ih.pending r hr).imp id fun ⟨o, ho, h⟩ => ⟨o, List.mem_cons_of_mem _ ho, h⟩
    · exact (ih.stg u e he).imp id fun ⟨h, ho⟩ => ⟨h, List.mem_cons_of_mem _ ho⟩
  | @issued sc sc' s s' i es v hb hv hp ih =>
    refine ⟨fun r hr => ?_, fun r hr => ?_, fun u hu => ?_, fun r hr => ?_, fun u e he => ?_⟩
    · exact (ih.blkW r hr).imp id fun ⟨o, ho, h⟩ => ⟨o, List.mem_cons_of_mem _ ho, h⟩
    · rcases ih.blkR r hr with h | ⟨before, o, after, scm, sm, rfl, hpass, hblk, h⟩
      · exact .inl h
      · exact .inr ⟨i :: before, o, after, scm, sm, rfl, .issued hb hv hpass, hblk, h⟩
    · exact (ih.held u hu).imp id fun ⟨o, ho, h⟩ => ⟨o, List.mem_cons_of_mem _ ho, h⟩
    · rcases ih.pending r hr with h | ⟨o, ho, h⟩
      · simp only [afterIssue_isPending, Bool.or_eq_true, Bool.and_eq_true, decide_eq_true_eq] at h
        exact h.imp id fun h => ⟨i, List.mem_cons_self, h.1⟩
      · exact .inr ⟨o, List.mem_cons_of_mem _ ho, h⟩
    · rcases ih.stg u e he with h | ⟨h, ho⟩
      · by_cases huv : u = v
        · subst huv
          rw [afterIssue_stg_same] at h
          cases h
          exact .inr ⟨hv, List.mem_cons_self⟩
        · rw [afterIssue_stg_ne i s huv] at h
          exact .inl h
      · exact .inr ⟨h, List.mem_cons_of_mem _ ho⟩

/-! ### What issued (R103, R104) -/

/-- The operands captured depend on the registers alone. -/
theorem capturedOperands_congr {s t : State} (h : t.x = s.x) (i : Instr) : capturedOperands i t = capturedOperands i s := by
  have hr : ∀ r, t.read r = s.read r := State.read_congr h
  cases i <;> simp only [capturedOperands, hr]

/-- Whatever the scan put in a staging latch was an entry that the scan came to and found free. -/
theorem Scanned.entry {sc : Scan} {s t : State} {es : List Instr} (h : Scanned sc s es t) {u : FU} {e : OpEntry}
    (he : t.stg.get u = some e) (hs : s.stg.get u = none) :
    ∃ older younger scm sm, es = older ++ e.inst :: younger ∧ Passed sc s older scm sm ∧ unitOf e.inst = some u ∧
      Free scm sm e.inst u ∧ (e.a, e.b) = capturedOperands e.inst sm ∧ Scanned scm (afterIssue u e.inst sm) younger t := by
  induction h with
  | done sc s => rw [show State.stg { s with iq := sc.keep } = s.stg from rfl, hs] at he; exact nomatch he
  | @kept sc s t i rest hb h ih =>
    obtain ⟨older, younger, scm, sm, rfl, hp, r⟩ := ih he hs
    exact ⟨i :: older, younger, scm, sm, rfl, .kept hb hp, r⟩
  | @issued sc s t i rest v hb hv h ih =>
    by_cases huv : u = v
    · subst huv
      have hf := (blocked_eq_false_iff hv).mp hb
      have hsame := Scanned.stg_stays h u _ (afterIssue_stg_same u i s)
      rw [he] at hsame
      cases hsame
      exact ⟨[], rest, sc, s, rfl, .nil sc s, hv, hf, rfl, h⟩
    · obtain ⟨older, younger, scm, sm, rfl, hp, r⟩ := ih he (by rw [afterIssue_stg_ne i s huv, hs])
      exact ⟨i :: older, younger, scm, sm, rfl, .issued hb hv hp, r⟩

section Older

variable {sc scm : Scan} {s sm : State} {older : List Instr} {i o : Instr} {u : FU} {r : Reg}

/-- No entry passed before a free one is of its unit: a blocked one holds the unit, an issued one its latch. -/
theorem Free.older_unit (free : Free scm sm i u) (hp : Passed sc s older scm sm) (ho : o ∈ older) : unitOf o ≠ some u := by
  intro hou
  rcases hp.knows ho with ⟨_, _, held⟩ | ⟨_, v, f, hv, hf, _⟩
  · exact Bool.false_ne_true (free.held.symm.trans (held u hou))
  · rw [hou] at hv
    cases hv
    exact nomatch free.latch.symm.trans hf

/-- No entry passed before a free one writes one of its registers. -/
theorem Free.older_writer (free : Free scm sm i u) (hp : Passed sc s older scm sm) (ho : o ∈ older) (h0 : r ≠ 0)
    (hd : dstOf o = some r) : ¬(r ∈ srcOf i ∨ dstOf i = some r) := by
  intro hr
  rcases hp.knows ho with ⟨blkW, _⟩ | ⟨pending, _⟩
  · exact Bool.false_ne_true ((free.notAwaited r h0 hr).symm.trans (blkW r h0 hd))
  · exact Bool.false_ne_true ((free.notPending r h0 hr).symm.trans (pending r h0 hd))

/-- An entry passed before a free one that reads its destination has issued. -/
theorem Free.older_reader (free : Free scm sm i u) (hp : Passed sc s older scm sm) (ho : o ∈ older) (h0 : r ≠ 0)
    (hr : r ∈ srcOf o) (hd : dstOf i = some r) : ∃ v f, sm.stg.get v = some f ∧ f.inst = o := by
  rcases hp.knows ho with ⟨_, blkR, _⟩ | ⟨_, v, f, _, hf, hfo⟩
  · exact absurd ((free.notRead r h0 hd).symm.trans (blkR r h0 hr)) Bool.false_ne_true
  · exact ⟨v, f, hf, hfo⟩

/-- No register of a free entry was pending when the scan began. -/
theorem Free.not_pending (free : Free scm sm i u) (hp : Passed sc s older scm sm) (h0 : r ≠ 0)
    (hr : r ∈ srcOf i ∨ dstOf i = some r) : s.isPending r = false := by
  rw [← Bool.not_eq_true]
  exact fun hpend => Bool.false_ne_true ((free.notPending r h0 hr).symm.trans (hp.grows.pending r hpend))

end Older

/-- Settles O37: the scan finds an entry free only if each older one, blocked or issued, is out of its way. -/
theorem issueIsInOrderAndHazardFree : Obligations.IssueIsInOrderAndHazardFree := by
  intro s t u e hstg h he
  obtain ⟨s1, s2, s3, c⟩ := step_completed h
  rw [c.pre] at he ⊢
  have hempty : (housekeeping s).stg.get u = none := by rw [housekeeping_stg, hstg, noEntries_get]
  obtain ⟨older, younger, scm, sm, hiq, hp, hu, free, hops, hrest⟩ := Scanned.entry c.scanned he hempty
  refine ⟨hu, hops.trans (capturedOperands_congr hp.grows.x e.inst), older, younger, hiq, fun o ho => free.older_unit hp ho,
    fun o ho r h0 hd => not_or.mp (free.older_writer hp ho h0 hd), fun o ho r h0 hr hd => ?_,
    fun r h0 hr => Free.not_pending (s := housekeeping s) free hp h0 hr⟩
  obtain ⟨v, f, hf, hfo⟩ := free.older_reader hp ho h0 hr hd
  exact ⟨v, f, Scanned.stg_stays hrest v f ((grows_afterIssue free).stg v f hf), hfo⟩

/-! ### What must issue (R102, R127) -/

@[simp] theorem start_blkW (r : Reg) : Scan.start.blkW.getLsbD r = false := BitVec.getLsbD_zero
@[simp] theorem start_blkR (r : Reg) : Scan.start.blkR.getLsbD r = false := BitVec.getLsbD_zero
@[simp] theorem start_held (u : FU) : Scan.start.held.get u = false := by cases u <;> rfl

/-- An issuable entry is free when the scan comes to it; an older entry that reads its destination has issued by then, which is
the induction. -/
theorem free_of_issuable {s : State} {older : List Instr} {i : Instr} (h : Issuable s older i) {s0 : State}
    (hstg : s0.stg = noEntries) (hpend : ∀ r, s0.isPending r = s.isPending r) :
    ∀ {sc' s'}, Passed Scan.start s0 older sc' s' → ∃ u, unitOf i = some u ∧ Free sc' s' i u := by
  induction h with
  | @intro older i u hu hunit hregs _ ih =>
    intro sc' s' hp
    have src := hp.sources
    refine ⟨u, hu, ?_, ?_, fun r h0 hr => ?_, fun r h0 hr => ?_, fun r h0 hd => ?_⟩
    · cases hl : s'.stg.get u with
      | none => rfl
      | some e =>
        rcases src.stg u e hl with h | ⟨h, ho⟩
        · rw [hstg, noEntries_get] at h; exact nomatch h
        · exact absurd h (hunit _ ho)
    · rw [← Bool.not_eq_true]
      intro hl
      rcases src.held u hl with h | ⟨o, ho, h⟩
      · rw [start_held] at h; exact nomatch h
      · exact hunit o ho h
    · obtain ⟨hfree, hdst⟩ := hregs r h0 hr
      rw [← Bool.not_eq_true]
      intro hl
      rcases src.pending r hl with h | ⟨o, ho, h⟩
      · rw [hpend, hfree] at h; exact nomatch h
      · exact hdst o ho h
    · obtain ⟨_, hdst⟩ := hregs r h0 hr
      rw [← Bool.not_eq_true]
      intro hl
      rcases src.blkW r hl with h | ⟨o, ho, h⟩
      · rw [start_blkW] at h; exact nomatch h
      · exact hdst o ho h
    · rw [← Bool.not_eq_true]
      intro hl
      rcases src.blkR r hl with h | ⟨before, o, after, scm, sm, hsplit, hpass, hblk, hr⟩
      · rw [start_blkR] at h; exact nomatch h
      · obtain ⟨v, hv, hfree⟩ := ih before o after hsplit ⟨r, h0, hr, hd⟩ hpass
        rw [(blocked_eq_false_iff hv).mpr hfree] at hblk; exact nomatch hblk

/-- An entry that the scan finds free issues with its operands. -/
theorem issuedAs_of_free {s s1 s2 s3 t : State} (c : Completed s s1 s2 s3 t) {older younger : List Instr} {i : Instr} {u : FU}
    {sc' : Scan} {s' : State} (hu : unitOf i = some u) (hp : Passed Scan.start (housekeeping s) older sc' s')
    (hrest : Scanned sc' s' (i :: younger) s1) (free : Free sc' s' i u) : IssuedAs i s t := by
  have hops : capturedOperands i s' = capturedOperands i s := capturedOperands_congr hp.grows.x i
  refine ⟨u, hu, ?_⟩
  rw [c.pre, ← hops]
  cases hrest with
  | kept hb _ => rw [(blocked_eq_false_iff hu).mpr free] at hb; exact nomatch hb
  | issued _ hv hrest =>
    rw [hu] at hv; cases hv
    exact Scanned.stg_stays hrest u _ (afterIssue_stg_same u i s')

/-- The oldest entry issues unless one of its registers is pending: nothing is blocked or staged before it. -/
theorem oldest_issues_or_pending {s s1 s2 s3 t : State} (c : Completed s s1 s2 s3 t) (hstg : s.stg = noEntries) {i : Instr}
    {younger : List Instr} (hiq : s.iq = i :: younger) :
    IssuedAs i s t ∨ ∃ r : Reg, r ≠ 0 ∧ (r ∈ srcOf i ∨ dstOf i = some r) ∧ s.isPending r = true := by
  have hscan := c.scanned
  rw [hiq] at hscan
  by_cases hpend : ∃ r : Reg, r ≠ 0 ∧ (r ∈ srcOf i ∨ dstOf i = some r) ∧ s.isPending r = true
  · exact .inr hpend
  · left
    push Not at hpend
    have hregs : ∀ r : Reg, r ≠ 0 → r ∈ srcOf i ∨ dstOf i = some r → s.isPending r = false := fun r h0 hr =>
      Bool.eq_false_iff.mpr (hpend r h0 hr)
    have free : ∀ u, Free Scan.start (housekeeping s) i u := fun u =>
      ⟨by rw [housekeeping_stg, hstg, noEntries_get], start_held u, hregs, fun r _ _ => start_blkW r, fun r _ _ => start_blkR r⟩
    have hunit : ∃ u, unitOf i = some u := by
      cases hscan with
      | kept hb _ =>
        rw [← Option.isSome_iff_exists]
        by_contra hn
        have hnone := Option.not_isSome_iff_eq_none.mp hn
        have hf := free .addr
        simp only [blocked, hnone, readAfterWrite, writeAfterWrite, writeAfterRead, Bool.false_or] at hb
        rw [(srcMask_not_meets_iff i _).mpr, (dstMask_not_meets_iff i _).mpr, (dstMask_not_meets_iff i _).mpr] at hb
        · exact nomatch hb
        · exact hf.notRead
        · intro r h0 hr
          simpa using ⟨hf.notPending r h0 (.inr hr), hf.notAwaited r h0 (.inr hr)⟩
        · intro r h0 hr
          simpa using ⟨hf.notPending r h0 (.inl hr), hf.notAwaited r h0 (.inl hr)⟩
      | issued _ hu _ => exact ⟨_, hu⟩
    obtain ⟨u, hu⟩ := hunit
    exact issuedAs_of_free c hu (.nil _ _) hscan (free u)

/-- Settles O38: an issuable entry is free when the scan reaches it, and the oldest waits only for a pending register, which
has a writer in flight. -/
theorem freeEntriesIssueAndOldestWaitsOnlyForInFlight : Obligations.FreeEntriesIssueAndOldestWaitsOnlyForInFlight := by
  intro s t older younger i hiq h
  obtain ⟨s1, s2, s3, c⟩ := step_completed h
  refine ⟨fun hstg hi => ?_, fun hstg hww ho => ?_, fun inv ho => ?_⟩
  · have hscan := c.scanned
    rw [hiq] at hscan
    obtain ⟨sc', s', hp, hrest⟩ := passed_of_scanned hscan
    obtain ⟨u, hu, free⟩ := free_of_issuable hi (s0 := housekeeping s) hstg (fun _ => rfl) hp
    exact issuedAs_of_free c hu hp hrest free
  · subst ho
    rcases oldest_issues_or_pending c hstg hiq with hi | ⟨r, _, _, hr⟩
    · exact hi
    · rw [State.isPending, hww, BitVec.ofNat_eq_ofNat, BitVec.getLsbD_zero] at hr; exact nomatch hr
  · subst ho
    refine (oldest_issues_or_pending c inv.stagingEmpty hiq).imp id ?_
    rintro ⟨r, h0, hr, hpend⟩
    obtain ⟨j, hj, hd⟩ := inv.pendingHasWriter r hpend
    exact ⟨j, hj, r, h0, hd, hr⟩

/-! ### The split of the queue (R105) -/

/-- The instructions in a set of staging or pre latches. -/
def instsOf (p : PerUnit (Option OpEntry)) : List Instr := [p.addr, p.add, p.log].filterMap (·.map (·.inst))

theorem preInsts_eq (s : State) : s.preInsts = instsOf s.pre := rfl

@[simp] theorem instsOf_noEntries : instsOf noEntries = [] := rfl

/-- Filling an empty latch adds its instruction. -/
theorem instsOf_set_perm {p : PerUnit (Option OpEntry)} {u : FU} (e : OpEntry) (h : p.get u = none) :
    (instsOf (p.set u (some e))).Perm (e.inst :: instsOf p) := by
  obtain ⟨a, b, c⟩ := p
  cases u with
  | addr => cases h; exact List.Perm.refl _
  | add => cases h; cases a <;> [exact List.Perm.refl _; exact List.Perm.swap _ _ _]
  | log =>
    cases h
    have hl : instsOf ⟨a, b, some e⟩ = instsOf ⟨a, b, none⟩ ++ [e.inst] := by cases a <;> cases b <;> rfl
    show (instsOf ⟨a, b, some e⟩).Perm _
    rw [hl]
    exact List.perm_append_singleton _ _

/-- A scan splits its entries into those it keeps and those it stages, each in order. -/
theorem Scanned.interleaves {sc : Scan} {s t : State} {es : List Instr} (h : Scanned sc s es t) :
    ∃ kept issued, Interleaves kept issued es ∧ t.iq = sc.keep ++ kept ∧
      (instsOf t.stg).Perm (issued ++ instsOf s.stg) := by
  induction h with
  | done => exact ⟨[], [], .nil, by simp, List.Perm.refl _⟩
  | @kept sc s t i rest _ _ ih =>
    obtain ⟨kept, issued, hi, hq, hp⟩ := ih
    exact ⟨i :: kept, issued, hi.left, by rw [hq]; simp [Scan.block], hp⟩
  | @issued sc s t i rest u hb hu _ ih =>
    obtain ⟨kept, issued, hi, hq, hp⟩ := ih
    refine ⟨kept, i :: issued, hi.right, hq, hp.trans ?_⟩
    have hset := instsOf_set_perm ⟨i, (capturedOperands i s).1, (capturedOperands i s).2⟩
      ((blocked_eq_false_iff hu).mp hb).latch
    exact (hset.append_left issued).trans List.perm_middle

theorem length_of_interleaves {as bs cs : List Instr} (h : Interleaves as bs cs) : cs.length = as.length + bs.length := by
  induction h with
  | nil => rfl
  | left _ ih => simp only [List.length_cons, ih]; omega
  | right _ ih => simp only [List.length_cons, ih]; omega

/-- The queue after a cycle: what stayed, then what was fetched; and the pre latches hold what issued (R105, R110, R120). -/
theorem cycle_queue {s s1 s2 s3 t : State} (c : Completed s s1 s2 s3 t) (hstg : s.stg = noEntries) :
    ∃ kept issued, Interleaves kept issued s.iq ∧ issued.Perm t.preInsts ∧ s1.iq = kept := by
  obtain ⟨kept, issued, hi, hq, hp⟩ := Scanned.interleaves c.scanned
  rw [housekeeping_stg, hstg, instsOf_noEntries, List.append_nil] at hp
  exact ⟨kept, issued, hi, by rw [preInsts_eq, c.pre]; exact hp.symm, hq⟩

/-- Settles O39: the scan's split, and behind it the words of the fetch step. -/
theorem queueKeepsItsOrder : Obligations.QueueKeepsItsOrder := by
  intro s t hstg h
  obtain ⟨s1, s2, s3, c⟩ := step_completed h
  obtain ⟨kept, issued, hi, hp, hq⟩ := cycle_queue c hstg
  have f1 := c.issueFront
  have hwbr : s1.wbr = s.wbr := c.issueFrame.wbr
  have hpc : s1.pc = s.pc := c.issueFrame.pc
  have hshort : s.iq.length ≤ 4 → t.iq.length ≤ 4 := by
    intro hlen
    obtain ⟨_, _, _, _, _, hfour⟩ := fetchDecode_queue c.fetched
    rw [c.iq]
    exact hfour (by rw [hq]; have := length_of_interleaves hi; show _ ≤ 4; omega)
  rcases fetchDecode_words c.fetched with ⟨_, hsame⟩ | ⟨hnone, new, hnew⟩
  · exact ⟨kept, issued, [], hi, hp, by rw [c.iq, hsame, hq, List.append_nil], by simp, fun _ => rfl, nofun, hshort⟩
  · refine ⟨kept, issued, new, hi, hp, by rw [c.iq, hnew.queue, hq], hnew.count, fun hw => ?_, fun k i hk => ?_, hshort⟩
    · rw [← hwbr, hnone] at hw; exact nomatch hw
    · obtain ⟨hqueued, hfetch⟩ := hnew.words k i hk
      rw [fetchesAt_congr f1.map f1.par f1.mem, hpc] at hfetch
      exact ⟨hqueued, (aligned4In_iff _ _ _).mp hfetch.1, hfetch.2⟩

end Sys2Proof.IssueScan
end

section
/-! What steps 1 to 3 make of the fetch unit's part of the state (R108 to R115), and with it where `pc`, the waiting branch, the
fetch-executed slot and the registers are after a cycle (R116, R125, R173). -/

namespace Sys2Proof.FetchUnit

open Sys2Proof Sys2Proof.Machine Sys2Proof.PipelineEngine Sys2Proof.CycleLaws Sys2Proof.IssueScan

/-! ### Branch resolution (R115, R170 to R172) -/

/-- A waiting branch at its resolution: it compares, redirects, leaves the latch and is fetch-executed. -/
theorem serve_resolve_eq {i : Instr} (hi : isBranch i = true) {s : State} {b : BranchEntry} (hb : s.wbr = some b) :
    serve .resolve i s
      = .next { s with stage := .resolve, pc := branchPc s b.addr s.pc i, wbr := none, fx := some i } := by
  cases i with
  | beq rs1 rs2 imm =>
    simp [serve, exec, execBeq, runBranch, resolveBranch, hb, branchPc, condEq, branchTarget, State.read]
  | bne rs1 rs2 imm =>
    simp [serve, exec, execBne, runBranch, resolveBranch, hb, branchPc, condNe, branchTarget, State.read]
  | blt rs1 rs2 imm =>
    simp [serve, exec, execBlt, runBranch, resolveBranch, hb, branchPc, condLt, branchTarget, State.read]
  | sw | add | sub | and | or | addi | andi | ori | sll | sra | lw | jal | brk => exact nomatch hi

/-- A branch's outcome depends on the registers alone. -/
theorem branchPc_congr {s t : State} (h : t.x = s.x) (addr fall : Word) (i : Instr) :
    branchPc t addr fall i = branchPc s addr fall i := by
  have hr : ∀ r, t.read r = s.read r := State.read_congr h
  cases i <;> simp only [branchPc, hr]

/-- R115: ready is that no source is pending or awaited from the queue. -/
theorem branchReady_iff (s : State) (i : Instr) :
    branchReady s i = true ↔ ∀ r ∈ srcOf i, r ≠ 0 → s.isPending r = false ∧ ∀ j ∈ s.iq, dstOf j ≠ some r := by
  simp only [branchReady, Bool.not_eq_true', srcMask_not_meets_iff, BitVec.getLsbD_or, Bool.or_eq_false_iff,
    getLsbD_queuedWrites, State.isPending]
  constructor
  · intro h r hr h0
    obtain ⟨hp, hq⟩ := h r h0 hr
    exact ⟨hp, fun j hj hd => by simp [h0] at hq; exact hq j hj hd⟩
  · intro h r h0 hr
    obtain ⟨hp, hq⟩ := h r hr h0
    exact ⟨hp, by simpa [h0] using hq⟩

/-- What branch resolution does, with the address it leaves (R115). -/
inductive Resolution (s t : State) : Prop
  | nothing : s.wbr = none → t = s → Resolution s t
  | waits {b : BranchEntry} : s.wbr = some b → branchReady s b.inst = false → t = s → Resolution s t
  | resolves {b : BranchEntry} : s.wbr = some b → branchReady s b.inst = true → isBranch b.inst = true →
      FrontIs t (branchPc s b.addr s.pc b.inst) none (some b.inst) s → Resolution s t

theorem branchStage_resolution {s t : State} (h : branchStage s = .next t) : Resolution s t := by
  unfold branchStage at h
  cases hb : s.wbr with
  | none => rw [hb] at h; exact .nothing hb (Host.Outcome.next.inj h).symm
  | some b =>
    rw [hb] at h
    cases hr : branchReady s b.inst with
    | false =>
      simp only [hr, Bool.false_eq_true, if_false] at h
      exact .waits hb hr (Host.Outcome.next.inj h).symm
    | true =>
      simp only [hr, if_true] at h
      have hk := (serve_resolve_next h).1
      rw [serve_resolve_eq hk hb] at h
      cases Host.Outcome.next.inj h
      exact .resolves hb hr hk ⟨rfl, rfl, rfl, rfl, rfl⟩

/-- A branch that waits after step 2 was waiting before it or was fetched last, so no `jal` was executed. -/
theorem fetched_of_waiting {s t : State} {b : BranchEntry} (h : fetchDecode s = .next t) (hb : t.wbr = some b) :
    t.fx = s.fx ∧ t.x = s.x := by
  rcases fetchDecode_words h with ⟨_, rfl⟩ | ⟨hnone, new, hnew⟩
  · exact ⟨rfl, rfl⟩
  · have hno : t.wbr ≠ s.wbr := by rw [hb, hnone]; exact nofun
    cases hnew.ended with
    | stopped _ f => exact absurd f.wbr hno
    | branch _ _ f => exact ⟨f.fx, f.x⟩
    | jal _ f => exact absurd f.wbr hno
    | brk _ f => exact absurd f.wbr hno

/-- Settles O36: the two outcomes of branch resolution, and the later steps leave the fetch unit alone. -/
theorem waitingBranchResolvesWhenStable : Obligations.WaitingBranchResolvesWhenStable := by
  intro s s1 s2 t b h1 h2 hb h
  obtain ⟨s1', s2', s3, c⟩ := step_completed h
  obtain rfl : s1' = s1 := Host.Outcome.next.inj (c.issued.symm.trans h1)
  obtain rfl : s2' = s2 := Host.Outcome.next.inj (c.fetched.symm.trans h2)
  obtain ⟨hfx, hx⟩ := fetched_of_waiting h2 hb
  have hx : s2'.x = s.x := hx.trans c.issueFrame.x
  have hfx : s2'.fx = none := hfx.trans c.issueFrame.fx
  simp only [← branchReady_iff]
  cases branchStage_resolution c.resolved with
  | nothing hn _ => rw [hb] at hn; exact nomatch hn
  | waits hb' hr hs =>
    rw [hb] at hb'; cases hb'
    rw [if_neg (Bool.eq_false_iff.mp hr)]
    subst hs
    exact ⟨c.rest.wbr.trans hb, c.rest.pc, c.rest.fx.trans hfx⟩
  | resolves hb' hr hk f =>
    rw [hb] at hb'; cases hb'
    rw [if_pos hr]
    exact ⟨c.rest.wbr.trans f.wbr, c.rest.fx.trans f.fx, (c.rest.pc.trans f.pc).trans (branchPc_congr hx _ _ _)⟩

/-! ### The fetch unit after steps 1 to 3 -/

/-- How the fetch unit's part of a cycle ended, at the address `q` where its fetching ended: `s` is the cycle's start, `s1` the
state after issue, `s3` the one after branch resolution. `exhausted` says that no slot or no room was left. -/
inductive FrontEnd (s s1 s3 : State) (q : Word) (exhausted : Prop) : Prop
  | stillWaits {b : BranchEntry} : s.wbr = some b → FrontIs s3 s.pc (some b) none s1 → FrontEnd s s1 s3 q exhausted
  | waiterResolves {b : BranchEntry} : s.wbr = some b → isBranch b.inst = true →
      FrontIs s3 (branchPc s b.addr s.pc b.inst) none (some b.inst) s1 → FrontEnd s s1 s3 q exhausted
  | stopped : s.wbr = none → exhausted → FrontIs s3 q none none s1 → FrontEnd s s1 s3 q exhausted
  | branchWaits {i : Instr} : s.wbr = none → isBranch i = true → FetchesAt s q i →
      FrontIs s3 (nextPc q) (some ⟨i, q⟩) none s1 → FrontEnd s s1 s3 q exhausted
  | branchResolves {i : Instr} : s.wbr = none → isBranch i = true → FetchesAt s q i →
      FrontIs s3 (branchPc s q (nextPc q) i) none (some i) s1 → FrontEnd s s1 s3 q exhausted
  | jal {rd : Reg} {imm : Word} : s.wbr = none → FetchesAt s q (.jal rd imm) →
      FrontIs s3 (jalTarget s.par.jalBaseOffset q imm) none (some (.jal rd imm)) (s1.write rd (nextPc q)) →
      FrontEnd s s1 s3 q exhausted
  | brk : s.wbr = none → FetchesAt s q .brk → FrontIs s3 q none (some .brk) s1 → FrontEnd s s1 s3 q exhausted

/-- The words that a cycle took into the queue, and how its fetching ended. -/
structure FrontWords (s s1 s3 : State) (new : List Instr) : Prop where
  queue : s3.iq = s1.iq ++ new
  count : new.length ≤ 2
  words : ∀ (k : Nat) (i : Instr), new[k]? = some i → isQueued i = true ∧ FetchesAt s (wordAfter s.pc k) i
  ended : FrontEnd s s1 s3 (wordAfter s.pc new.length) (new.length = 2 ∨ Config.iqDepth ≤ s3.iq.length)

/-- Branch resolution leaves the fetch unit alone where no branch waits. -/
theorem branchStage_of_not_waiting {s t : State} (h : branchStage s = .next t) (hn : s.wbr = none) : t = s := by
  cases branchStage_resolution h with
  | nothing _ hs => exact hs
  | waits hb => rw [hn] at hb; exact nomatch hb
  | resolves hb => rw [hn] at hb; exact nomatch hb

section

variable {s s1 s2 s3 t : State}

/-- With a branch waiting at its start a cycle takes no word. -/
theorem Completed.frontWords_of_waiting (c : Completed s s1 s2 s3 t) {b : BranchEntry} (hb : s.wbr = some b) :
    FrontWords s s1 s3 [] := by
  have f1 := c.issueFrame
  have hb1 : s1.wbr = some b := f1.wbr.trans hb
  obtain rfl : s1 = s2 := Host.Outcome.next.inj ((fetchDecode_of_waiting hb1).symm.trans c.fetched)
  refine ⟨by rw [(branchStage_frame c.resolved).iq, List.append_nil], Nat.zero_le 2, nofun, ?_⟩
  cases branchStage_resolution c.resolved with
  | nothing hn _ => rw [hb1] at hn; exact nomatch hn
  | waits _ _ hs => subst hs; exact .stillWaits hb ⟨f1.pc, hb1, f1.fx, rfl, rfl⟩
  | resolves hb' _ hk f =>
    rw [hb1] at hb'; cases hb'
    rw [branchPc_congr (show s1.x = s.x from f1.x), show s1.pc = s.pc from f1.pc] at f
    exact .waiterResolves hb hk f

/-- Without one, it takes the words of the fetch step, and a branch fetched may resolve at once. -/
theorem Completed.frontWords_of_not_waiting (c : Completed s s1 s2 s3 t) (hn : s.wbr = none) :
    ∃ new, FrontWords s s1 s3 new := by
  have f1 := c.issueFrame
  have a1 := c.issueFront
  have hpc : s1.pc = s.pc := f1.pc
  have hfx : s1.fx = none := f1.fx
  have hn1 : s1.wbr = none := f1.wbr.trans hn
  have fetches : ∀ a i, FetchesAt s1 a i ↔ FetchesAt s a i := fetchesAt_congr a1.map a1.par a1.mem
  rcases fetchDecode_words c.fetched with ⟨⟨b, hb⟩, _⟩ | ⟨_, new, hnew⟩
  · rw [hn1] at hb; exact nomatch hb
  have hiq := (branchStage_frame c.resolved).iq
  have hended := hnew.ended
  rw [hpc, ← hiq] at hended
  refine ⟨new, hiq.trans hnew.queue, hnew.count, fun k i hk => ?_, ?_⟩
  · rw [← fetches, ← hpc]; exact hnew.words k i hk
  cases hended with
  | stopped he f =>
    obtain rfl := branchStage_of_not_waiting c.resolved (f.wbr.trans hn1)
    exact .stopped hn he ⟨f.pc, f.wbr.trans hn1, f.fx.trans hfx, f.x, f.willwrite⟩
  | jal hi f =>
    obtain rfl := branchStage_of_not_waiting c.resolved (f.wbr.trans hn1)
    rw [a1.par] at f
    exact .jal hn ((fetches _ _).mp hi) ⟨f.pc, f.wbr.trans hn1, f.fx, f.x, f.willwrite⟩
  | brk hi f =>
    obtain rfl := branchStage_of_not_waiting c.resolved (f.wbr.trans hn1)
    exact .brk hn ((fetches _ _).mp hi) ⟨f.pc, f.wbr.trans hn1, f.fx, f.x, f.willwrite⟩
  | branch hb hi f =>
    rw [fetches] at hi
    cases branchStage_resolution c.resolved with
    | nothing hw _ => rw [f.wbr] at hw; exact nomatch hw
    | waits _ _ hs =>
      subst hs
      exact .branchWaits hn hb hi ⟨f.pc, f.wbr, f.fx.trans hfx, f.x, f.willwrite⟩
    | resolves hb' _ _ g =>
      rw [f.wbr] at hb'; cases hb'
      have hx : s2.x = s.x := f.x.trans f1.x
      rw [branchPc_congr hx, f.pc] at g
      exact .branchResolves hn hb hi ⟨g.pc, g.wbr, g.fx, g.x.trans f.x, g.willwrite.trans f.willwrite⟩

theorem Completed.frontWords (c : Completed s s1 s2 s3 t) : ∃ new, FrontWords s s1 s3 new := by
  cases hb : s.wbr with
  | some b => exact ⟨[], Completed.frontWords_of_waiting c hb⟩
  | none => exact Completed.frontWords_of_not_waiting c hb

end

/-! ### `pc` after a cycle -/

/-- What a cycle that began with no waiting branch leaves in the fetch unit, at the address `q` where its fetching ended. -/
structure FetchUnitAt (s t : State) (q : Word) (exhausted : Prop) : Prop where
  fetched : ∀ i, t.wbr.map (·.inst) = some i ∨ t.fx = some i → decodeWith s.par.enc (s.mem.readWord q.toNat) = .ok i
  waits : ∀ b, t.wbr = some b → b.addr = q ∧ t.pc = q + 4
  branch : ∀ i, t.fx = some i → isBranch i = true → t.pc = branchPc s q (q + 4) i
  jal : ∀ rd imm, t.fx = some (.jal rd imm) → t.pc = q + s.par.jalBaseOffset + 2 * imm
  brk : t.fx = some .brk → t.pc = q
  quiet : t.wbr = none → t.fx = none → t.pc = q ∧ exhausted

theorem fetchUnitAt_of_frontEnd {s s1 s3 : State} {q : Word} {exhausted : Prop} (hn : s.wbr = none)
    (h : FrontEnd s s1 s3 q exhausted) : FetchUnitAt s s3 q exhausted := by
  cases h with
  | stillWaits hb | waiterResolves hb => rw [hn] at hb; exact nomatch hb
  | stopped _ he f => constructor <;> simp [f.wbr, f.fx, f.pc, he]
  | branchWaits _ hb hi f => constructor <;> simp [f.wbr, f.fx, f.pc, hi.2, nextPc]
  | branchResolves _ hb hi f =>
    constructor <;> simp [f.wbr, f.fx, f.pc, hi.2, nextPc]
    · rintro rd imm rfl; exact nomatch hb
    · rintro rfl; exact nomatch hb
  | jal _ hi f =>
    constructor <;> simp [f.wbr, f.fx, f.pc, hi.2, jalTarget]
    exact nofun
  | brk _ hi f =>
    constructor <;> simp [f.wbr, f.fx, f.pc, hi.2]
    exact nofun

/-- Settles O40: the end of the cycle's fetching, and the later steps leave the fetch unit alone. -/
theorem pcAfterACycle : Obligations.PcAfterACycle := by
  intro s t hstg hn h
  obtain ⟨s1, s2, s3, c⟩ := step_completed h
  obtain ⟨new, front⟩ := Completed.frontWords c
  obtain ⟨kept, issued, hi, hp, hq⟩ := cycle_queue c hstg
  have unit := fetchUnitAt_of_frontEnd hn front.ended
  refine ⟨new.length, front.count, ?_, ?_⟩
  · rw [c.rest.iq, front.queue, List.length_append, hq, length_of_interleaves hi, hp.length_eq]
    omega
  · rw [c.rest.wbr, c.rest.fx, c.rest.pc, c.rest.iq]
    exact ⟨unit.fetched, unit.waits, unit.branch, unit.jal, unit.brk, unit.quiet⟩

/-! ### Registers after a cycle -/

/-- What a post latch writes to a register (R116). -/
def latchResult (r : Reg) (l : Option ResEntry) : Option Word :=
  l.bind fun e => if r ≠ 0 ∧ dstOf e.inst = some r then some e.result else none

/-- What the link of a `jal` in the fetch-executed slot of `t` writes to a register (R173). -/
def linkResult (r : Reg) (offset : Word) (t : State) : Option Word :=
  match t.fx with
  | some (.jal rd imm) => if r ≠ 0 ∧ rd = r then some (t.pc - (offset + 2 * imm) + 4) else none
  | _ => none

theorem afterWriteback_read_getD {l : PostLatch} {s : State} (h : ∀ e, s.post l = some e → latchOf e.inst = some l)
    (r : Reg) : (afterWriteback l s).read r = (latchResult r (s.post l)).getD (s.read r) := by
  rw [afterWriteback_read]
  cases hp : s.post l with
  | none => rfl
  | some e =>
    obtain ⟨rd, hd⟩ := Option.isSome_iff_exists.mp (dstOf_isSome_of_latchOf (h e hp))
    by_cases hr : r = rd
    · subst hr
      by_cases h0 : r = 0 <;> simp [latchResult, hd, h0]
    · simp [latchResult, hd, hr, Ne.symm hr]

/-- A register after step 4: the last of its three latches that writes it (R116, R125). -/
theorem written_read {s : State} (h : ∀ l e, s.post l = some e → latchOf e.inst = some l) (r : Reg) :
    (written s).read r = (latchResult r s.postLog).getD ((latchResult r s.postAdd).getD
      ((latchResult r s.postmem).getD (s.read r))) := by
  have hadd : (afterWriteback .mem s).post .add = s.post .add := by rw [afterWriteback_post]; rfl
  have hlog : (afterWriteback .add (afterWriteback .mem s)).post .log = s.post .log := by
    rw [afterWriteback_post, if_neg (by decide), afterWriteback_post]; rfl
  rw [written, afterWriteback_read_getD (by rw [hlog]; exact h .log), hlog,
    afterWriteback_read_getD (by rw [hadd]; exact h .add), hadd, afterWriteback_read_getD (h .mem)]
  rfl

/-- A register after steps 1 to 3: only a `jal` writes one, and its address is what its target is formed from. -/
theorem front_read {s s1 s3 : State} {q : Word} {exhausted : Prop} (hx : s1.x = s.x) (h : FrontEnd s s1 s3 q exhausted)
    (r : Reg) : s3.read r = (linkResult r s.par.jalBaseOffset s3).getD (s.read r) := by
  have hr : s1.read r = s.read r := State.read_congr hx r
  cases h with
  | stillWaits _ f | stopped _ _ f | branchWaits _ _ _ f | brk _ _ f =>
    rw [State.read_congr f.x, hr, linkResult, f.fx]; rfl
  | waiterResolves _ hb f | branchResolves _ hb _ f =>
    rw [State.read_congr f.x, hr, linkResult, f.fx]
    split
    · rename_i heq
      rw [Option.some.inj heq] at hb; exact nomatch hb
    · rfl
  | @jal rd imm _ _ f =>
    have hlink : s3.pc - (s.par.jalBaseOffset + 2 * imm) + 4 = nextPc q := by
      rw [f.pc, jalTarget, BitVec.add_assoc, BitVec.add_sub_cancel, nextPc]
    rw [State.read_congr f.x, State.read_write, hr, linkResult, f.fx]
    simp only [hlink]
    by_cases hrd : r = rd
    · subst hrd
      by_cases h0 : r = 0 <;> simp [h0]
    · simp [hrd, Ne.symm hrd]

/-- Settles O43: step 4 writes over what a `jal` linked. -/
theorem registersAfterACycle : Obligations.RegistersAfterACycle := by
  intro s t r h
  obtain ⟨s1, s2, s3, c⟩ := step_completed h
  obtain ⟨new, front⟩ := Completed.frontWords c
  have hlink : linkResult r s.par.jalBaseOffset t = linkResult r s.par.jalBaseOffset s3 := by
    rw [linkResult, linkResult, c.rest.fx, c.rest.pc]
  have hx : s1.x = s.x := c.issueFrame.x
  show t.read r = (((latchResult r s.postLog).or (latchResult r s.postAdd)).or
    ((latchResult r s.postmem).or (linkResult r s.par.jalBaseOffset t))).getD (s.read r)
  rw [State.read_congr c.rest.x, written_read c.rest.retires, c.front.postLog, c.front.postAdd, c.front.postmem,
    front_read hx front.ended, hlink]
  simp only [Option.getD_or]

end Sys2Proof.FetchUnit
end

section
/-! The invariant of legal states and the scoreboard's meaning (R20 to R42, R26, R27, R127, R207): what is in flight after a
cycle, how many of it write a register, and that every cycle keeps both. -/

namespace Sys2Proof.Invariant

open Sys2Proof Sys2Proof.Machine Sys2Proof.PipelineEngine Sys2Proof.CycleLaws Sys2Proof.IssueScan Sys2Proof.FetchUnit

/-! ### What is in flight -/

/-- An instruction in flight is in a staging latch, a pre latch, the pre-memory latch or a post latch (R27). -/
theorem mem_inFlight {s : State} {i : Instr} :
    i ∈ s.inFlight ↔ (∃ u e, s.stg.get u = some e ∧ e.inst = i) ∨ (∃ u e, s.pre.get u = some e ∧ e.inst = i) ∨
      (∃ m, s.premem = some m ∧ m.inst = i) ∨ (∃ l e, s.post l = some e ∧ e.inst = i) := by
  have units : ∀ p : PerUnit (Option OpEntry), (∃ u e, p.get u = some e ∧ e.inst = i) ↔
      (∃ e, p.addr = some e ∧ e.inst = i) ∨ (∃ e, p.add = some e ∧ e.inst = i) ∨ ∃ e, p.log = some e ∧ e.inst = i := by
    intro p
    constructor
    · rintro ⟨_ | _ | _, h⟩
      exacts [.inl h, .inr (.inl h), .inr (.inr h)]
    · rintro (h | h | h)
      exacts [⟨.addr, h⟩, ⟨.add, h⟩, ⟨.log, h⟩]
  have posts : (∃ l e, s.post l = some e ∧ e.inst = i) ↔ (∃ e, s.postmem = some e ∧ e.inst = i) ∨
      (∃ e, s.postAdd = some e ∧ e.inst = i) ∨ ∃ e, s.postLog = some e ∧ e.inst = i := by
    constructor
    · rintro ⟨_ | _ | _, h⟩
      exacts [.inl h, .inr (.inl h), .inr (.inr h)]
    · rintro (h | h | h)
      exacts [⟨.mem, h⟩, ⟨.add, h⟩, ⟨.log, h⟩]
  rw [units, units, posts]
  simp [State.inFlight, or_assoc, or_and_right, exists_or]

section

variable {s s1 s2 s3 t : State}

/-- After a cycle a pre latch holds an entry that the cycle's scan took from the queue. -/
theorem pre_of_queue (c : Completed s s1 s2 s3 t) (hstg : s.stg = noEntries) {u : FU} {e : OpEntry}
    (he : t.pre.get u = some e) : unitOf e.inst = some u ∧ e.inst ∈ s.iq := by
  rw [c.pre] at he
  obtain ⟨older, younger, _, _, hiq, _, hu, _⟩ := Scanned.entry c.scanned he (by rw [housekeeping_stg, hstg, noEntries_get])
  exact ⟨hu, by rw [hiq]; simp⟩

/-- Each latch passes its instruction on (R117 to R120); of the pre-memory latch only a load goes on. -/
theorem premem_inst (c : Completed s s1 s2 s3 t) : t.premem.map (·.inst) = s.pre.addr.map (·.inst) := by
  have none' := c.rest.premem_none
  have some' := c.rest.premem_some
  rw [c.front.pre] at none' some'
  cases hp : s.pre.addr with
  | none => rw [none' hp]; rfl
  | some e =>
    obtain ⟨m, hm, _, hi, _⟩ := some' e hp
    rw [hm]; exact congrArg some hi

theorem postAdd_inst (c : Completed s s1 s2 s3 t) : t.postAdd.map (·.inst) = s.pre.add.map (·.inst) := by
  have none' := c.rest.postAdd_none
  have some' := c.rest.postAdd_some
  rw [c.front.pre] at none' some'
  cases hp : s.pre.add with
  | none => rw [none' hp]; rfl
  | some e =>
    obtain ⟨v, _, hv⟩ := some' e hp
    rw [hv]; rfl

theorem postLog_inst (c : Completed s s1 s2 s3 t) : t.postLog.map (·.inst) = s.pre.log.map (·.inst) := by
  have none' := c.rest.postLog_none
  have some' := c.rest.postLog_some
  rw [c.front.pre] at none' some'
  cases hp : s.pre.log with
  | none => rw [none' hp]; rfl
  | some e =>
    obtain ⟨v, _, hv⟩ := some' e hp
    rw [hv]; rfl

theorem postmem_inst (c : Completed s s1 s2 s3 t) : t.postmem.map (·.inst) = (s.premem.map (·.inst)).filter isLoad := by
  rw [c.postmem]
  cases hm : s.premem with
  | none => rw [loaded_of_none hm]; rfl
  | some m =>
    cases hl : isLoad m.inst with
    | true => rw [loaded_of_load hm hl]; simp [Option.filter, hl]
    | false => rw [loaded_of_store hm hl]; simp [Option.filter, hl]

/-- An instruction found in a latch that was passed on was in flight before. -/
theorem exists_of_map_inst {α β : Type} {f : α → Instr} {g : β → Instr} {a : Option α} {b : Option β}
    (h : a.map f = b.map g) {x : α} (hx : a = some x) : ∃ y, b = some y ∧ g y = f x := by
  rw [hx] at h
  simpa using h.symm

/-- Everything in flight after a cycle was queued or in flight before it. -/
theorem inFlight_after (c : Completed s s1 s2 s3 t) (hstg : s.stg = noEntries) {i : Instr} (hi : i ∈ t.inFlight) :
    i ∈ s.iq ++ s.inFlight := by
  rw [List.mem_append, mem_inFlight]
  rcases mem_inFlight.mp hi with ⟨u, e, he, rfl⟩ | ⟨u, e, he, rfl⟩ | ⟨m, hm, rfl⟩ | ⟨l, e, he, rfl⟩
  · rw [c.rest.stg, noEntries_get] at he; exact nomatch he
  · exact .inl (pre_of_queue c hstg he).2
  · obtain ⟨e, he, hi⟩ := exists_of_map_inst (premem_inst c) hm
    exact .inr (.inr (.inl ⟨.addr, e, he, hi⟩))
  · cases l with
    | mem =>
      have hfilter := postmem_inst c
      rw [show t.postmem = some e from he, Option.map_some, eq_comm, Option.filter_eq_some_iff, Option.map_eq_some_iff] at hfilter
      obtain ⟨⟨m, hm, hi⟩, _⟩ := hfilter
      exact .inr (.inr (.inr (.inl ⟨m, hm, hi⟩)))
    | add =>
      obtain ⟨e, he, hi⟩ := exists_of_map_inst (postAdd_inst c) he
      exact .inr (.inr (.inl ⟨.add, e, he, hi⟩))
    | log =>
      obtain ⟨e, he, hi⟩ := exists_of_map_inst (postLog_inst c) he
      exact .inr (.inr (.inl ⟨.log, e, he, hi⟩))

end

/-! ### How many in flight write a register -/

/-- Whether a latch's instruction, if any, writes `r`, as a count. -/
def slotWrites (r : Reg) (o : Option Instr) : Nat := if o.bind dstOf = some r then 1 else 0

@[simp] theorem slotWrites_none (r : Reg) : slotWrites r none = 0 := rfl

theorem slotWrites_some (r : Reg) (i : Instr) : slotWrites r (some i) = if dstOf i = some r then 1 else 0 := rfl

theorem countP_slot {α : Type} (f : α → Instr) (r : Reg) (o : Option α) (l : List (Option α)) :
    ((o :: l).filterMap (·.map f)).countP (fun i => dstOf i == some r)
      = slotWrites r (o.map f) + (l.filterMap (·.map f)).countP (fun i => dstOf i == some r) := by
  cases o with
  | none => simp
  | some a => simp [List.countP_cons, slotWrites_some, Nat.add_comm]

theorem countP_toList (r : Reg) (o : Option Instr) :
    o.toList.countP (fun i => dstOf i == some r) = slotWrites r o := by
  cases o with
  | none => rfl
  | some a => simp [List.countP_cons, slotWrites_some]

/-- What the post latches write of a register (R116). -/
def postWrites (r : Reg) (s : State) : Nat :=
  slotWrites r (s.postmem.map (·.inst)) + slotWrites r (s.postAdd.map (·.inst)) + slotWrites r (s.postLog.map (·.inst))

/-- What a set of staging or pre latches writes of a register. -/
def unitWrites (r : Reg) (p : PerUnit (Option OpEntry)) : Nat :=
  slotWrites r (p.addr.map (·.inst)) + slotWrites r (p.add.map (·.inst)) + slotWrites r (p.log.map (·.inst))

/-- The writers in flight, latch by latch. -/
theorem writersInFlight_eq (s : State) (r : Reg) :
    s.writersInFlight r
      = unitWrites r s.stg + unitWrites r s.pre + slotWrites r (s.premem.map (·.inst)) + postWrites r s := by
  simp only [State.writersInFlight, State.inFlight, List.countP_append, countP_slot, countP_toList, List.filterMap_nil,
    List.countP_nil, unitWrites, postWrites]
  omega

theorem writersInFlight_pos_iff (s : State) (r : Reg) : 0 < s.writersInFlight r ↔ ∃ i ∈ s.inFlight, dstOf i = some r := by
  simp [State.writersInFlight, List.countP_pos_iff]

/-- Staging an entry in an empty latch adds what it writes. -/
theorem unitWrites_set {p : PerUnit (Option OpEntry)} {u : FU} (h : p.get u = none) (e : OpEntry) (r : Reg) :
    unitWrites r (p.set u (some e)) = unitWrites r p + slotWrites r (some e.inst) := by
  cases u with
  | addr | add | log =>
    simp only [PerUnit.get_addr, PerUnit.get_add, PerUnit.get_log] at h
    simp only [unitWrites, PerUnit.set_addr, PerUnit.set_add, PerUnit.set_log, h, Option.map_some, Option.map_none,
      slotWrites_none]
    omega

theorem writersInFlight_afterIssue {sc : Scan} {s : State} {i : Instr} {u : FU} (free : Free sc s i u) (r : Reg) :
    (afterIssue u i s).writersInFlight r = s.writersInFlight r + slotWrites r (some i) := by
  rw [writersInFlight_eq, writersInFlight_eq]
  have hset := unitWrites_set free.latch ⟨i, (capturedOperands i s).1, (capturedOperands i s).2⟩ r
  simp only [afterIssue, hset, postWrites]
  omega

/-! ### The scan and the scoreboard -/

/-- A pending register has a writer in flight (R26). -/
def PendingCovered (s : State) : Prop := ∀ r : Reg, s.isPending r = true → 0 < s.writersInFlight r

/-- Issue marks what it puts in flight, and nothing else. -/
theorem pendingCovered_scanned {sc : Scan} {s t : State} {es : List Instr} (h : Scanned sc s es t) (hs : PendingCovered s) :
    PendingCovered t := by
  induction h with
  | done => exact hs
  | kept _ _ ih => exact ih hs
  | @issued sc s t i rest u hb hu _ ih =>
    apply ih
    intro r hr
    rw [writersInFlight_afterIssue ((blocked_eq_false_iff hu).mp hb)]
    simp only [afterIssue_isPending, Bool.or_eq_true, Bool.and_eq_true, decide_eq_true_eq] at hr
    rcases hr with hr | ⟨hd, _⟩
    · have := hs r hr; omega
    · rw [slotWrites_some, if_pos hd]; omega

/-- An entry issues only if its destination is not pending, so that no register gets a second writer (R103, R106). -/
theorem scoreboardExact_scanned {sc : Scan} {s t : State} {es : List Instr} (h : Scanned sc s es t) (hs : ScoreboardExact s) :
    ScoreboardExact t := by
  induction h with
  | done => exact hs
  | kept _ _ ih => exact ih hs
  | @issued sc s t i rest u hb hu _ ih =>
    have free := (blocked_eq_false_iff hu).mp hb
    apply ih
    intro r h0
    have hr := hs r h0
    rw [writersInFlight_afterIssue free, afterIssue_isPending, slotWrites_some, hr]
    by_cases hd : dstOf i = some r
    · simp [hd, h0, free.notPending r h0 (.inr hd)]
    · simp [hd]

/-- A register that no entry writes keeps its writers through a scan. -/
theorem writersInFlight_scanned {sc : Scan} {s t : State} {es : List Instr} (h : Scanned sc s es t) {r : Reg}
    (hr : ∀ i ∈ es, dstOf i ≠ some r) : t.writersInFlight r = s.writersInFlight r := by
  induction h with
  | done => rfl
  | kept _ _ ih => exact ih fun i hi => hr i (List.mem_cons_of_mem _ hi)
  | @issued sc s t i rest u hb hu _ ih =>
    rw [ih fun i hi => hr i (List.mem_cons_of_mem _ hi), writersInFlight_afterIssue ((blocked_eq_false_iff hu).mp hb),
      slotWrites_some, if_neg (hr i List.mem_cons_self), Nat.add_zero]

/-- Register 0 is never marked (R23). -/
theorem zeroBit_scanned {sc : Scan} {s t : State} {es : List Instr} (h : Scanned sc s es t) (hs : s.isPending 0 = false) :
    t.isPending 0 = false := by
  induction h with
  | done => exact hs
  | kept _ _ ih => exact ih hs
  | issued _ _ _ ih => exact ih (by rw [afterIssue_isPending, hs]; simp)

/-! ### The scoreboard after fetch and writeback -/

/-- Of steps 2 and 3 only a `jal` touches the scoreboard, and it clears the bit of the register it links to (R173). -/
theorem front_isPending {s s1 s3 : State} {q : Word} {exhausted : Prop} (h : FrontEnd s s1 s3 q exhausted) (r : Reg) :
    s3.isPending r = s1.isPending r ∨
      (s3.isPending r = false ∧ r ≠ 0 ∧ ∃ imm, s3.fx = some (.jal r imm)) := by
  cases h with
  | stillWaits _ f | waiterResolves _ _ f | stopped _ _ f | branchWaits _ _ _ f | branchResolves _ _ _ f | brk _ _ f =>
    exact .inl (State.isPending_congr f.willwrite r)
  | @jal rd imm _ _ f =>
    rw [State.isPending_congr f.willwrite, State.isPending_write]
    by_cases hr : r = rd ∧ rd ≠ 0
    · obtain ⟨rfl, h0⟩ := hr
      exact .inr ⟨by simp [h0], h0, imm, f.fx⟩
    · left
      rcases not_and_or.mp hr with h | h <;> simp [h]

/-- A bit after one latch was written back: it clears if the latch writes the register. -/
theorem afterWriteback_isPending_slot {l : PostLatch} {s : State} (h : ∀ e, s.post l = some e → latchOf e.inst = some l)
    {r : Reg} (h0 : r ≠ 0) : (afterWriteback l s).isPending r = true ↔
      s.isPending r = true ∧ slotWrites r ((s.post l).map (·.inst)) = 0 := by
  rw [afterWriteback_isPending]
  cases hp : s.post l with
  | none => simp
  | some e =>
    obtain ⟨rd, hd⟩ := Option.isSome_iff_exists.mp (dstOf_isSome_of_latchOf (h e hp))
    by_cases hr : rd = r
    · subst hr; simp [slotWrites_some, hd, h0]
    · simp [slotWrites_some, hd, hr, Ne.symm hr]

/-- A bit after step 4 (R24, R116). -/
theorem written_isPending {s : State} (h : ∀ l e, s.post l = some e → latchOf e.inst = some l) {r : Reg} (h0 : r ≠ 0) :
    (written s).isPending r = true ↔ s.isPending r = true ∧ postWrites r s = 0 := by
  have hadd : (afterWriteback .mem s).post .add = s.post .add := by rw [afterWriteback_post]; rfl
  have hlog : (afterWriteback .add (afterWriteback .mem s)).post .log = s.post .log := by
    rw [afterWriteback_post, if_neg (by decide), afterWriteback_post]; rfl
  rw [written, afterWriteback_isPending_slot (by rw [hlog]; exact h .log) h0, hlog,
    afterWriteback_isPending_slot (by rw [hadd]; exact h .add) h0, hadd, afterWriteback_isPending_slot (h .mem) h0]
  simp only [State.post_mem, State.post_add, State.post_log, postWrites, Nat.add_eq_zero_iff, and_assoc]

theorem afterWriteback_zeroBit (l : PostLatch) (s : State) : (afterWriteback l s).isPending 0 = s.isPending 0 := by
  rw [afterWriteback_isPending]
  split <;> simp

theorem written_zeroBit (s : State) : (written s).isPending 0 = s.isPending 0 := by
  rw [written, afterWriteback_zeroBit, afterWriteback_zeroBit, afterWriteback_zeroBit]

section

variable {s s1 s2 s3 t : State}

/-- A bit after a cycle. -/
theorem isPending_after (c : Completed s s1 s2 s3 t) {r : Reg} (h0 : r ≠ 0) :
    t.isPending r = true ↔ s3.isPending r = true ∧ postWrites r s = 0 := by
  have hposts : postWrites r s3 = postWrites r s := by
    simp only [postWrites, c.front.postmem, c.front.postAdd, c.front.postLog]
  rw [State.isPending_congr c.rest.willwrite, written_isPending c.rest.retires h0, hposts]

/-- Steps 4 to 9 take out of flight what they write back, and nothing else that writes a register. -/
theorem writersInFlight_after (c : Completed s s1 s2 s3 t) (r : Reg) :
    t.writersInFlight r + postWrites r s = s1.writersInFlight r := by
  have f1 := c.issueFront
  have hload : slotWrites r ((s.premem.map (·.inst)).filter isLoad) = slotWrites r (s.premem.map (·.inst)) := by
    cases hm : s.premem with
    | none => rfl
    | some m =>
      rcases c.access m hm with ⟨hl, _⟩ | ⟨hl, ⟨rs1, rs2, imm, hi⟩, _⟩
      · simp [Option.filter, hl]
      · simp [Option.filter, hi, slotWrites_some, dstOf, isLoad]
  have hposts : postWrites r s1 = postWrites r s := by simp only [postWrites, f1.postmem, f1.postAdd, f1.postLog]
  have hpost : postWrites r t = slotWrites r (s.premem.map (·.inst)) + slotWrites r (s.pre.add.map (·.inst))
      + slotWrites r (s.pre.log.map (·.inst)) := by
    rw [postWrites, postmem_inst c, postAdd_inst c, postLog_inst c, hload]
  have hstg : unitWrites r t.stg = 0 := by rw [c.rest.stg]; rfl
  rw [writersInFlight_eq, writersInFlight_eq, hstg, c.pre, premem_inst c, hpost, hposts, f1.pre, f1.premem, unitWrites,
    unitWrites]
  omega

/-- R26, R127: a pending register still has a writer in flight, because a bit that stays set was not written back. -/
theorem pendingCovered_after (c : Completed s s1 s2 s3 t) {new : List Instr} (front : FrontWords s s1 s3 new)
    (hzero : t.isPending 0 = false) (hs : PendingCovered s) : PendingCovered t := by
  intro r hr
  have h0 : r ≠ 0 := by rintro rfl; rw [hzero] at hr; exact nomatch hr
  obtain ⟨hr3, hposts⟩ := (isPending_after c h0).mp hr
  have hr1 : s1.isPending r = true := by
    rcases front_isPending front.ended r with h | ⟨h, _⟩
    · rw [← h, hr3]
    · rw [hr3] at h; exact nomatch h
  have hs1 := pendingCovered_scanned c.scanned hs r hr1
  have hwriters := writersInFlight_after c r
  omega

/-- R27: exactness is kept where steps 2 and 3 leave the register's bit as issue left it. -/
theorem exact_after (c : Completed s s1 s2 s3 t) (hs : ScoreboardExact s) {r : Reg} (h0 : r ≠ 0)
    (hsame : s3.isPending r = s1.isPending r) : t.writersInFlight r = if t.isPending r then 1 else 0 := by
  have hs1 := scoreboardExact_scanned c.scanned (show ScoreboardExact (housekeeping s) from hs) r h0
  have hwriters := writersInFlight_after c r
  have hbit := isPending_after c h0
  rw [hsame] at hbit
  cases h1 : s1.isPending r with
  | false =>
    simp only [h1, Bool.false_eq_true, if_false, false_and, iff_false] at hs1 hbit
    rw [if_neg hbit]; omega
  | true =>
    simp only [h1, if_true, true_and] at hs1 hbit
    simp only [hbit]
    split <;> omega

end

/-- Settles O57: only a `jal` clears a bit without taking a writer out of flight, and without a conflict the bit it clears was
clear. -/
theorem scoreboardStaysExactWithoutJalConflict : Obligations.ScoreboardStaysExactWithoutJalConflict := by
  intro s t inv hs h hjal r h0
  obtain ⟨s1, s2, s3, c⟩ := step_completed h
  obtain ⟨new, front⟩ := Completed.frontWords c
  refine exact_after c hs h0 ?_
  rcases front_isPending front.ended r with hsame | ⟨hclear, _, imm, hfx⟩
  · exact hsame
  · have hno := hjal r imm (c.rest.fx.trans hfx) h0
    have hqueue : ∀ i ∈ s.iq, dstOf i ≠ some r := fun i hi => hno i (List.mem_append_left _ hi)
    have hflight : s.writersInFlight r = 0 := by
      by_contra hpos
      obtain ⟨i, hi, hd⟩ := (writersInFlight_pos_iff s r).mp (Nat.pos_of_ne_zero hpos)
      exact hno i (List.mem_append_right _ hi) hd
    have hwriters : s1.writersInFlight r = 0 := (writersInFlight_scanned c.scanned hqueue).trans hflight
    have hexact := scoreboardExact_scanned c.scanned (show ScoreboardExact (housekeeping s) from hs) r h0
    rw [hclear]
    cases hp : s1.isPending r with
    | false => rfl
    | true => rw [hp, hwriters] at hexact; exact nomatch hexact

/-! ### The invariant -/

theorem afterWriteback_x_zero {l : PostLatch} {s : State} (h : s.x[0] = 0) : (afterWriteback l s).x[0] = 0 := by
  unfold afterWriteback
  split
  · simpa using State.write_x_zero { s with stage := .writeback l } _ _ h
  · exact h

section

variable {s s1 s2 s3 t : State}

/-- Register 0 after a cycle (R25). -/
theorem zeroRegister_after (c : Completed s s1 s2 s3 t) {new : List Instr} (front : FrontWords s s1 s3 new)
    (h : s.x[0] = 0) : t.x[0] = 0 := by
  have h1 : s1.x[0] = 0 := by rw [show s1.x = s.x from c.issueFrame.x]; exact h
  have h3 : s3.x[0] = 0 := by
    cases front.ended with
    | stillWaits _ f | waiterResolves _ _ f | stopped _ _ f | branchWaits _ _ _ f | branchResolves _ _ _ f | brk _ _ f =>
      rw [f.x]; exact h1
    | jal _ _ f => rw [f.x]; exact State.write_x_zero _ _ _ h1
  rw [c.rest.x]
  exact afterWriteback_x_zero (afterWriteback_x_zero (afterWriteback_x_zero h3))

/-- Bit 0 after a cycle (R25). -/
theorem zeroBit_after (c : Completed s s1 s2 s3 t) {new : List Instr} (front : FrontWords s s1 s3 new)
    (h : s.isPending 0 = false) : t.isPending 0 = false := by
  have h1 : s1.isPending 0 = false := zeroBit_scanned c.scanned h
  rw [State.isPending_congr c.rest.willwrite, written_zeroBit]
  rcases front_isPending front.ended 0 with h3 | ⟨h3, _⟩
  · rw [h3, h1]
  · exact h3

/-- The queue after a cycle holds what it held and what was fetched (R32). -/
theorem queue_after (c : Completed s s1 s2 s3 t) {new : List Instr} (front : FrontWords s s1 s3 new) {i : Instr}
    (hi : i ∈ t.iq) : i ∈ s.iq ∨ (isQueued i = true ∧ ∃ w, decodeWith s.par.enc w = .ok i) := by
  rw [c.rest.iq, front.queue, List.mem_append] at hi
  rcases hi with hi | hi
  · exact .inl ((issue_queue_sublist c.issued).subset hi)
  · obtain ⟨k, hk⟩ := List.mem_iff_getElem?.mp hi
    obtain ⟨hq, hf⟩ := front.words k i hk
    exact .inr ⟨hq, _, hf.2⟩

/-- Kinds in the fetch unit's latches (R30, R31, R111): a waiting branch is a branch with `pc` at its fall-through, and what is
fetch-executed was a branch, a `jal` or a `break`; both waited before or were decoded in this cycle. -/
structure FetchKinds (s t : State) : Prop where
  waiting : ∀ b, t.wbr = some b →
    isBranch b.inst = true ∧ t.pc = nextPc b.addr ∧ (s.wbr = some b ∨ ∃ w, decodeWith s.par.enc w = .ok b.inst)
  executed : ∀ i, t.fx = some i →
    isQueued i = false ∧ ((∃ b, s.wbr = some b ∧ b.inst = i) ∨ ∃ w, decodeWith s.par.enc w = .ok i)

theorem fetchKinds_after (inv : Inv s) {q : Word} {exhausted : Prop} (h : FrontEnd s s1 s3 q exhausted) :
    FetchKinds s s3 := by
  cases h with
  | stillWaits hb f =>
    refine ⟨fun b hb' => ?_, fun i hi => nomatch f.fx.symm.trans hi⟩
    cases f.wbr.symm.trans hb'
    exact ⟨inv.waitingKind _ hb, f.pc.trans (inv.waitingFallThrough _ hb), .inl hb⟩
  | waiterResolves hb hk f =>
    refine ⟨fun b hb' => (nomatch f.wbr.symm.trans hb'), fun i hi => ?_⟩
    cases f.fx.symm.trans hi
    exact ⟨isQueued_of_isBranch hk, .inl ⟨_, hb, rfl⟩⟩
  | stopped _ _ f => exact ⟨fun b hb' => (nomatch f.wbr.symm.trans hb'), fun i hi => nomatch f.fx.symm.trans hi⟩
  | branchWaits _ hk hf f =>
    refine ⟨fun b hb' => ?_, fun i hi => nomatch f.fx.symm.trans hi⟩
    cases f.wbr.symm.trans hb'
    exact ⟨hk, f.pc, .inr ⟨_, hf.2⟩⟩
  | branchResolves _ hk hf f =>
    refine ⟨fun b hb' => (nomatch f.wbr.symm.trans hb'), fun i hi => ?_⟩
    cases f.fx.symm.trans hi
    exact ⟨isQueued_of_isBranch hk, .inr ⟨_, hf.2⟩⟩
  | jal _ hf f =>
    refine ⟨fun b hb' => (nomatch f.wbr.symm.trans hb'), fun i hi => ?_⟩
    cases f.fx.symm.trans hi
    exact ⟨rfl, .inr ⟨_, hf.2⟩⟩
  | brk _ hf f =>
    refine ⟨fun b hb' => (nomatch f.wbr.symm.trans hb'), fun i hi => ?_⟩
    cases f.fx.symm.trans hi
    exact ⟨rfl, .inr ⟨_, hf.2⟩⟩

/-- A cycle's store goes inside the image (R50, R58). -/
theorem memInside_after (c : Completed s s1 s2 s3 t) (inv : Inv s) :
    ∀ a ∈ t.mem, a.1 % 4 = 0 ∧ t.map.base ≤ a.1 ∧ a.1 < t.map.limit := by
  rw [c.map, c.mem]
  rcases stored_cases c.access with he | ⟨m, _, _, _, _, _, hw, he⟩
  · rw [he]; exact inv.memInside
  · obtain ⟨h1, h2, h3⟩ := (aligned4In_iff _ _ _).mp hw
    rw [he]
    exact Memory.writeWord_within (p := fun a => a % 4 = 0 ∧ s.map.base ≤ a ∧ a < s.map.limit) _
      ⟨h1, inv.mapLegal.baseLe.trans h2, h3⟩ inv.memInside

theorem memCanonical_after (c : Completed s s1 s2 s3 t) (inv : Inv s) : t.mem.wf = true := by
  rw [c.mem]
  rcases stored_cases c.access with he | ⟨m, _, _, _, _, _, _, he⟩
  · rw [he]; exact inv.memCanonical
  · rw [he]; exact Memory.writeWord_wf _ _ inv.memCanonical

/-- Every instruction held after a cycle was held before it or was decoded in it (R84). -/
theorem heldWellFormed_after (c : Completed s s1 s2 s3 t) {new : List Instr} (front : FrontWords s s1 s3 new) (inv : Inv s) :
    ∀ i ∈ t.held, i.wellFormed = true := by
  have old : ∀ i, i ∈ s.iq ∨ i ∈ s.inFlight ∨ (∃ b, s.wbr = some b ∧ b.inst = i) → i.wellFormed = true := fun i hi =>
    inv.heldWellFormed i (by
      rcases hi with hi | hi | ⟨b, hb, rfl⟩
      · simp [State.held, hi]
      · simp [State.held, hi]
      · simp [State.held, hb])
  have decoded : ∀ i, (∃ w, decodeWith s.par.enc w = .ok i) → i.wellFormed = true := fun i ⟨w, hw⟩ =>
    Codec.wellFormed_of_decodeWith hw
  have kinds := fetchKinds_after inv front.ended
  intro i hi
  simp only [State.held, List.mem_append, Option.mem_toList, Option.map_eq_some_iff, or_assoc] at hi
  rcases hi with hi | hi | ⟨b, hb, rfl⟩ | hi
  · rcases queue_after c front hi with hi | ⟨_, hi⟩
    · exact old i (.inl hi)
    · exact decoded i hi
  · rcases List.mem_append.mp (inFlight_after c inv.stagingEmpty hi) with hi | hi
    · exact old i (.inl hi)
    · exact old i (.inr (.inl hi))
  · rw [c.rest.wbr] at hb
    rcases (kinds.waiting b hb).2.2 with hb | hb
    · exact old _ (.inr (.inr ⟨b, hb, rfl⟩))
    · exact decoded _ hb
  · rw [c.rest.fx] at hi
    rcases (kinds.executed i hi).2 with hb | hb
    · exact old _ (.inr (.inr hb))
    · exact decoded _ hb

end

/-- Settles O56: the clauses of the invariant, each from what a cycle does to its fields. -/
theorem everyStepKeepsTheInvariant : Obligations.EveryStepKeepsTheInvariant := by
  intro s t inv h
  obtain ⟨s1, s2, s3, c⟩ := step_completed h
  obtain ⟨new, front⟩ := Completed.frontWords c
  have kinds := fetchKinds_after inv front.ended
  have zeroBit := zeroBit_after c front inv.zeroBit
  have covered : PendingCovered s := fun r hr => (writersInFlight_pos_iff s r).mpr (inv.pendingHasWriter r hr)
  exact
    { noFault := c.fault.trans inv.noFault
      haltedIff := step_halted_iff h
      resting := c.rest.stage
      stagingEmpty := c.rest.stg
      queueShort := by
        obtain ⟨_, _, _, _, _, hfour⟩ := fetchDecode_queue c.fetched
        rw [c.iq]
        exact hfour ((issue_queue_sublist c.issued).length_le.trans inv.queueShort)
      queueKinds := fun i hi => (queue_after c front hi).elim (inv.queueKinds i) And.left
      waitingKind := fun b hb => (kinds.waiting b (c.rest.wbr.symm.trans hb)).1
      waitingFallThrough := fun b hb => c.rest.pc.trans (kinds.waiting b (c.rest.wbr.symm.trans hb)).2.1
      fetchExecutedKind := fun i hi => (kinds.executed i (c.rest.fx.symm.trans hi)).1
      preKinds := fun u e he => (pre_of_queue c inv.stagingEmpty he).1
      prememKind := fun m hm => by
        obtain ⟨e, he, hi⟩ := exists_of_map_inst (premem_inst c) hm
        rw [← hi]; exact inv.preKinds .addr e he
      postmemKind := fun e he => by
        have hfilter := postmem_inst c
        rw [he, Option.map_some, eq_comm, Option.filter_eq_some_iff] at hfilter
        exact hfilter.2
      postAddKind := fun e he => by
        obtain ⟨e', he', hi⟩ := exists_of_map_inst (postAdd_inst c) he
        rw [← hi]; exact inv.preKinds .add e' he'
      postLogKind := fun e he => by
        obtain ⟨e', he', hi⟩ := exists_of_map_inst (postLog_inst c) he
        rw [← hi]; exact inv.preKinds .log e' he'
      heldWellFormed := heldWellFormed_after c front inv
      zeroRegister := zeroRegister_after c front inv.zeroRegister
      zeroBit
      pendingHasWriter := fun r hr => (writersInFlight_pos_iff t r).mp (pendingCovered_after c front zeroBit covered r hr)
      memCanonical := memCanonical_after c inv
      memInside := memInside_after c inv
      mapLegal := by rw [c.map]; exact inv.mapLegal
      encValid := by rw [c.par]; exact inv.encValid }

end Sys2Proof.Invariant
end

section
/-! How a cycle of a legal state ends (R8, R180 to R186): it completes, or the fetch side faults at a word that is no code word or
no instruction, or the memory stage faults at an access out of its range. -/

namespace Sys2Proof.CycleEnd

open Sys2Proof Sys2Proof.Machine Sys2Proof.PipelineEngine Sys2Proof.CycleLaws Sys2Proof.IssueScan Sys2Proof.FetchUnit

/-! ### The chain, from the outside -/

theorem step_of_ended {s : State} (h : ended s = true) : step s = .fault .noStep := by
  simp [step, cycleStep, h]

/-- A live core's cycle, once its issue step is known. -/
theorem step_of_issue {s s1 : State} (live : ended s = false) (h1 : issue (housekeeping s) = .next s1) :
    step s = andThen (fetchDecode s1) backEnd := by
  simp [step, cycleStep, live, h1]

theorem advance_of_fault {s : State} {r : Fault} (h : step s = .fault r) (hr : r ≠ .noStep) :
    advance s = (s.recordFault r, .fault r) := by
  unfold advance
  rw [h]
  cases r <;> first | rfl | exact absurd rfl hr

theorem stopsWith_of_step {s : State} {r : Fault} (h : step s = .fault r) (hr : r ≠ .noStep) : StopsWith s r :=
  ⟨h, advance_of_fault h hr⟩

/-- Settles O50: the guard at the head of a cycle is the only thing that runs. -/
theorem noStepAfterTheEnd : Obligations.NoStepAfterTheEnd := by
  intro s h
  have stopped : step s = .fault .noStep := step_of_ended (by simpa [ended] using h)
  exact ⟨stopped, advance_of_noStep stopped⟩

/-! ### The fetch side (R109, R114, R182, R184) -/

/-- Why the word at `a` cannot be taken: no code word there, or no instruction. -/
def FetchFails (s : State) (a : Word) (r : Fault) : Prop :=
  (s.map.fetchable a = false ∧ r = .fetchFault a) ∨
  (s.map.fetchable a = true ∧ (∃ e, decodeWith s.par.enc (s.mem.readWord a.toNat) = .error e) ∧
    r = .decodeFault a (s.mem.readWord a.toNat))

theorem fetchDecoded_of_fails {s : State} {r : Fault} : fetchDecoded s = .fault r ↔ FetchFails s s.pc r := fetchDecoded_fault

theorem fetchFails_congr {s t : State} (hmap : t.map = s.map) (hpar : t.par = s.par) (hmem : t.mem = s.mem) (a : Word)
    (r : Fault) : FetchFails t a r ↔ FetchFails s a r := by
  rw [FetchFails, FetchFails, hmap, hpar, hmem]

theorem ne_noStep_of_fails {s : State} {a : Word} {r : Fault} (h : FetchFails s a r) : r ≠ .noStep := by
  rcases h with ⟨_, rfl⟩ | ⟨_, _, rfl⟩ <;> exact nofun

/-- A word is taken or it is not. -/
theorem fetchDecoded_outcome (s : State) : (∃ i, fetchDecoded s = .next i) ∨ ∃ r, fetchDecoded s = .fault r := by
  cases hf : s.map.fetchable s.pc with
  | false => exact .inr ⟨_, fetchDecoded_of_fails.mpr (.inl ⟨hf, rfl⟩)⟩
  | true =>
    cases hd : decodeWith s.par.enc (s.mem.readWord s.pc.toNat) with
    | ok i => exact .inl ⟨i, fetchDecoded_next.mpr ⟨hf, hd⟩⟩
    | error e => exact .inr ⟨_, fetchDecoded_of_fails.mpr (.inr ⟨hf, ⟨e, hd⟩, rfl⟩)⟩

theorem fetchSlots_of_full {n : Nat} {s : State} (h : queueFull s = true) : fetchSlots n s = .next s := by
  cases n <;> simp [fetchSlots, h]

theorem fetchSlots_of_fails {n : Nat} {s : State} {r : Fault} (hq : queueFull s = false) (h : FetchFails s s.pc r) :
    fetchSlots (n + 1) s = .fault r := by
  simp [fetchSlots, hq, fetchDecoded_of_fails.mpr h]

/-- A fetch slot that takes the word `i` goes on by what `i` does at fetch. -/
theorem fetchSlots_of_fetches {n : Nat} {s : State} {i : Instr} (hq : queueFull s = false) (h : FetchesAt s s.pc i) :
    fetchSlots (n + 1) s = andThen (serve .fetch i s) fun t => if isQueued i then fetchSlots n t else .next t := by
  simp [fetchSlots, hq, fetchDecoded_next.mpr h]

theorem fetchSlots_of_queued {n : Nat} {s : State} {i : Instr} (hq : queueFull s = false) (h : FetchesAt s s.pc i)
    (hi : isQueued i = true) :
    fetchSlots (n + 1) s = fetchSlots n { s with stage := .fetch, iq := s.iq ++ [i], pc := nextPc s.pc } := by
  rw [fetchSlots_of_fetches hq h, serve_fetch_of_isQueued hi, andThen_next, if_pos hi]

/-- A word that does not go to the queue ends the fetching, which then completes. -/
theorem fetchSlots_of_not_queued {n : Nat} {s : State} {i : Instr} (hq : queueFull s = false) (h : FetchesAt s s.pc i)
    (hi : isQueued i = false) : ∃ t, fetchSlots (n + 1) s = .next t := by
  obtain ⟨t, ht⟩ := serve_fetch_total i s
  exact ⟨t, by rw [fetchSlots_of_fetches hq h, ht, andThen_next, hi]; rfl⟩

/-- The fetch loop completes or faults at a word it came to; where code words go on to code words until a `break`, that word
is a code word. -/
theorem fetchSlots_outcome (n : Nat) (s : State) :
    (∃ t, fetchSlots n s = .next t) ∨ ∃ a r, fetchSlots n s = .fault r ∧ FetchFails s a r ∧
      ((∀ a i, FetchesAt s a i → isQueued i = true → s.map.fetchable (nextPc a) = true) → s.map.fetchable s.pc = true →
        s.map.fetchable a = true) := by
  induction n generalizing s with
  | zero => exact .inl ⟨s, rfl⟩
  | succ n ih =>
    cases hq : queueFull s with
    | true => exact .inl ⟨s, fetchSlots_of_full hq⟩
    | false =>
      rcases fetchDecoded_outcome s with ⟨i, hi⟩ | ⟨r, hr⟩
      · replace hi : FetchesAt s s.pc i := fetchDecoded_next.mp hi
        cases hk : isQueued i with
        | false => exact .inl (fetchSlots_of_not_queued hq hi hk)
        | true =>
          rw [fetchSlots_of_queued hq hi hk]
          exact (ih _).imp id fun ⟨a, r, hr, hf, hcode⟩ => ⟨a, r, hr, hf, fun hstays _ => hcode hstays (hstays _ i hi hk)⟩
      · exact .inr ⟨s.pc, r, fetchSlots_of_fails hq (fetchDecoded_of_fails.mp hr), fetchDecoded_of_fails.mp hr, fun _ h => h⟩

/-- Settles O49: the fetch slot that comes to the bad word stops the cycle, before any later step. -/
theorem fetchSideFaultsStopTheCycle : Obligations.FetchSideFaultsStopTheCycle := by
  intro s s1 hhalt hfault hn h1 hlen wordAt
  have f1 := (issue_next h1).frame
  have live : ended s = false := ended_eq_false.mpr ⟨hhalt, hfault⟩
  have hn1 : s1.wbr = none := f1.wbr.trans hn
  have hq : queueFull s1 = false := decide_eq_false (Nat.not_le.mpr hlen)
  have fails : ∀ {a r}, FetchFails s1 a r ↔ FetchFails s a r := fetchFails_congr f1.map f1.par f1.mem _ _
  have fetches : ∀ {a i}, FetchesAt s1 a i ↔ FetchesAt s a i := fetchesAt_congr f1.map f1.par f1.mem _ _
  have hpc : s1.pc = s.pc := f1.pc
  have outside : ∀ {a}, ¬s.map.CodeAddress a → FetchFails s a (.fetchFault a) := fun ha =>
    .inl ⟨Bool.eq_false_iff.mpr fun h => ha ((aligned4In_iff _ _ _).mp h), rfl⟩
  have undecodable : ∀ {a e}, s.map.CodeAddress a → decodeWith s.par.enc (wordAt a) = .error e →
      FetchFails s a (.decodeFault a (wordAt a)) := fun ha he => .inr ⟨(aligned4In_iff _ _ _).mpr ha, ⟨_, he⟩, rfl⟩
  have stops : ∀ {a r}, FetchFails s a r → fetchSlots 2 s1 = .fault r → StopsWith s r := fun hf h2 =>
    stopsWith_of_step (by rw [step_of_issue live h1, fetchDecode_of_not_waiting hn1, h2]; rfl) (ne_noStep_of_fails hf)
  have first : ∀ {r}, FetchFails s s.pc r → StopsWith s r := fun hf =>
    stops hf (fetchSlots_of_fails hq (by rw [hpc]; exact fails.mpr hf))
  refine ⟨fun ha => first (outside ha), fun e ha he => first (undecodable ha he), fun i ha hi hk hlen => ?_⟩
  have second : ∀ {r}, FetchFails s (s.pc + 4) r → StopsWith s r := fun hf => by
    refine stops hf ?_
    rw [fetchSlots_of_queued hq (by rw [hpc]; exact fetches.mpr ⟨(aligned4In_iff _ _ _).mpr ha, hi⟩) hk]
    refine fetchSlots_of_fails ?_ ?_
    · simp only [queueFull, List.length_append, List.length_singleton, Config.iqDepth, decide_eq_false_iff_not]; omega
    · show FetchFails s1 (nextPc s1.pc) _
      rw [hpc]; exact fails.mpr hf
  exact ⟨fun ha => second (outside ha), fun e ha he => second (undecodable ha he)⟩

/-! ### Steps 3 to 9 -/

/-- The latches hold what their stages can run, and only branches wait (R30, R35 to R38). -/
structure Runnable (s : State) : Prop where
  waiting : ∀ b, s.wbr = some b → isBranch b.inst = true
  posts : ∀ l e, s.post l = some e → latchOf e.inst = some l
  premem : ∀ m, s.premem = some m → unitOf m.inst = some .addr
  pre : ∀ u e, s.pre.get u = some e → unitOf e.inst = some u

/-- What a load or a store is checked against (R57, R58). -/
def Accessible (p : MemMap) (m : MemEntry) : Prop :=
  if isLoad m.inst then p.readable m.addr = true else p.writable m.addr = true

theorem accessible_iff_inRange (p : MemMap) (m : MemEntry) : Accessible p m ↔ p.InRange m := by
  unfold Accessible MemMap.InRange
  split <;> exact aligned4In_iff _ _ _

/-- The kind of a load's or a store's access (R183). -/
def accessKind (m : MemEntry) : Access := if isLoad m.inst then .read else .write

/-- No meaning declines, so handing an instruction to its meaning answers a state or a fault. -/
theorem serve_outcome (p : Stage) (i : Instr) (s : State) : (∃ t, serve p i s = .next t) ∨ ∃ r, serve p i s = .fault r := by
  cases h : serve p i s with
  | next t => exact .inl ⟨t, rfl⟩
  | fault r => exact .inr ⟨r, rfl⟩
  | refused r => exact absurd h (serve_ne_refused p i s r)

theorem branchStage_total {s : State} (h : Runnable s) : ∃ t, branchStage s = .next t := by
  unfold branchStage
  cases hb : s.wbr with
  | none => exact ⟨s, rfl⟩
  | some b =>
    cases hr : branchReady s b.inst with
    | false => exact ⟨s, by simp [hr]⟩
    | true =>
      obtain ⟨t, ht⟩ := serve_resolve_total (h.waiting b hb) (s := s) (by rw [hb]; rfl)
      exact ⟨t, by simp [hr, ht]⟩

theorem writebackLatch_total {l : PostLatch} {s : State} (h : ∀ e, s.post l = some e → latchOf e.inst = some l) :
    ∃ t, writebackLatch l s = .next t := by
  unfold writebackLatch
  cases hp : s.post l with
  | none => exact ⟨s, rfl⟩
  | some e => exact serve_writeback_total (h e hp) (by rw [hp]; rfl)

theorem writeback_total {s : State} (h : ∀ l e, s.post l = some e → latchOf e.inst = some l) :
    ∃ t, writeback s = .next t := by
  obtain ⟨a, ha⟩ := writebackLatch_total (h .mem)
  have ea := (writebackLatch_next ha).1
  obtain ⟨b, hb⟩ := writebackLatch_total (l := .add) (s := a) (by
    rw [ea, afterWriteback_post, if_neg (by decide)]; exact h .add)
  have eb := (writebackLatch_next hb).1
  obtain ⟨t, ht⟩ := writebackLatch_total (l := .log) (s := b) (by
    rw [eb, afterWriteback_post, if_neg (by decide), ea, afterWriteback_post, if_neg (by decide)]; exact h .log)
  exact ⟨t, by simp [writeback, ha, hb, ht]⟩

/-- Step 5 completes exactly if the access is in its range, and otherwise faults by its name (R117, R183). -/
theorem memoryStage_total {s : State} (hk : ∀ m, s.premem = some m → unitOf m.inst = some .addr)
    (h : ∀ m, s.premem = some m → Accessible s.map m) : ∃ t, memoryStage s = .next t := by
  unfold memoryStage
  cases hm : s.premem with
  | none => exact ⟨s, rfl⟩
  | some m =>
    have hacc := h m hm
    unfold Accessible at hacc
    rcases serve_outcome .memory m.inst s with ht | ⟨r, hr⟩
    · exact ht
    · rcases serve_memory_fault (hk m hm) hm hr with ⟨hl, hno, _⟩ | ⟨hl, hno, _⟩
      · rw [if_pos hl, hno] at hacc; exact nomatch hacc
      · rw [hl, if_neg Bool.false_ne_true, hno] at hacc; exact nomatch hacc

theorem memoryStage_memFault {s : State} {m : MemEntry} (hm : s.premem = some m) (hk : unitOf m.inst = some .addr)
    (h : ¬Accessible s.map m) : memoryStage s = .fault (.memFault m.addr (accessKind m)) := by
  unfold memoryStage
  rw [hm]
  unfold Accessible at h
  rcases serve_outcome .memory m.inst s with ⟨t, ht⟩ | ⟨r, hr⟩
  · obtain ⟨m', hm', hc⟩ := serve_memory_next ht
    rw [hm] at hm'; cases hm'
    rcases hc with ⟨hl, hr, _⟩ | ⟨hl, _, hw, _⟩
    · exact absurd hr (by simpa [hl] using h)
    · exact absurd hw (by simpa [hl] using h)
  · rcases serve_memory_fault hk hm hr with ⟨hl, _, rfl⟩ | ⟨hl, _, rfl⟩
    · simpa [accessKind, hl] using hr
    · simpa [accessKind, hl] using hr

theorem executeUnit_total {u : Alu} {s : State} (h : ∀ e, s.pre.get u.unit = some e → unitOf e.inst = some u.unit) :
    ∃ t, executeUnit u s = .next t := by
  unfold executeUnit
  cases hp : s.pre.get u.unit with
  | none => exact ⟨s, rfl⟩
  | some e => exact serve_execute_total (h e hp) (by rw [hp]; rfl)

theorem execute_total {s : State} (h : ∀ u e, s.pre.get u = some e → unitOf e.inst = some u) : ∃ t, execute s = .next t := by
  obtain ⟨a, ha⟩ := executeUnit_total (u := .log) (s := s) (h .log)
  have hadd : a.pre.add = s.pre.add := by
    rcases executeUnit_next ha with ⟨_, rfl⟩ | ⟨_, _, _, _, _, rfl⟩ <;> rfl
  obtain ⟨t, ht⟩ := executeUnit_total (u := .add) (s := a) (fun e he => h .add e (hadd.symm.trans he))
  exact ⟨t, by simp [execute, ha, ht]⟩

theorem addressAdvance_total {s : State} (h : ∀ e, s.pre.addr = some e → unitOf e.inst = some .addr) :
    ∃ t, addressAdvance s = .next t := by
  unfold addressAdvance
  cases hp : s.pre.addr with
  | none => exact ⟨s, rfl⟩
  | some e => exact serve_advance_total (h e hp) (by rw [hp]; rfl)

/-- Steps 3 and 4 complete, and leave the pre and pre-memory latches and the map to step 5. -/
theorem before_memoryStage {s : State} (h : Runnable s) : ∃ s3 s4, branchStage s = .next s3 ∧ writeback s3 = .next s4 ∧
    s4.premem = s.premem ∧ s4.pre = s.pre ∧ s4.map = s.map := by
  obtain ⟨s3, h3⟩ := branchStage_total h
  have f3 := branchStage_frame h3
  have hposts : ∀ l, s3.post l = s.post l := by
    rintro (_ | _ | _)
    exacts [f3.postmem, f3.postAdd, f3.postLog]
  obtain ⟨s4, h4⟩ := writeback_total (s := s3) (fun l e he => h.posts l e ((hposts l).symm.trans he))
  have f4 := writeback_frame h4
  exact ⟨s3, s4, h3, h4, f4.premem.trans f3.premem, f4.pre.trans f3.pre, f4.map.trans f3.map⟩

/-- From latches of the right kinds the later steps complete if the pre-memory latch's access is in its range. -/
theorem backEnd_total {s : State} (h : Runnable s) (hacc : ∀ m, s.premem = some m → Accessible s.map m) :
    ∃ t, backEnd s = .next t := by
  obtain ⟨s3, s4, h3, h4, hpremem, hpre, hmap⟩ := before_memoryStage h
  obtain ⟨s5, h5⟩ := memoryStage_total (s := s4) (by rw [hpremem]; exact h.premem) (by rw [hpremem, hmap]; exact hacc)
  have hpre5 : s5.pre = s.pre := (memoryStage_frame h5).pre.trans hpre
  obtain ⟨s6, h6⟩ := execute_total (s := s5) (by rw [hpre5]; exact h.pre)
  have hpre6 : s6.pre.addr = s.pre.addr := by rw [(execute_next h6).1.preAddr, hpre5]
  obtain ⟨s7, h7⟩ := addressAdvance_total (s := s6) (by rw [hpre6]; exact h.pre .addr)
  obtain ⟨t, h8⟩ := terminationTest_total (rotate s7)
  exact ⟨t, by simp [backEnd, h3, h4, h5, h6, h7, h8]⟩

/-- And otherwise they end in its `MemFault`. -/
theorem backEnd_memFault {s : State} (h : Runnable s) {m : MemEntry} (hm : s.premem = some m) (hacc : ¬Accessible s.map m) :
    backEnd s = .fault (.memFault m.addr (accessKind m)) := by
  obtain ⟨s3, s4, h3, h4, hpremem, _, hmap⟩ := before_memoryStage h
  have h5 := memoryStage_memFault (hpremem.trans hm) (h.premem m hm) (by rw [hmap]; exact hacc)
  simp [backEnd, h3, h4, h5]

/-! ### A cycle of a legal state -/

theorem issueScan_total {sc : Scan} {s : State} {es : List Instr} (h : ∀ i ∈ es, isQueued i = true) :
    ∃ t, issueScan sc s es = .next t := by
  induction es generalizing sc s with
  | nil => exact ⟨_, rfl⟩
  | cons i es ih =>
    have hes : ∀ j ∈ es, isQueued j = true := fun j hj => h j (List.mem_cons_of_mem _ hj)
    unfold issueScan
    split
    · exact ih hes
    · obtain ⟨t, ht⟩ := serve_issue_total (h i List.mem_cons_self) s
      rw [ht, andThen_next]
      exact ih hes

theorem latchOf_of_isLoad {i : Instr} (h : isLoad i = true) : latchOf i = some .mem := by
  cases i <;> first | rfl | exact nomatch h

theorem latchOf_of_unitOf {i : Instr} {u : Alu} (h : unitOf i = some u.unit) : latchOf i = some u.post := by
  cases u <;> simp [latchOf, h]

/-- The fetch step keeps the latches' kinds, and lets only branches wait. -/
theorem runnable_after_fetch {s s1 s2 : State} (inv : Inv s) (h1 : issue (housekeeping s) = .next s1)
    (h2 : fetchDecode s1 = .next s2) : Runnable s2 := by
  have f1 := (issue_next h1).frame
  have f2 := fetchDecode_frame h2
  refine ⟨fun b hb => ?_, ?_, ?_, ?_⟩
  · rcases fetchDecode_words h2 with ⟨_, rfl⟩ | ⟨hn, new, hnew⟩
    · exact inv.waitingKind b (f1.wbr.symm.trans hb)
    · cases hnew.ended with
      | stopped _ f | jal _ f | brk _ f => exact nomatch (f.wbr.trans hn).symm.trans hb
      | branch hk _ f => cases f.wbr.symm.trans hb; exact hk
  · rintro (_ | _ | _) e he
    · exact latchOf_of_isLoad (inv.postmemKind e ((f2.postmem.trans f1.postmem).symm.trans he))
    · exact latchOf_of_unitOf (u := .add) (inv.postAddKind e ((f2.postAdd.trans f1.postAdd).symm.trans he))
    · exact latchOf_of_unitOf (u := .log) (inv.postLogKind e ((f2.postLog.trans f1.postLog).symm.trans he))
  · rw [f2.premem, f1.premem]; exact inv.prememKind
  · rw [f2.pre, f1.pre]; exact inv.preKinds

/-- How a live legal state's cycle begins: issue completes, and then the fetch step faults, or completes and leaves the later
steps everything they need. -/
theorem legal_cycle_cases {s : State} (inv : Inv s) (live : s.halted = false) :
    ∃ s1, issue (housekeeping s) = .next s1 ∧
      ((∃ s2, fetchDecode s1 = .next s2 ∧ Runnable s2 ∧ s2.premem = s.premem ∧ s2.map = s.map ∧ step s = backEnd s2) ∨
        (s.wbr = none ∧ ∃ r, fetchSlots 2 s1 = .fault r ∧ step s = .fault r)) := by
  have alive : ended s = false := ended_eq_false.mpr ⟨live, inv.noFault⟩
  obtain ⟨s1, h1⟩ : ∃ s1, issue (housekeeping s) = .next s1 := issueScan_total inv.queueKinds
  have f1 := (issue_next h1).frame
  have hstep := step_of_issue alive h1
  refine ⟨s1, h1, ?_⟩
  have completes : ∀ s2, fetchDecode s1 = .next s2 →
      ∃ s2, fetchDecode s1 = .next s2 ∧ Runnable s2 ∧ s2.premem = s.premem ∧ s2.map = s.map ∧ step s = backEnd s2 :=
    fun s2 h2 => by
      have f2 := fetchDecode_frame h2
      exact ⟨s2, h2, runnable_after_fetch inv h1 h2, f2.premem.trans f1.premem, f2.map.trans f1.map,
        by rw [hstep, h2, andThen_next]⟩
  cases hb : s1.wbr with
  | some b => exact .inl (completes s1 (fetchDecode_of_waiting hb))
  | none =>
    have hslots := fetchDecode_of_not_waiting hb
    rcases fetchSlots_outcome 2 s1 with ⟨s2, h2⟩ | ⟨a, r, hr, _⟩
    · exact .inl (completes s2 (hslots.trans h2))
    · exact .inr ⟨f1.wbr.symm.trans hb, r, hr, by rw [hstep, hslots, hr, andThen_fault]⟩

/-- Settles O51: the two ways the fetch side faults, the one way the memory stage does, and no other. -/
theorem legalStatesStepOrFaultByName : Obligations.LegalStatesStepOrFaultByName := by
  intro s inv live
  obtain ⟨s1, _, ⟨s2, _, run, _, _, hstep⟩ | ⟨_, r, hr, hstep⟩⟩ := legal_cycle_cases inv live
  · rw [hstep]
    by_cases hacc : ∀ m, s2.premem = some m → Accessible s2.map m
    · exact .inl (backEnd_total run hacc)
    · push Not at hacc
      obtain ⟨m, hm, hno⟩ := hacc
      exact .inr (.inr (.inl ⟨_, _, backEnd_memFault run hm hno⟩))
  · rw [hstep]
    rcases fetchSlots_fault hr with ⟨a, rfl⟩ | ⟨a, w, rfl⟩
    · exact .inr (.inr (.inr ⟨a, rfl⟩))
    · exact .inr (.inl ⟨a, w, rfl⟩)

theorem step_halted_ne_memFault {s : State} (h : s.halted = true) (a : Word) (k : Access) :
    step s ≠ .fault (.memFault a k) := by
  rw [step_of_halted h]; exact nofun

/-- Settles O52: of a cycle's steps only the memory stage raises a `MemFault`, and it looks at the pre-memory latch. -/
theorem memFaultsComeFromThePreMemoryLatch : Obligations.MemFaultsComeFromThePreMemoryLatch := by
  intro s inv
  constructor
  · intro a k h
    have live : s.halted = false := by
      cases hh : s.halted with
      | false => rfl
      | true => exact absurd h (step_halted_ne_memFault hh a k)
    obtain ⟨s1, _, ⟨s2, _, run, hpremem, hmap, hstep⟩ | ⟨_, r, hr, hstep⟩⟩ := legal_cycle_cases inv live
    · rw [hstep] at h
      by_cases hacc : ∀ m, s2.premem = some m → Accessible s2.map m
      · obtain ⟨t, ht⟩ := backEnd_total run hacc
        rw [ht] at h; exact nomatch h
      · push Not at hacc
        obtain ⟨m, hm, hno⟩ := hacc
        rw [backEnd_memFault run hm hno] at h
        cases h
        exact ⟨m, hpremem.symm.trans hm, rfl, rfl, by rwa [accessible_iff_inRange, hmap] at hno⟩
    · rw [hstep] at h
      cases h
      rcases fetchSlots_fault hr with ⟨_, hc⟩ | ⟨_, _, hc⟩ <;> exact nomatch hc
  · intro s1 s2 m live h1 h2 hm hno
    have alive : ended s = false := ended_eq_false.mpr ⟨live, inv.noFault⟩
    have f1 := (issue_next h1).frame
    have f2 := fetchDecode_frame h2
    have run := runnable_after_fetch inv h1 h2
    have hm2 : s2.premem = some m := (f2.premem.trans f1.premem).trans hm
    have hmap : s2.map = s.map := f2.map.trans f1.map
    rw [← accessible_iff_inRange, ← hmap] at hno
    refine stopsWith_of_step ?_ nofun
    rw [step_of_issue alive h1, h2, andThen_next]
    exact backEnd_memFault run hm2 hno

/-! ### Staying in the code region (R53, R184) -/

section Code

variable {s : State} (inv : Inv s) (code : CodeEndsInBreak s)
include inv code

/-- A code word that is no `break` is not the last, so the next word is a code word too. -/
theorem fetchable_next {a : Word} {i : Instr} (h : FetchesAt s a i) (hi : i ≠ .brk) : s.map.fetchable (nextPc a) = true := by
  obtain ⟨hf, hd⟩ := h
  obtain ⟨ha, hlo, hhi⟩ := (aligned4In_iff _ _ _).mp hf
  have legal := inv.mapLegal
  have hboundary := legal.boundaryAligned
  have hle := legal.boundaryLe
  have hlimit := legal.limitLe
  obtain ⟨_, hbreak⟩ := code
  have hlast : a.toNat ≠ s.map.boundary - 4 := by
    intro hc
    rw [← hc, Storage.isBreakWord_iff inv.encValid, hd] at hbreak
    exact hi (Except.ok.inj hbreak)
  have hnext : (nextPc a).toNat = a.toNat + 4 := by
    rw [nextPc, BitVec.toNat_add]
    exact Nat.mod_eq_of_lt (by show a.toNat + 4 < _; omega)
  exact (aligned4In_iff _ _ _).mpr (by omega)

theorem fetchable_next_of_queued : ∀ a i, FetchesAt s a i → isQueued i = true → s.map.fetchable (nextPc a) = true := by
  intro a i h hq
  exact fetchable_next inv code h (by rintro rfl; exact nomatch hq)

/-- In the code region every fault of the fetch step is a word that is no instruction. -/
theorem fetchSlots_fault_in_code {s1 : State} (h1 : issue (housekeeping s) = .next s1) (hpc : s.map.fetchable s.pc = true)
    {r : Fault} (hr : fetchSlots 2 s1 = .fault r) : ∃ a, s.map.fetchable a = true ∧
      (∃ e, decodeWith s.par.enc (s.mem.readWord a.toNat) = .error e) ∧ r = .decodeFault a (s.mem.readWord a.toNat) := by
  have f1 := (issue_next h1).frame
  have hmap : s1.map = s.map := f1.map
  have fails : ∀ a r, FetchFails s1 a r ↔ FetchFails s a r := fetchFails_congr f1.map f1.par f1.mem
  have fetches : ∀ a i, FetchesAt s1 a i ↔ FetchesAt s a i := fetchesAt_congr f1.map f1.par f1.mem
  rcases fetchSlots_outcome 2 s1 with ⟨t, ht⟩ | ⟨a, r', hr', hf, hcode⟩
  · rw [hr] at ht; exact nomatch ht
  · rw [hr] at hr'; cases hr'
    simp only [fetches, hmap, show s1.pc = s.pc from f1.pc] at hcode
    have ha := hcode (fetchable_next_of_queued inv code) hpc
    rcases (fails a r).mp hf with ⟨hno, _⟩ | h
    · rw [ha] at hno; exact nomatch hno
    · exact ⟨a, h⟩

omit inv code in
theorem nextPc_wordAfter (a : Word) (k : Nat) : nextPc (wordAfter a k) = wordAfter a (k + 1) := by
  simp only [wordAfter, nextPc, BitVec.add_assoc, BitVec.ofNat_add, BitVec.mul_add]
  rfl

/-- The words that a cycle takes lie in the code region, and so does the one after them. -/
theorem fetchable_after_words {new : List Instr} (hpc : s.map.fetchable s.pc = true)
    (words : ∀ (k : Nat) (i : Instr), new[k]? = some i → isQueued i = true ∧ FetchesAt s (wordAfter s.pc k) i) :
    s.map.fetchable (wordAfter s.pc new.length) = true := by
  have upTo : ∀ k, k ≤ new.length → s.map.fetchable (wordAfter s.pc k) = true := by
    intro k hk
    cases k with
    | zero => rw [wordAfter_zero]; exact hpc
    | succ k =>
      obtain ⟨hq, hf⟩ := words k new[k] (List.getElem?_eq_getElem hk)
      rw [← nextPc_wordAfter]
      exact fetchable_next_of_queued inv code _ _ hf hq
  exact upTo _ le_rfl

end Code

/-- Settles O54: in the code region a fetch fault would have to be at a code word, and only a redirect leaves it. -/
theorem onlyTransfersLeaveTheCodeRegion : Obligations.OnlyTransfersLeaveTheCodeRegion := by
  intro s inv code hpc
  constructor
  · intro a h
    cases hh : s.halted with
    | true => rw [step_of_halted hh] at h; exact nomatch h
    | false =>
      obtain ⟨s1, h1, ⟨s2, _, run, _, _, hstep⟩ | ⟨_, r, hr, hstep⟩⟩ := legal_cycle_cases inv hh
      · rw [hstep] at h
        by_cases hacc : ∀ m, s2.premem = some m → Accessible s2.map m
        · obtain ⟨t, ht⟩ := backEnd_total run hacc
          rw [ht] at h; exact nomatch h
        · push Not at hacc
          obtain ⟨m, hm, hno⟩ := hacc
          rw [backEnd_memFault run hm hno] at h; exact nomatch h
      · obtain ⟨_, _, _, rfl⟩ := fetchSlots_fault_in_code inv code h1 hpc hr
        rw [hstep] at h; exact nomatch h
  · intro t h
    obtain ⟨s1, s2, s3, c⟩ := step_completed h
    obtain ⟨new, front⟩ := Completed.frontWords c
    have hq := fetchable_after_words inv code hpc front.words
    rw [c.map, c.rest.pc, c.rest.fx]
    cases front.ended with
    | stillWaits _ f => left; rw [f.pc]; exact hpc
    | waiterResolves _ hk f => exact .inr ⟨_, f.fx, .inl hk⟩
    | stopped _ _ f => left; rw [f.pc]; exact hq
    | branchWaits _ hk hf f =>
      left; rw [f.pc]
      exact fetchable_next inv code hf (by rintro rfl; exact nomatch hk)
    | branchResolves _ hk _ f => exact .inr ⟨_, f.fx, .inl hk⟩
    | jal _ _ f => exact .inr ⟨_, f.fx, .inr ⟨_, _, rfl⟩⟩
    | brk _ _ f => left; rw [f.pc]; exact hq

/-- Settles O53: neither the fetch side nor the memory stage has a reason to fault. -/
theorem legalStatesCompleteWhenTheContractHolds : Obligations.LegalStatesCompleteWhenTheContractHolds := by
  intro s inv live code hpc decodes access
  obtain ⟨s1, h1, ⟨s2, _, run, hpremem, hmap, hstep⟩ | ⟨_, r, hr, hstep⟩⟩ := legal_cycle_cases inv live
  · rw [hstep]
    exact backEnd_total run (by rw [hpremem, hmap]; exact access)
  · obtain ⟨a, ha, ⟨e, he⟩, _⟩ := fetchSlots_fault_in_code inv code h1 hpc hr
    obtain ⟨i, hi⟩ := decodes a ha
    rw [he] at hi; exact nomatch hi

end Sys2Proof.CycleEnd
end

section
/-! What an instruction does at the stage its cursor names (R104 to R122, R140 to R174), said once, and from it the statements
about each unit's instructions and their frames. -/

namespace Sys2Proof.StageActions

open Sys2Proof Sys2Proof.Machine Sys2Proof.PipelineEngine Sys2Proof.CycleLaws Sys2Proof.FetchUnit

/-! ### Every action of every stage -/

theorem withStage_self {s : State} {p : Stage} (h : s.stage = p) : { s with stage := p } = s := by
  subst h; rfl

/-- The displacement of a load or a store (R60). -/
def HasDisplacement (i : Instr) (imm : Word) : Prop :=
  (∃ rd rs1, i = .lw rd rs1 imm) ∨ ∃ rs1 rs2, i = .sw rs1 rs2 imm

/-- The third is the state that the instruction leaves when it acts on the second: one action for each kind of instruction and
stage on its path. -/
inductive Acts (i : Instr) (s : State) : State → Prop
  | queued : s.stage = .fetch → isQueued i = true → Acts i s { s with iq := s.iq ++ [i], pc := nextPc s.pc }
  | latched : s.stage = .fetch → isBranch i = true → Acts i s { s with wbr := some ⟨i, s.pc⟩, pc := nextPc s.pc }
  | linked {rd : Reg} {imm : Word} : s.stage = .fetch → i = .jal rd imm →
      Acts i s { s.write rd (nextPc s.pc) with
        pc := jalTarget s.par.jalBaseOffset s.pc imm, fx := some (.jal rd imm) }
  | recorded : s.stage = .fetch → i = .brk → Acts i s { s with fx := some .brk }
  | issued {u : FU} : s.stage = .issue → unitOf i = some u →
      Acts i s { s with
        stg := s.stg.set u (some ⟨i, (capturedOperands i s).1, (capturedOperands i s).2⟩)
        willwrite := s.willwrite ||| dstMask i }
  | resolved {b : BranchEntry} : s.stage = .resolve → isBranch i = true → s.wbr = some b →
      Acts i s { s with pc := branchPc s b.addr s.pc i, wbr := none, fx := some i }
  | retired {l : PostLatch} {rd : Reg} {e : ResEntry} : s.stage = .writeback l → latchOf i = some l →
      dstOf i = some rd → s.post l = some e → Acts i s ((s.write rd e.result).setPost l none)
  | executed {u : Alu} {e : OpEntry} {v : Word} : s.stage = .execute u → unitOf i = some u.unit →
      s.pre.get u.unit = some e → aluTable s.par.shamtBits i e.a e.b = some v →
      Acts i s (State.setPost { s with pre := s.pre.set u.unit none } u.post (some ⟨i, v⟩))
  | advanced {imm : Word} {e : OpEntry} : s.stage = .advance → HasDisplacement i imm → s.pre.addr = some e →
      Acts i s { s with pre := s.pre.set .addr none, premem := some ⟨i, e.a + imm, e.b⟩ }
  | loads {m : MemEntry} : s.stage = .memory → isLoad i = true → s.premem = some m → s.map.readable m.addr = true →
      Acts i s { s with premem := none, postmem := some ⟨i, s.mem.readWord m.addr.toNat⟩ }
  | stores {m : MemEntry} {rs1 rs2 : Reg} {imm : Word} : s.stage = .memory → i = .sw rs1 rs2 imm → s.premem = some m →
      s.map.writable m.addr = true → Acts i s { s with premem := none, mem := s.mem.writeWord m.addr.toNat m.val }
  | halts : s.stage = .finish → i = .brk → Acts i s { s with halted := true }

theorem unitOf_addr_iff (i : Instr) : unitOf i = some .addr ↔ ∃ imm, HasDisplacement i imm := by
  cases i <;> simp [unitOf, HasDisplacement]

theorem isLoad_iff (i : Instr) : isLoad i = true ↔ ∃ rd rs1 imm, i = .lw rd rs1 imm := by
  cases i <;> simp [isLoad, unitOf, dstOf]

/-- Whatever completes is one of the actions. -/
theorem acts_of_exec {i : Instr} {s t : State} (h : exec i s = .next t) : Acts i s t := by
  cases hp : s.stage with
  | fetch =>
    have self := withStage_self hp
    rw [exec_eq_serve hp] at h
    rcases serve_fetch_next h with ⟨hq, rfl⟩ | ⟨hb, rfl⟩ | ⟨rd, imm, rfl, rfl⟩ | ⟨rfl, rfl⟩
    · rw [← hp]; exact .queued hp hq
    · rw [← hp]; exact .latched hp hb
    · rw [self]; exact .linked hp rfl
    · rw [← hp]; exact .recorded hp rfl
  | issue =>
    rw [exec_eq_serve hp] at h
    obtain ⟨u, hu, rfl⟩ := serve_issue_next h
    rw [← hp]; exact .issued hp hu
  | resolve =>
    rw [exec_eq_serve hp] at h
    obtain ⟨hb, b, _, hw, _⟩ := serve_resolve_next h
    rw [serve_resolve_eq hb hw] at h
    cases h
    rw [← hp]; exact .resolved hp hb hw
  | writeback l =>
    rw [exec_eq_serve hp] at h
    obtain ⟨hl, rd, e, hd, he, rfl⟩ := serve_writeback_next h
    rw [withStage_self hp]; exact .retired hp hl hd he
  | memory =>
    rw [exec_eq_serve hp] at h
    obtain ⟨m, hm, ⟨hl, hr, rfl⟩ | ⟨_, ⟨_, _, _, hi⟩, hw, rfl⟩⟩ := serve_memory_next h
    · rw [← hp]; exact .loads hp hl hm hr
    · rw [← hp]; exact .stores hp hi hm hw
  | execute u =>
    rw [exec_eq_serve hp] at h
    obtain ⟨hu, e, v, he, hv, rfl⟩ := serve_execute_next h
    rw [← hp]; exact .executed hp hu he hv
  | advance =>
    rw [exec_eq_serve hp] at h
    obtain ⟨hu, e, ⟨j, a, v⟩, he, rfl, rfl, ha, rfl⟩ := serve_advance_next h
    obtain ⟨imm, hi⟩ := (unitOf_addr_iff _).mp hu
    obtain rfl : a = e.a + imm := by
      rcases hi with ⟨rd, rs1, rfl⟩ | ⟨rs1, rs2, rfl⟩
      · exact ha rd rs1 0 imm (.inl rfl)
      · exact ha 0 rs1 rs2 imm (.inr rfl)
    rw [← hp]; exact .advanced hp hi he
  | finish =>
    rw [exec_eq_serve hp] at h
    obtain ⟨rfl, rfl⟩ := serve_finish_next h
    rw [← hp]; exact .halts hp rfl

/-- An action is taken wherever its premises hold. -/
theorem exec_of_acts {i : Instr} {s t : State} (h : Acts i s t) : exec i s = .next t := by
  cases h with
  | queued hp hq => rw [exec_eq_serve hp, serve_fetch_of_isQueued hq, ← hp]
  | latched hp hb =>
    rw [exec_eq_serve hp]
    obtain ⟨t, ht⟩ := serve_fetch_total i s
    rcases serve_fetch_next ht with ⟨hq, _⟩ | ⟨_, rfl⟩ | ⟨_, _, rfl, _⟩ | ⟨rfl, _⟩
    · rw [isQueued_of_isBranch hb] at hq; exact nomatch hq
    · rw [ht, ← hp]
    · exact nomatch hb
    · exact nomatch hb
  | linked hp hi =>
    subst hi
    rw [exec_eq_serve hp, ← withStage_self hp]
    rfl
  | recorded hp hi =>
    subst hi
    rw [exec_eq_serve hp, ← withStage_self hp]
    rfl
  | issued hp hu =>
    obtain ⟨t, ht⟩ := serve_issue_total (Option.isSome_iff_exists.mpr ⟨_, hu⟩) s
    obtain ⟨u', hu', rfl⟩ := serve_issue_next ht
    cases hu.symm.trans hu'
    rw [exec_eq_serve hp, ht, ← hp]
  | resolved hp hb hw => rw [exec_eq_serve hp, serve_resolve_eq hb hw, ← hp]
  | retired hp hl hd he =>
    obtain ⟨t, ht⟩ := serve_writeback_total hl (Option.isSome_iff_exists.mpr ⟨_, he⟩)
    obtain ⟨_, rd', e', hd', he', rfl⟩ := serve_writeback_next ht
    cases hd.symm.trans hd'
    cases he.symm.trans he'
    rw [exec_eq_serve hp, ht, withStage_self hp]
  | executed hp hu he hv =>
    obtain ⟨t, ht⟩ := serve_execute_total hu (Option.isSome_iff_exists.mpr ⟨_, he⟩)
    obtain ⟨_, e', v', he', hv', rfl⟩ := serve_execute_next ht
    cases he.symm.trans he'
    cases hv.symm.trans hv'
    rw [exec_eq_serve hp, ht, ← hp]
  | @advanced imm e hp hi he =>
    rw [exec_eq_serve hp, ← withStage_self hp]
    rcases hi with ⟨rd, rs1, rfl⟩ | ⟨rs1, rs2, rfl⟩ <;>
      simp [serve, exec, execLw, execSw, advanceAddress, effectiveAddress, he]
  | loads hp hl hm hr =>
    obtain ⟨rd, rs1, imm, rfl⟩ := (isLoad_iff i).mp hl
    rw [exec_eq_serve hp, ← withStage_self hp]
    simp [serve, exec, execLw, loadStage, State.memRead, hm, hr]
  | stores hp hi hm hw =>
    subst hi
    rw [exec_eq_serve hp, ← withStage_self hp]
    simp [serve, exec, execSw, storeStage, State.memWrite, hm, hw]
  | halts hp hi =>
    subst hi
    rw [exec_eq_serve hp, ← withStage_self hp]
    rfl

/-! ### Issue and writeback (R104, R106, R116) -/

theorem exec_issue_writer {i : Instr} {s : State} {u : FU} {rd : Reg} (hp : s.stage = .issue) (hu : unitOf i = some u)
    (hd : dstOf i = some rd) :
    exec i s = .next (State.markPending
      { s with stg := s.stg.set u (some ⟨i, (capturedOperands i s).1, (capturedOperands i s).2⟩) } rd) := by
  rw [exec_of_acts (.issued hp hu), dstMask_some hd]
  rfl

theorem exec_issue_store {s : State} (rs1 rs2 : Reg) (imm : Word) (hp : s.stage = .issue) :
    exec (.sw rs1 rs2 imm) s
      = .next { s with stg := s.stg.set .addr (some ⟨.sw rs1 rs2 imm, s.read rs1, s.read rs2⟩) } := by
  rw [exec_of_acts (.issued hp rfl), dstMask_none rfl, show s.willwrite ||| (0 : RegMask) = s.willwrite from BitVec.or_zero]
  rfl

/-- Settles O17: every writer captures and marks, the store only captures. -/
theorem issueCapturesOperandsAndMarks : Obligations.IssueCapturesOperandsAndMarks := by
  intro s rd rs1 rs2 imm hp
  refine ⟨?_, exec_issue_writer (u := .add) hp rfl rfl, ?_, ?_, exec_issue_writer (u := .addr) hp rfl rfl,
    exec_issue_store rs1 rs2 imm hp⟩
  · rintro i hi
    simp only [List.mem_cons, List.not_mem_nil, or_false] at hi
    rcases hi with rfl | rfl <;> exact exec_issue_writer (u := .add) hp rfl rfl
  · rintro i hi
    simp only [List.mem_cons, List.not_mem_nil, or_false] at hi
    rcases hi with rfl | rfl <;> exact exec_issue_writer (u := .log) hp rfl rfl
  · rintro i hi
    simp only [List.mem_cons, List.not_mem_nil, or_false] at hi
    rcases hi with rfl | rfl | rfl | rfl <;> exact exec_issue_writer (u := .log) hp rfl rfl

/-- Settles O21: retiring is the action at writeback, and the register write discards `x0`. -/
theorem writebackWritesTheDestination : Obligations.WritebackWritesTheDestination :=
  fun _ _ _ _ _ hl hd hp he => exec_of_acts (.retired hp hl hd he)

/-! ### The computing units (R118, R150 to R165) -/

theorem ofInt_toInt_add_toInt (a b : Word) : BitVec.ofInt 32 (a.toInt + b.toInt) = BitVec.ofNat 32 (a.toNat + b.toNat) := by
  rw [BitVec.ofInt_add, BitVec.ofInt_toInt, BitVec.ofInt_toInt, BitVec.add_def]

/-- Settles O18: the table's sums and differences, the signed sum of `addi` being the unsigned one modulo 2^32. -/
theorem addSubUnitComputes : Obligations.AddSubUnitComputes := by
  intro s rd rs1 rs2 imm e hp he
  refine ⟨exec_of_acts (.executed hp rfl he rfl), exec_of_acts (.executed hp rfl he rfl), ?_⟩
  rw [ofInt_toInt_add_toInt]
  exact exec_of_acts (.executed hp rfl he rfl)

/-- Settles O19: the table's values, read bit by bit. -/
theorem logicUnitComputesBitwise : Obligations.LogicUnitComputesBitwise := by
  intro s rd rs1 rs2 imm e hp he
  constructor
  · intro i hi
    simp only [List.mem_cons, List.not_mem_nil, or_false] at hi
    refine ⟨BitVec.ofNat 32 (e.a.toNat &&& e.b.toNat), ?_, fun k hk => ?_⟩
    · rcases hi with rfl | rfl <;> exact exec_of_acts (.executed hp rfl he rfl)
    · simp [← BitVec.toNat_and]
  · intro i hi
    simp only [List.mem_cons, List.not_mem_nil, or_false] at hi
    refine ⟨BitVec.ofNat 32 (e.a.toNat ||| e.b.toNat), ?_, fun k hk => ?_⟩
    · rcases hi with rfl | rfl <;> exact exec_of_acts (.executed hp rfl he rfl)
    · simp [← BitVec.toNat_or]

/-- Settles O20: the table shifts by `SHAMT_BITS` bits of the second operand, the immediate. -/
theorem shiftsComputeByShamtBits : Obligations.ShiftsComputeByShamtBits :=
  fun _ _ _ _ _ hp he => ⟨exec_of_acts (.executed hp rfl he rfl), exec_of_acts (.executed hp rfl he rfl)⟩

/-! ### The address unit (R117, R119, R140, R141) -/

/-- Settles O22: the displacement is the instruction's own, whichever of the two it is. -/
theorem addressUnitFormsTheAddress : Obligations.AddressUnitFormsTheAddress := by
  intro s rd rs1 rs2 imm e hp he
  rw [← BitVec.add_def]
  exact ⟨exec_of_acts (.advanced hp (.inl ⟨rd, rs1, rfl⟩) he), exec_of_acts (.advanced hp (.inr ⟨rs1, rs2, rfl⟩) he)⟩

theorem exec_load_not_readable {s : State} {rd rs1 : Reg} {imm : Word} {m : MemEntry} (hp : s.stage = .memory)
    (hm : s.premem = some m) (h : s.map.readable m.addr = false) :
    exec (.lw rd rs1 imm) s = .fault (.memFault m.addr .read) := by
  rw [exec_eq_serve hp]
  simp [serve, exec, execLw, loadStage, State.memRead, hm, h]

theorem exec_store_not_writable {s : State} {rs1 rs2 : Reg} {imm : Word} {m : MemEntry} (hp : s.stage = .memory)
    (hm : s.premem = some m) (h : s.map.writable m.addr = false) :
    exec (.sw rs1 rs2 imm) s = .fault (.memFault m.addr .write) := by
  rw [exec_eq_serve hp]
  simp [serve, exec, execSw, storeStage, State.memWrite, hm, h]

/-- Settles O23: the two sides of the load's check. -/
theorem loadReadsTheWordOrFaults : Obligations.LoadReadsTheWordOrFaults := by
  intro s rd rs1 imm m hp hm
  split
  · next h => exact exec_of_acts (.loads hp rfl hm ((aligned4In_iff _ _ _).mpr h))
  · next h => exact exec_load_not_readable hp hm (Bool.eq_false_iff.mpr fun hr => h ((aligned4In_iff _ _ _).mp hr))

/-- Settles O24: the two sides of the store's check; a canonical memory reads the stored word at its address alone. -/
theorem storeWritesTheWordOrFaults : Obligations.StoreWritesTheWordOrFaults := by
  intro s rs1 rs2 imm m hwf hp hm
  split
  · next h =>
    refine ⟨_, exec_of_acts (.stores hp rfl hm ((aligned4In_iff _ _ _).mpr h)), ?_, fun a ha => ?_⟩
    · exact Memory.readWord_writeWord_same _ _ hwf
    · exact Memory.readWord_writeWord_ne _ _ ha
  · next h => exact exec_store_not_writable hp hm (Bool.eq_false_iff.mpr fun hw => h ((aligned4In_iff _ _ _).mp hw))

/-! ### The fetch unit (R111 to R113, R115, R170 to R174) -/

/-- Settles O25: none of the three looks at its condition yet. -/
theorem branchesAreLatchedAtFetch : Obligations.BranchesAreLatchedAtFetch := by
  intro s rs1 rs2 imm hp i hi
  simp only [List.mem_cons, List.not_mem_nil, or_false] at hi
  rcases hi with rfl | rfl | rfl <;> exact exec_of_acts (.latched hp rfl)

theorem ofInt_target (a off imm : Word) :
    BitVec.ofInt 32 (a.toNat + off.toNat + 2 * imm.toInt) = a + off + 2 * imm := by
  rw [BitVec.ofInt_add, BitVec.ofInt_add, BitVec.ofInt_mul, BitVec.ofInt_toInt, BitVec.ofInt_natCast, BitVec.ofInt_natCast,
    BitVec.ofNat_toNat, BitVec.ofNat_toNat, BitVec.setWidth_eq, BitVec.setWidth_eq]
  rfl

/-- Settles O26: `branchPc` is the three comparisons, its target the integer one modulo 2^32. -/
theorem branchesCompareAndRedirect : Obligations.BranchesCompareAndRedirect := by
  intro s rs1 rs2 imm b hp hb target done
  have htarget : target = b.addr + 4 + 2 * imm := ofInt_target b.addr 4 imm
  rw [htarget]
  exact ⟨exec_of_acts (.resolved hp rfl hb), exec_of_acts (.resolved hp rfl hb), exec_of_acts (.resolved hp rfl hb)⟩

/-- Settles O27: the link and the jump are one action, and the target the integer one modulo 2^32. -/
theorem jalLinksAndJumpsAtFetch : Obligations.JalLinksAndJumpsAtFetch := by
  intro s rd imm hp
  rw [ofInt_target]
  exact exec_of_acts (.linked hp rfl)

/-- Settles O28: the only instruction with an action at the end of the cycle. -/
theorem breakIsRecordedThenHalts : Obligations.BreakIsRecordedThenHalts :=
  fun _ => ⟨fun hp => exec_of_acts (.recorded hp rfl), fun hp => exec_of_acts (.halts hp rfl)⟩

/-! ### Stages off the path (R124) -/

/-- Which instructions have an action at a stage. -/
def ActsAt (i : Instr) : Stage → Prop
  | .fetch => True
  | .issue => isQueued i = true
  | .resolve => isBranch i = true
  | .writeback l => latchOf i = some l
  | .memory => unitOf i = some .addr
  | .execute u => unitOf i = some u.unit
  | .advance => unitOf i = some .addr
  | .finish => i = .brk

/-- Those whose path has the stage. -/
theorem mem_pathOf_iff (i : Instr) (p : Stage) : p ∈ pathOf i ↔ ActsAt i p := by
  rcases p with _ | _ | _ | (_ | _ | _) | _ | (_ | _) | _ | _ <;> cases i <;>
    simp [ActsAt, pathOf, unitOf, isLoad, dstOf, latchOf, isBranch, isQueued]

/-- Every other instruction is stuck there. -/
theorem serve_misplaced {i : Instr} {p : Stage} (h : ¬ActsAt i p) (s : State) : serve p i s = .fault (.misplaced p i) := by
  cases p with
  | fetch => exact absurd trivial h
  | execute u => exact serve_execute_other h s
  | writeback l =>
    rcases serve_writeback i l s with ⟨hl, _⟩ | ⟨_, hs⟩
    · exact absurd hl h
    · exact hs
  | issue | resolve | memory | advance | finish => cases i <;> first | rfl | exact absurd rfl h

/-- Settles O29: off its path an instruction has no action, and at fetch every instruction has one. -/
theorem offPathStagesAreStuck : Obligations.OffPathStagesAreStuck := by
  intro i s
  refine ⟨fun h => ?_, fun hp => ?_⟩
  · rw [exec_eq_serve rfl]
    exact serve_misplaced (fun ha => h ((mem_pathOf_iff i _).mpr ha)) s
  · rw [exec_eq_serve hp]
    exact serve_fetch_total i s

/-! ### Frames -/

/-- Registers change at writeback of their own writer, and by a `jal` that links to them. -/
theorem Acts.read_eq {i : Instr} {s t : State} (h : Acts i s t) {r : Reg}
    (hr : dstOf i = some r → isQueued i = true ∧ ∀ l, s.stage ≠ .writeback l) : t.read r = s.read r := by
  cases h with
  | queued | latched | recorded | issued | resolved | advanced | loads | stores | halts => rfl
  | @linked rd imm hp hi =>
    subst hi
    have hne : r ≠ rd := fun hc => nomatch (hr (congrArg some hc.symm)).1
    exact State.read_write_ne s hne _
  | @retired l rd e hp hl hd he =>
    have hne : r ≠ rd := fun hc => (hr (by rw [hd, hc])).2 l hp
    exact (State.read_congr (State.setPost_x _ _ _) r).trans (State.read_write_ne s hne _)
  | executed => exact State.read_congr (State.setPost_x _ _ _) r

/-- A scoreboard bit changes only by an instruction that writes its register. -/
theorem Acts.isPending_eq {i : Instr} {s t : State} (h : Acts i s t) {r : Reg} (hr : dstOf i ≠ some r) :
    t.isPending r = s.isPending r := by
  cases h with
  | queued | latched | recorded | resolved | advanced | loads | stores | halts => rfl
  | @linked rd imm hp hi =>
    subst hi
    have hne : r ≠ rd := fun hc => hr (congrArg some hc.symm)
    exact (State.isPending_write s rd r _).trans (by simp [hne])
  | issued => simp [State.isPending, getLsbD_dstMask, hr, -BitVec.getLsbD_eq_getElem]
  | @retired l rd e hp hl hd he =>
    have hne : r ≠ rd := fun hc => hr (by rw [hd, hc])
    exact (State.isPending_congr (State.setPost_willwrite _ _ _) r).trans ((State.isPending_write s rd r _).trans (by simp [hne]))
  | executed => exact State.isPending_congr (State.setPost_willwrite _ _ _) r

/-- Memory changes only by a store at the memory stage, and there only at its address. -/
theorem Acts.mem_eq {i : Instr} {s t : State} (h : Acts i s t) :
    t.mem = s.mem ∨ ∃ m rs1 rs2 imm, s.stage = .memory ∧ i = .sw rs1 rs2 imm ∧ s.premem = some m ∧
      t.mem = s.mem.writeWord m.addr.toNat m.val := by
  cases h with
  | stores hp hi hm => exact .inr ⟨_, _, _, _, hp, hi, hm, rfl⟩
  | linked | retired | executed => exact .inl (by simp)
  | queued | latched | recorded | issued | resolved | advanced | loads | halts => exact .inl rfl

/-- What no action changes. -/
structure ActFrame (s t : State) : Prop where
  map : t.map = s.map
  par : t.par = s.par
  cycle : t.cycle = s.cycle
  fault : t.fault = s.fault
  stage : t.stage = s.stage

theorem Acts.frame {i : Instr} {s t : State} (h : Acts i s t) : ActFrame s t := by
  cases h with
  | linked | retired | executed => constructor <;> simp
  | queued | latched | recorded | issued | resolved | advanced | loads | stores | halts => constructor <;> rfl

/-- What an instruction of a functional unit leaves alone: the fetch unit, which it only passes. -/
structure QueuedFrame (s t : State) : Prop where
  wbr : t.wbr = s.wbr
  fx : t.fx = s.fx
  halted : t.halted = s.halted
  front : s.stage ≠ .fetch → t.pc = s.pc ∧ t.iq = s.iq

theorem Acts.queuedFrame {i : Instr} {s t : State} (h : Acts i s t) (hq : isQueued i = true) : QueuedFrame s t := by
  cases h with
  | latched _ hb | resolved _ hb => rw [isQueued_of_isBranch hb] at hq; exact nomatch hq
  | linked _ hi | recorded _ hi | halts _ hi => subst hi; exact nomatch hq
  | queued hp => exact ⟨rfl, rfl, rfl, fun hn => absurd hp hn⟩
  | retired | executed => constructor <;> simp
  | issued | advanced | loads | stores => exact ⟨rfl, rfl, rfl, fun _ => ⟨rfl, rfl⟩⟩

/-- What the fetch unit's instructions leave alone: the functional units. -/
structure FetchUnitKept (s t : State) : Prop where
  iq : t.iq = s.iq
  stg : t.stg = s.stg
  pre : t.pre = s.pre
  premem : t.premem = s.premem
  postmem : t.postmem = s.postmem
  postAdd : t.postAdd = s.postAdd
  postLog : t.postLog = s.postLog

theorem isQueued_of_unitOf {i : Instr} {u : FU} (h : unitOf i = some u) : isQueued i = true :=
  Option.isSome_iff_exists.mpr ⟨u, h⟩

theorem isQueued_of_latchOf {i : Instr} {l : PostLatch} (h : latchOf i = some l) : isQueued i = true := by
  cases i <;> first | rfl | exact nomatch h

theorem isQueued_of_isLoad {i : Instr} (h : isLoad i = true) : isQueued i = true :=
  isQueued_of_latchOf (CycleEnd.latchOf_of_isLoad h)

theorem Acts.fetchUnitKept {i : Instr} {s t : State} (h : Acts i s t) (hq : isQueued i = false) : FetchUnitKept s t := by
  cases h with
  | queued _ hk => rw [hq] at hk; exact nomatch hk
  | issued _ hu | executed _ hu => rw [isQueued_of_unitOf hu] at hq; exact nomatch hq
  | retired _ hl => rw [isQueued_of_latchOf hl] at hq; exact nomatch hq
  | advanced _ hi => rw [isQueued_of_unitOf ((unitOf_addr_iff _).mpr ⟨_, hi⟩)] at hq; exact nomatch hq
  | loads _ hl => rw [isQueued_of_isLoad hl] at hq; exact nomatch hq
  | stores _ hi => subst hi; exact nomatch hq
  | linked => constructor <;> simp
  | latched | recorded | resolved | halts => constructor <;> rfl

theorem Acts.halted_eq {i : Instr} {s t : State} (h : Acts i s t) (hi : i ≠ .brk) : t.halted = s.halted := by
  cases h with
  | halts _ hb => exact absurd hb hi
  | linked | retired | executed => simp
  | queued | latched | recorded | issued | resolved | advanced | loads | stores => rfl

/-- A store passes no post latch. -/
theorem Acts.post_of_store {i : Instr} {s t : State} (h : Acts i s t) (hl : latchOf i = none) (hq : isQueued i = true) :
    t.postmem = s.postmem ∧ t.postAdd = s.postAdd ∧ t.postLog = s.postLog := by
  cases h with
  | retired _ hk => rw [hl] at hk; exact nomatch hk
  | executed _ hu => rw [CycleEnd.latchOf_of_unitOf hu] at hl; exact nomatch hl
  | loads _ hk => rw [CycleEnd.latchOf_of_isLoad hk] at hl; exact nomatch hl
  | linked _ hi => subst hi; exact nomatch hq
  | queued | latched | recorded | issued | resolved | advanced | stores | halts => exact ⟨rfl, rfl, rfl⟩

/-- Settles O30: of a register writer's actions only retiring writes, and none stores. -/
theorem registerWritersFrame : Obligations.RegisterWritersFrame := by
  intro i rd s t hq hd h
  replace h := acts_of_exec h
  have f := h.frame
  have q := h.queuedFrame hq
  have hmem : t.mem = s.mem := by
    rcases h.mem_eq with hm | ⟨_, _, _, _, _, rfl, _⟩
    · exact hm
    · exact nomatch hd
  have others : ∀ r : Reg, r ≠ rd → dstOf i ≠ some r := fun r hr hc => hr (Option.some.inj (hc.symm.trans hd))
  exact ⟨fun r hr => ⟨h.read_eq fun hc => absurd hc (others r hr), h.isPending_eq (others r hr)⟩,
    fun hn => h.read_eq fun _ => ⟨hq, hn⟩, fun _ => by rw [hmem],
    f.map, f.par, q.wbr, q.fx, f.cycle, q.halted, f.fault, f.stage, q.front⟩

/-- Settles O31: a store has no destination and no post latch, and its one write is at its own address. -/
theorem storeFrame : Obligations.StoreFrame := by
  intro rs1 rs2 imm s t h
  replace h := acts_of_exec h
  have f := h.frame
  have q := h.queuedFrame rfl
  obtain ⟨hpostmem, hpostAdd, hpostLog⟩ := h.post_of_store rfl rfl
  refine ⟨fun r => ⟨h.read_eq nofun, h.isPending_eq nofun⟩, fun m _ hm a ha => ?_, fun hn a => ?_,
    f.map, f.par, q.wbr, q.fx, hpostmem, hpostAdd, hpostLog, f.cycle, q.halted, f.fault, f.stage, q.front⟩
  · rcases h.mem_eq with hmem | ⟨m', _, _, _, _, _, hm', hmem⟩
    · rw [hmem]
    · cases hm.symm.trans hm'
      rw [hmem, Memory.readWord_writeWord_ne _ _ ha]
  · rcases h.mem_eq with hmem | ⟨_, _, _, _, hp, _⟩
    · rw [hmem]
    · exact absurd hp hn

theorem jal_of_dstOf {i : Instr} {r : Reg} (hq : isQueued i = false) (hd : dstOf i = some r) : ∃ imm, i = .jal r imm := by
  cases i with
  | jal rd imm => cases hd; exact ⟨imm, rfl⟩
  | beq | bne | blt | brk => exact nomatch hd
  | sw | add | sub | and | or | addi | andi | ori | sll | sra | lw => exact nomatch hq

/-- Settles O32: the fetch unit's actions touch no functional unit, and of them only the link writes a register. -/
theorem fetchUnitFrame : Obligations.FetchUnitFrame := by
  intro i s t hq h
  replace h := acts_of_exec h
  have f := h.frame
  have k := h.fetchUnitKept hq
  have hmem : t.mem = s.mem := by
    rcases h.mem_eq with hm | ⟨_, _, _, _, _, rfl, _⟩
    · exact hm
    · exact nomatch hq
  refine ⟨fun r hr => ?_, fun _ => by rw [hmem], f.map, f.par, k.iq, k.stg, k.pre, k.premem, k.postmem, k.postAdd, k.postLog,
    f.cycle, f.fault, f.stage, h.halted_eq⟩
  have noLink : dstOf i ≠ some r := fun hc => by
    obtain ⟨imm, hi⟩ := jal_of_dstOf hq hc
    exact hr imm hi
  exact ⟨h.read_eq fun hc => absurd hc noLink, h.isPending_eq noLink⟩

/-! ### Who is handed to whom (R109, R115 to R119) -/

theorem andThen_assoc {ρ σ τ : Type} (o : Result ρ) (f : ρ → Result σ) (g : σ → Result τ) :
    andThen (andThen o f) g = andThen o fun x => andThen (f x) g := by
  cases o <;> rfl

theorem fetchesAt_of_fetch {s : State} {a w : Word} {i : Instr} (h : s.fetch a = .next w) (hd : decodeWith s.par.enc w = .ok i) :
    FetchesAt s a i := by
  unfold State.fetch at h
  split at h
  · next hf => cases h; exact ⟨hf, hd⟩
  · exact nomatch h

/-- Settles O33: the first fetch slot finds a full queue, or hands the word's instruction to its meaning. -/
theorem stepRunsTheFetchedInstruction : Obligations.StepRunsTheFetchedInstruction := by
  intro s s1 hhalt hfault hn h1
  have f1 := (issue_next h1).frame
  have hstep := CycleEnd.step_of_issue (ended_eq_false.mpr ⟨hhalt, hfault⟩) h1
  have hslots : fetchDecode s1 = fetchSlots 2 s1 := fetchDecode_of_not_waiting (f1.wbr.trans hn)
  refine ⟨fun hfull => ?_, fun w i hlen hw hd => ?_⟩
  · have h2 : fetchDecode s1 = .next s1 := hslots.trans (CycleEnd.fetchSlots_of_full (decide_eq_true hfull))
    exact ⟨h2, by rw [hstep, h2, andThen_next]⟩
  · have hi : FetchesAt s1 s1.pc i := fetchesAt_of_fetch hw (by rw [f1.par]; exact hd)
    rw [hstep, hslots, CycleEnd.fetchSlots_of_fetches (decide_eq_false (Nat.not_le.mpr hlen)) hi, andThen_assoc]
    rfl

/-- Settles O34: each step of the cycle looks into its latch and serves what it finds. -/
theorem stagesRunTheHeldInstruction : Obligations.StagesRunTheHeldInstruction := by
  intro s
  refine ⟨fun b hb hr => ?_, fun l e he => ?_, fun m hm => ?_, fun u e he => ?_, fun e he => ?_, fun b hb hr => ?_,
    fun h => ?_, fun l h => ?_, fun h => ?_, fun u h => ?_, fun h => ?_⟩
  · simp [branchStage, hb, hr, serve]
  · simp [writebackLatch, he, serve]
  · simp [memoryStage, hm, serve]
  · simp [executeUnit, he, serve]
  · simp [addressAdvance, he, serve]
  · simp [branchStage, hb, hr]
  · simp [branchStage, h]
  · simp [writebackLatch, h]
  · simp [memoryStage, h]
  · simp [executeUnit, h]
  · simp [addressAdvance, h]

end Sys2Proof.StageActions
end

section
/-! One instruction taken alone through its stages has the effect of its Operation line (R124, R128). -/

namespace Sys2Proof.AloneRuns

open Sys2Proof Sys2Proof.Machine Sys2Proof.PipelineEngine Sys2Proof.FetchUnit Sys2Proof.StageActions Sys2Proof.Storage

/-! ### Register writes as values -/

theorem write_x (s : State) (r : Reg) (v : Word) : (s.write r v).x = if r = 0 then s.x else s.x.set r v := by
  unfold State.write; split <;> rfl

theorem write_willwrite (s : State) (r : Reg) (v : Word) : (s.write r v).willwrite = s.willwrite &&& ~~~regBit r := by
  apply mask_ext
  intro q
  have h := State.isPending_write s r q v
  simp only [State.isPending] at h
  rw [h]
  simp [getLsbD_regBit, -BitVec.getLsbD_eq_getElem]

/-- Clearing a bit undoes setting it. -/
theorem or_and_not_self (m b : RegMask) : (m ||| b) &&& ~~~b = m &&& ~~~b := by
  apply mask_ext
  intro q
  simp only [BitVec.getLsbD_and, BitVec.getLsbD_or, BitVec.getLsbD_not]
  cases b.getLsbD q <;> simp

/-! ### The stages' effect -/

/-- The two states agree in what an Operation line speaks of, the fetch-executed slot being the branch's own once it resolved. -/
structure SameEffect (i : Instr) (t' t : State) : Prop where
  x : t'.x = t.x
  willwrite : t'.willwrite = t.willwrite
  mem : t'.mem = t.mem
  pc : t'.pc = t.pc
  halted : t'.halted = t.halted
  fx : t'.fx = if isBranch i then some i else t.fx

/-- Taking the instruction through its stages does what its Operation line does. -/
structure Agrees (i : Instr) (s : State) : Prop where
  next : ∀ t, operation i s = .next t → ∃ t', alone i s = .next t' ∧ SameEffect i t' t
  fault : ∀ r, operation i s = .fault r → alone i s = .fault r

theorem agrees_of_next {i : Instr} {s t t' : State} (h : operation i s = .next t) (h' : alone i s = .next t')
    (same : SameEffect i t' t) : Agrees i s where
  next u hu := by cases h.symm.trans hu; exact ⟨t', h', same⟩
  fault r hr := by rw [h] at hr; exact nomatch hr

theorem agrees_of_fault {i : Instr} {s : State} {r : Fault} (h : operation i s = .fault r) (h' : alone i s = .fault r) :
    Agrees i s where
  next u hu := by rw [h] at hu; exact nomatch hu
  fault r' hr := by cases h.symm.trans hr; exact h'

theorem serve_of_acts {p : Stage} {i : Instr} {s t : State} (h : Acts i { s with stage := p } t) : serve p i s = .next t :=
  exec_of_acts h

theorem runStages_cons (p : Stage) (hp : p ≠ .issue) {i : Instr} {ps : List Stage} {s t : State}
    (h : serve p i s = .next t) : runStages i (p :: ps) s = runStages i ps t := by
  rw [runStages, h, andThen_next, if_neg hp]

theorem runStages_fault {i : Instr} {p : Stage} {ps : List Stage} {s : State} {r : Fault} (h : serve p i s = .fault r) :
    runStages i (p :: ps) s = .fault r := by
  rw [runStages, h, andThen_fault]

/-- The state once an instruction of a unit was fetched and issued and the latches rotated. -/
def issuedAlone (u : FU) (i : Instr) (s : State) : State :=
  rotate (afterIssue u i { s with stage := .fetch, iq := s.iq ++ [i], pc := nextPc s.pc })

theorem issuedAlone_pre (u : FU) (i : Instr) (s : State) :
    (issuedAlone u i s).pre.get u = some ⟨i, (capturedOperands i s).1, (capturedOperands i s).2⟩ :=
  PerUnit.get_set_same _ _ _

theorem runStages_fetch_issue {i : Instr} {u : FU} (hu : unitOf i = some u) (ps : List Stage) (s : State) :
    runStages i (.fetch :: .issue :: ps) s = runStages i ps (issuedAlone u i s) := by
  rw [runStages_cons .fetch nofun (serve_fetch_of_isQueued (isQueued_of_unitOf hu) s), runStages,
    serve_of_acts (.issued rfl hu), andThen_next, if_pos rfl]
  rfl

/-- What of an Operation line is done once the instruction is in flight: `pc` is at the next word and the destination marked. -/
structure InFlightFrom (i : Instr) (s a : State) : Prop where
  x : a.x = s.x
  willwrite : a.willwrite = s.willwrite ||| dstMask i
  mem : a.mem = s.mem
  map : a.map = s.map
  par : a.par = s.par
  pc : a.pc = nextPc s.pc
  halted : a.halted = s.halted
  fx : a.fx = s.fx

theorem inFlightFrom_issuedAlone (u : FU) (i : Instr) (s : State) : InFlightFrom i s (issuedAlone u i s) := by
  constructor <;> rfl

/-- Writeback completes a writer's Operation line: its bit, which issue set, is as the register write alone leaves it. -/
theorem InFlightFrom.writeback {i : Instr} {s a : State} (h : InFlightFrom i s a) {l : PostLatch} {rd : Reg} {v : Word}
    (hl : latchOf i = some l) (hd : dstOf i = some rd) (he : a.post l = some ⟨i, v⟩) :
    ∃ t', runStages i [.writeback l] a = .next t' ∧ SameEffect i t' { s.write rd v with pc := nextPc s.pc } := by
  have hpost : State.post { a with stage := .writeback l } l = some ⟨i, v⟩ := by cases l <;> exact he
  have hk : isBranch i = false := Bool.eq_false_iff.mpr fun hb => by
    have hq := isQueued_of_latchOf hl
    rw [isQueued_of_isBranch hb] at hq; exact nomatch hq
  refine ⟨_, runStages_cons (.writeback l) nofun (serve_of_acts (.retired rfl hl hd hpost)), ?_⟩
  constructor
  case x => simp [write_x, h.x]
  case willwrite => simp [write_willwrite, h.willwrite, dstMask_some hd, or_and_not_self]
  case mem => simp [h.mem]
  case pc => simp [h.pc]
  case halted => simp [h.halted]
  case fx => simp [h.fx, hk]

/-! ### The computing units -/

theorem alu_eq_of_unit {u w : Alu} (h : some w.unit = some u.unit) : u = w := by
  cases u <;> cases w <;> first | rfl | exact nomatch h

/-- An Operation line of a computing unit applies to the captured operands the function that the unit executes. -/
theorem operation_alu {i : Instr} {u : Alu} (hu : unitOf i = some u.unit) (s : State) :
    ∃ rd f, dstOf i = some rd ∧ operation i s = seqWrite rd (f (capturedOperands i s).1 (capturedOperands i s).2) s ∧
      ∀ a : State, a.par = s.par → serve (.execute u) i a = executeIn u i f { a with stage := .execute u } := by
  cases i with
  | add rd => cases alu_eq_of_unit (w := .add) hu; exact ⟨rd, fun a b => a + b, rfl, rfl, fun _ _ => rfl⟩
  | sub rd => cases alu_eq_of_unit (w := .add) hu; exact ⟨rd, fun a b => a - b, rfl, rfl, fun _ _ => rfl⟩
  | addi rd => cases alu_eq_of_unit (w := .add) hu; exact ⟨rd, fun a b => a + b, rfl, rfl, fun _ _ => rfl⟩
  | and rd => cases alu_eq_of_unit (w := .log) hu; exact ⟨rd, fun a b => a &&& b, rfl, rfl, fun _ _ => rfl⟩
  | or rd => cases alu_eq_of_unit (w := .log) hu; exact ⟨rd, fun a b => a ||| b, rfl, rfl, fun _ _ => rfl⟩
  | andi rd => cases alu_eq_of_unit (w := .log) hu; exact ⟨rd, fun a b => a &&& b, rfl, rfl, fun _ _ => rfl⟩
  | ori rd => cases alu_eq_of_unit (w := .log) hu; exact ⟨rd, fun a b => a ||| b, rfl, rfl, fun _ _ => rfl⟩
  | sll rd =>
    cases alu_eq_of_unit (w := .log) hu
    exact ⟨rd, fun a b => a <<< shiftAmount s.par.shamtBits b, rfl, rfl, fun _ h => by rw [← h]; rfl⟩
  | sra rd =>
    cases alu_eq_of_unit (w := .log) hu
    exact ⟨rd, fun a b => a.sshiftRight (shiftAmount s.par.shamtBits b), rfl, rfl, fun _ h => by rw [← h]; rfl⟩
  | beq | bne | blt | sw | lw | jal | brk => cases u <;> exact nomatch hu

/-- Executing puts the function's value into the unit's post latch and touches nothing an Operation line speaks of. -/
theorem InFlightFrom.execute {i : Instr} {u : Alu} {s a : State} (h : InFlightFrom i s a) {f : Word → Word → Word}
    {e : OpEntry} (hs : serve (.execute u) i a = executeIn u i f { a with stage := .execute u })
    (he : a.pre.get u.unit = some e) :
    ∃ b, serve (.execute u) i a = .next b ∧ InFlightFrom i s b ∧ b.post u.post = some ⟨i, f e.a e.b⟩ := by
  simp only [executeIn, he] at hs
  refine ⟨_, hs, ?_, State.post_setPost_same _ _ _⟩
  obtain ⟨hx, hww, hmem, hmap, hpar, hpc, hhalted, hfx⟩ := h
  constructor <;> simpa

theorem pathOf_alu {i : Instr} {u : Alu} (hu : unitOf i = some u.unit) :
    pathOf i = [.fetch, .issue, .execute u, .writeback u.post] := by
  cases u <;> simp [pathOf, hu]

theorem agrees_alu {i : Instr} {u : Alu} (hu : unitOf i = some u.unit) (s : State) : Agrees i s := by
  obtain ⟨rd, f, hd, hop, hexec⟩ := operation_alu hu s
  have hfly := inFlightFrom_issuedAlone u.unit i s
  obtain ⟨b, hb, hdone, hpost⟩ := hfly.execute (hexec _ hfly.par) (issuedAlone_pre u.unit i s)
  obtain ⟨t', ht', same⟩ := hdone.writeback (CycleEnd.latchOf_of_unitOf hu) hd hpost
  refine agrees_of_next hop ?_ same
  rw [alone, pathOf_alu hu, runStages_fetch_issue hu, runStages_cons (.execute u) nofun hb]
  exact ht'

/-! ### The address unit -/

/-- The address stage forms the entry for the memory stage and touches nothing an Operation line speaks of. -/
theorem InFlightFrom.advance {i : Instr} {s a : State} (h : InFlightFrom i s a) {imm : Word} {e : OpEntry}
    (hi : HasDisplacement i imm) (he : a.pre.addr = some e) :
    ∃ b, serve .advance i a = .next b ∧ InFlightFrom i s b ∧ b.premem = some ⟨i, e.a + imm, e.b⟩ := by
  refine ⟨_, serve_of_acts (.advanced rfl hi he), ?_, rfl⟩
  obtain ⟨hx, hww, hmem, hmap, hpar, hpc, hhalted, hfx⟩ := h
  constructor <;> assumption

/-- The way of a load or a store to the memory stage. -/
theorem runStages_to_memory {i : Instr} {imm : Word} (hi : HasDisplacement i imm) (s : State) :
    ∃ b, InFlightFrom i s b ∧ b.premem = some ⟨i, (capturedOperands i s).1 + imm, (capturedOperands i s).2⟩ ∧
      ∀ ps, runStages i (.fetch :: .issue :: .advance :: ps) s = runStages i ps b := by
  obtain ⟨b, hb, hfly, hm⟩ := (inFlightFrom_issuedAlone .addr i s).advance hi (issuedAlone_pre .addr i s)
  refine ⟨b, hfly, hm, fun ps => ?_⟩
  rw [runStages_fetch_issue ((unitOf_addr_iff i).mpr ⟨imm, hi⟩), runStages_cons .advance nofun hb]

theorem agrees_lw (rd rs1 : Reg) (imm : Word) (s : State) : Agrees (.lw rd rs1 imm) s := by
  obtain ⟨b, hfly, hm, hrun⟩ := runStages_to_memory (.inl ⟨rd, rs1, rfl⟩) s
  have halone : alone (.lw rd rs1 imm) s = runStages (.lw rd rs1 imm) [.memory, .writeback .mem] b := hrun _
  cases hr : s.map.readable (s.read rs1 + imm) with
  | true =>
    have hop : operation (.lw rd rs1 imm) s = seqWrite rd (s.mem.readWord (s.read rs1 + imm).toNat) s := by
      simp [operation, effectiveAddress, memRead_of_readable hr]
    have hload := serve_of_acts (.loads (i := .lw rd rs1 imm) (s := { b with stage := .memory }) rfl rfl hm
      (by show b.map.readable _ = true; rw [hfly.map]; exact hr))
    have hloaded : InFlightFrom (.lw rd rs1 imm) s
        { b with
          stage := .memory
          premem := none
          postmem := some ⟨.lw rd rs1 imm, s.mem.readWord (s.read rs1 + imm).toNat⟩ } := by
      obtain ⟨hx, hww, hmem, hmap, hpar, hpc, hhalted, hfx⟩ := hfly
      constructor <;> assumption
    obtain ⟨t', ht', same⟩ := hloaded.writeback (l := .mem) rfl rfl rfl
    refine agrees_of_next hop ?_ same
    rw [halone, runStages_cons .memory nofun hload]
    rw [← hfly.mem] at ht'
    exact ht'
  | false =>
    have hop : operation (.lw rd rs1 imm) s = .fault (.memFault (s.read rs1 + imm) .read) := by
      simp [operation, effectiveAddress, memRead_of_not_readable (Bool.eq_false_iff.mp hr)]
    refine agrees_of_fault hop ?_
    rw [halone]
    exact runStages_fault (exec_load_not_readable (s := { b with stage := .memory }) rfl hm
      (by show b.map.readable _ = false; rw [hfly.map]; exact hr))

theorem agrees_sw (rs1 rs2 : Reg) (imm : Word) (s : State) : Agrees (.sw rs1 rs2 imm) s := by
  obtain ⟨b, hfly, hm, hrun⟩ := runStages_to_memory (.inr ⟨rs1, rs2, rfl⟩) s
  have halone : alone (.sw rs1 rs2 imm) s = runStages (.sw rs1 rs2 imm) [.memory] b := hrun _
  cases hw : s.map.writable (s.read rs1 + imm) with
  | true =>
    have hop : operation (.sw rs1 rs2 imm) s
        = .next { s with mem := s.mem.writeWord (s.read rs1 + imm).toNat (s.read rs2), pc := nextPc s.pc } := by
      simp [operation, effectiveAddress, memWrite_of_writable _ hw]
    have hstore := serve_of_acts (.stores (i := .sw rs1 rs2 imm) (s := { b with stage := .memory }) rfl rfl hm
      (by show b.map.writable _ = true; rw [hfly.map]; exact hw))
    refine agrees_of_next hop (by rw [halone, runStages_cons .memory nofun hstore]; rfl) ?_
    constructor
    case mem => exact congrArg (fun m => Memory.writeWord m _ _) hfly.mem
    case willwrite => exact hfly.willwrite.trans (by rw [dstMask_none rfl]; exact BitVec.or_zero)
    exacts [hfly.x, hfly.pc, hfly.halted, hfly.fx]
  | false =>
    have hop : operation (.sw rs1 rs2 imm) s = .fault (.memFault (s.read rs1 + imm) .write) := by
      simp [operation, effectiveAddress, memWrite_of_not_writable _ (Bool.eq_false_iff.mp hw)]
    refine agrees_of_fault hop ?_
    rw [halone]
    exact runStages_fault (exec_store_not_writable (s := { b with stage := .memory }) rfl hm
      (by show b.map.writable _ = false; rw [hfly.map]; exact hw))

/-! ### The fetch unit -/

/-- A branch's Operation line is what its resolution makes of `pc`. -/
theorem operation_branch {i : Instr} (hi : isBranch i = true) (s : State) :
    operation i s = .next { s with pc := branchPc s s.pc (nextPc s.pc) i } := by
  cases i with
  | beq => simp [operation, seqBranch, branchPc, condEq, branchTarget]
  | bne => simp [operation, seqBranch, branchPc, condNe, branchTarget]
  | blt => simp [operation, seqBranch, branchPc, condLt, branchTarget]
  | sw | add | sub | and | or | addi | andi | ori | sll | sra | lw | jal | brk => exact nomatch hi

theorem pathOf_branch {i : Instr} (hi : isBranch i = true) : pathOf i = [.fetch, .resolve] := by
  cases i <;> first | rfl | exact nomatch hi

theorem agrees_branch {i : Instr} (hi : isBranch i = true) (s : State) : Agrees i s := by
  have hlatch : serve .fetch i s = .next { s with stage := .fetch, wbr := some ⟨i, s.pc⟩, pc := nextPc s.pc } :=
    serve_of_acts (.latched rfl hi)
  have halone : alone i s = runStages i [.fetch, .resolve] s := by rw [alone, pathOf_branch hi]
  have hrun := halone.trans ((runStages_cons .fetch nofun hlatch).trans
    (runStages_cons .resolve nofun (serve_resolve_eq hi rfl)))
  refine agrees_of_next (operation_branch hi s) hrun ?_
  constructor
  case pc => exact branchPc_congr (t := { s with stage := .fetch, wbr := some ⟨i, s.pc⟩, pc := nextPc s.pc }) rfl _ _ i
  case fx => simp [hi]
  all_goals rfl

theorem agrees_jal (rd : Reg) (imm : Word) (s : State) : Agrees (.jal rd imm) s := by
  have hrun : alone (.jal rd imm) s = _ := runStages_cons .fetch nofun (serve_of_acts (.linked rfl rfl))
  refine agrees_of_next rfl hrun ?_
  constructor
  case x => simp [write_x]
  case willwrite => simp [write_willwrite]
  all_goals simp [isBranch]

theorem agrees_brk (s : State) : Agrees .brk s :=
  agrees_of_next rfl rfl ⟨rfl, rfl, rfl, rfl, rfl, rfl⟩

/-- Settles O58: by the unit, a latch at a time; the empty latches say that nothing else moves. -/
theorem stagesComposeToTheOperation : Obligations.StagesComposeToTheOperation := by
  intro i s _ _ _ _ _ _ _
  have agrees : Agrees i s := by
    cases i with
    | beq | bne | blt => exact agrees_branch rfl s
    | sw => exact agrees_sw _ _ _ s
    | lw => exact agrees_lw _ _ _ s
    | add | sub | addi => exact agrees_alu (u := .add) rfl s
    | and | or | andi | ori | sll | sra => exact agrees_alu (u := .log) rfl s
    | jal => exact agrees_jal _ _ s
    | brk => exact agrees_brk s
  refine ⟨fun t ht => ?_, agrees.fault⟩
  obtain ⟨t', ht', same⟩ := agrees.next t ht
  exact ⟨t', ht', same.x, same.willwrite, same.mem, same.pc, same.halted, same.fx⟩

end Sys2Proof.AloneRuns
end

section
/-! What the snapshot shows and what it hides (R44, R121). -/

namespace Sys2Proof.SnapshotShows

open Sys2Proof Sys2Proof.Machine

/-! ### The lists it is made of -/

theorem words_length (m : Memory) (a n : Nat) : (m.words a n).length = n := by
  induction n generalizing a with
  | zero => rfl
  | succ n ih => rw [Memory.words, List.length_cons, ih]

theorem words_getElem? (m : Memory) {a n k : Nat} (h : k < n) : (m.words a n)[k]? = some (m.readWord (a + 4 * k)) := by
  induction n generalizing a k with
  | zero => exact absurd h (Nat.not_lt_zero k)
  | succ n ih =>
    cases k with
    | zero => rfl
    | succ k =>
      rw [Memory.words, List.getElem?_cons_succ, ih (Nat.lt_of_succ_lt_succ h), Nat.mul_succ, Nat.add_assoc,
        Nat.add_comm 4 (4 * k)]

theorem queueSlots_getElem? (iq : List Instr) {k : Nat} (h : k < 4) : (queueSlots iq)[k]? = some iq[k]? := by
  rw [queueSlots, List.getElem?_map, List.getElem?_range (n := Config.iqDepth) h, Option.map_some]

/-- The first row is the first eight, and the others are the rows of the rest. -/
theorem rowsOfEight_eq {l : List Int} (h : l ≠ []) : rowsOfEight l = l.take 8 :: rowsOfEight (l.drop 8) := by
  match l with
  | [] => exact absurd rfl h
  | [_] | [_, _] | [_, _, _] | [_, _, _, _] | [_, _, _, _, _] | [_, _, _, _, _, _] | [_, _, _, _, _, _, _] => rfl
  | _ :: _ :: _ :: _ :: _ :: _ :: _ :: _ :: _ => rfl

theorem rowsOfEight_flatten (l : List Int) : (rowsOfEight l).flatten = l := by
  by_cases h : l = []
  · subst h; rfl
  · rw [rowsOfEight_eq h, List.flatten_cons, rowsOfEight_flatten (l.drop 8), List.take_append_drop]
termination_by l.length
decreasing_by
  have := List.length_pos_iff.mpr h
  rw [List.length_drop]; omega

theorem rowsOfEight_getElem? {l : List Int} {k : Nat} (h : 8 * k < l.length) :
    (rowsOfEight l)[k]? = some ((l.drop (8 * k)).take 8) := by
  have hne : l ≠ [] := List.length_pos_iff.mp (by omega)
  induction k generalizing l with
  | zero => rw [rowsOfEight_eq hne]; rfl
  | succ k ih =>
    have hrest : 8 * k < (l.drop 8).length := by rw [List.length_drop]; omega
    rw [rowsOfEight_eq hne, List.getElem?_cons_succ, ih hrest (List.length_pos_iff.mp (by omega)), List.drop_drop,
      Nat.mul_succ, Nat.add_comm]

/-! ### The record -/

theorem snapshot_regs_getElem? (s : State) (r : Reg) : s.snapshot.regs[r.val]? = some (s.read r).toInt := by
  simp [State.snapshot]

theorem snapshot_data_length (s : State) : s.snapshot.data.length = (s.map.limit - s.map.boundary) / 4 := by
  simp only [State.snapshot, State.dataWords, List.length_map, words_length]

theorem snapshot_data_getElem? {s : State} {k : Nat} (h : k < s.snapshot.data.length) :
    s.snapshot.data[k]? = some (s.mem.readWord (s.map.boundary + 4 * k)).toInt := by
  rw [snapshot_data_length] at h
  simp only [State.snapshot, State.dataWords, List.getElem?_map, words_getElem? _ h, Option.map_some]

/-- Settles O59: the record is built field by field from the shown state, and reads nothing of the hidden. -/
theorem snapshotShowsTheVisibleStateOnly : Obligations.SnapshotShowsTheVisibleStateOnly := by
  intro s p
  refine ⟨rfl, rfl, rfl, rfl, fun k hk => queueSlots_getElem? _ hk, rfl, rfl, rfl, rfl, rfl, rfl, rfl, ?_,
    snapshot_regs_getElem? s, snapshot_data_length s, fun k hk => snapshot_data_getElem? hk,
    rowsOfEight_flatten _, rowsOfEight_flatten _, fun k hk => rowsOfEight_getElem? hk, fun k hk => rowsOfEight_getElem? hk,
    fun _ _ _ _ => rfl, fun b b' hb => ?_⟩
  · simp [p, State.snapshot]
  · simp only [State.snapshot, Option.map_some, hb]
    rfl

end Sys2Proof.SnapshotShows
end
